-- ==== Sys2Proof/Word.lean ====
section
/-! DEFINITION. The words of HUFCORE: bytes, 32-bit register words, node indices and code values. -/

namespace Sys2Proof

/-- One byte of IBUF or OBUF, and one symbol: 8 bits (spec R6, R14). -/
abbrev Byte := BitVec 8

/-- One register word of the host port: 32 bits (spec R23). -/
abbrev Word := BitVec 32

/-- A node index: `IDX_W` = 9 bits (spec R6, R32). -/
abbrev NodeIdx := BitVec 9

/-- The value of a code: `CODE_BITS` has 256 bits (spec R35). -/
abbrev CodeBits := BitVec 256

/-- A host port offset, 0x000 to 0x7FF (spec R23). -/
abbrev Offset := BitVec 11

end Sys2Proof
end

