-- ==== Sys2Proof/Syntax.lean ====
section
/-! DEFINITION. The commands of HUFCORE: one constructor per row of spec/opcode_table.json (spec R102). No command has an operand field (spec R101). -/

namespace Sys2Proof

/-- A command of the opcode map (spec R102). -/
inductive Instr where
  | nop
  | clear
  | rstio
  | build
  | gencodes
  | serialize
  | deserialize
  | putlen
  | getlen
  | encsyms
  | decsyms
  | flush
  | encode
  | decode
  deriving DecidableEq, Repr

end Sys2Proof
end

