-- ==== Sys2Proof/WellFormed.lean ====
section
/-! DEFINITION. Well-formedness of commands and of command words (spec R100 to R104). -/

namespace Sys2Proof

/-- Every command is well formed: no command has an operand field (spec R101). -/
def Instr.wellFormed : Instr → Bool
  | .nop => true
  | .clear => true
  | .rstio => true
  | .build => true
  | .gencodes => true
  | .serialize => true
  | .deserialize => true
  | .putlen => true
  | .getlen => true
  | .encsyms => true
  | .decsyms => true
  | .flush => true
  | .encode => true
  | .decode => true

/-- Check 1 of a command word: `RSVD`, bits 31:8, is 0 (spec R100, R103). -/
def CommandWord.rsvdZero (w : Word) : Bool := decide (w.toNat / 256 = 0)

/-- Check 2 of a command word: `OP`, bits 7:0, lies in none of the five ranges of illegal opcodes that spec R103 lists. -/
def CommandWord.opAssigned (w : Word) : Bool :=
  let op := w.toNat % 256
  !(decide (0x03 ≤ op ∧ op ≤ 0x0F) || decide (0x12 ≤ op ∧ op ≤ 0x1F) || decide (0x24 ≤ op ∧ op ≤ 0x2F)
    || decide (0x33 ≤ op ∧ op ≤ 0x3F) || decide (0x42 ≤ op ∧ op ≤ 0xFF))

/-- A command word that is not illegal (spec R103). -/
def CommandWord.wellFormed (w : Word) : Bool := CommandWord.rsvdZero w && CommandWord.opAssigned w

end Sys2Proof
end

