-- ==== Sys2Proof/Decode.lean ====
section
/-! DEFINITION. The command word: decoder, total on every 32-bit word and rejecting by name, and then the encoder (spec R100 to R104). -/

namespace Sys2Proof

/-- Why a word is no command (spec R103). Both make the core raise ILLEGAL_CMD when it executes the word. -/
inductive Reject where
  /-- `RSVD` is not 0. -/
  | reservedBits
  /-- `RSVD` is 0 and `OP` is not in the opcode map. -/
  | unassignedOpcode
  deriving DecidableEq, Repr

/-- Field `OP`, bits 7:0 (spec R100). -/
def opField (w : Word) : Byte := w.extractLsb' 0 8

/-- Field `RSVD`, bits 31:8 (spec R100). -/
def rsvdField (w : Word) : BitVec 24 := w.extractLsb' 8 24

/-- One row of the opcode map (spec R102). -/
structure OpRow where
  op : Byte
  instr : Instr
  deriving DecidableEq, Repr

/-- The opcode map (spec R102). -/
def opcodeMap : List OpRow :=
  [⟨0x00#8, .nop⟩, ⟨0x01#8, .clear⟩, ⟨0x02#8, .rstio⟩,
   ⟨0x10#8, .build⟩, ⟨0x11#8, .gencodes⟩,
   ⟨0x20#8, .serialize⟩, ⟨0x21#8, .deserialize⟩, ⟨0x22#8, .putlen⟩, ⟨0x23#8, .getlen⟩,
   ⟨0x30#8, .encsyms⟩, ⟨0x31#8, .decsyms⟩, ⟨0x32#8, .flush⟩,
   ⟨0x40#8, .encode⟩, ⟨0x41#8, .decode⟩]

/-- The row of the map with a given opcode. -/
def lookupOp : List OpRow → Byte → Option Instr
  | [], _ => none
  | r :: rows, op => if r.op = op then some r.instr else lookupOp rows op

/-- Decode a command word (spec R100, R102, R103): `RSVD` first, then the opcode map. -/
def decodeWord (w : Word) : Except Reject Instr :=
  if rsvdField w = 0#24 then
    match lookupOp opcodeMap (opField w) with
    | some i => .ok i
    | none => .error .unassignedOpcode
  else .error .reservedBits

/-- The opcode of a command (spec R102). -/
def Instr.opcode : Instr → Byte
  | .nop => 0x00#8
  | .clear => 0x01#8
  | .rstio => 0x02#8
  | .build => 0x10#8
  | .gencodes => 0x11#8
  | .serialize => 0x20#8
  | .deserialize => 0x21#8
  | .putlen => 0x22#8
  | .getlen => 0x23#8
  | .encsyms => 0x30#8
  | .decsyms => 0x31#8
  | .flush => 0x32#8
  | .encode => 0x40#8
  | .decode => 0x41#8

/-- Encode a command: `RSVD` = 0 above `OP` (spec R100). -/
def encode (i : Instr) : Word := 0#24 ++ i.opcode

/-- The command word that a table word of `nbits` bits stands for: the bits above `nbits` are 0.
A command is exactly one 32-bit word written whole through CMD (spec R85, R100), so no byte order enters. -/
def tableWord (nbits w : Nat) : Word := BitVec.ofNat 32 (w % 2 ^ nbits)

/-- The command the decoder reads from a table word; a word of more than 32 bits is no command (spec R100). -/
def decodeTableWord (nbits w : Nat) : Option Instr :=
  if nbits ≤ 32 then
    match decodeWord (tableWord nbits w) with
    | .ok i => some i
    | .error _ => none
  else none

end Sys2Proof
end

