-- ==== Sys2Proof/Config.lean ====
section
/-! DEFINITION. What an implementation of HUFCORE fixes (spec R6), and the values the spec leaves free. -/

namespace Sys2Proof.Config

/-- `NSYM`, the number of symbol values (spec R6). -/
def nsym : Nat := 256

/-- `W_MAX`, the largest total weight BUILD accepts (spec R6, R148). -/
def wMax : Nat := 0xFFFFFFFE

/-- `W_UNKNOWN`, the weight of every node of a deserialized tree (spec R6, R26). -/
def wUnknown : Word := 0xFFFFFFFF#32

/-- `MAX_NODES`, the capacity of the node arena (spec R6, R32). -/
def maxNodes : Nat := 511

/-- `NIL`, the index that names no node (spec R6, R32). -/
def nil : NodeIdx := 0x1FF#9

/-- `MAX_CODE_LEN`, the longest code in bits (spec R6, R35). -/
def maxCodeLen : Nat := 255

/-- The constant `ID` reads: the ASCII bytes "HUF1" (spec R44). -/
def idValue : Word := 0x48554631#32

/-- The upper bound of the two OPEN buffer sizes (spec R6). -/
def maxBufBytes : Nat := 2 ^ 28

/-- The size of IBUF and of OBUF in `State.reset`. DESIGN CHOICE, unsafe where a claim rests on it: the spec leaves
`IBUF_BYTES` and `OBUF_BYTES` OPEN (spec R6); log entry 1. -/
def resetBufBytes : Nat := 4096

/-- The free value of the `n`-th draw where a byte is read that nothing has written (spec R50, R71).
Safe: it has no body, so a claim holds for every value; log entry 2. -/
opaque freeByte : Nat → Byte

/-- The free value of the `n`-th draw where a register is read while `BUSY` = 1 (spec R87).
Safe: it has no body; log entry 3. -/
opaque freeWord : Nat → Word

end Sys2Proof.Config
end

