-- ==== Sys2Proof/Machine/State.lean ====
section
/-! DEFINITION. The state of HUFCORE as plain data, the reasons a step can stop, and the state after reset (spec 10_state.md, R240). -/

namespace Sys2Proof.Machine

/-- `STATUS.TREE_STATE`: what the node arena holds (spec R26). -/
inductive TreeState where
  | invalid
  | empty
  | built
  | loaded
  deriving DecidableEq, Repr

/-- One entry of the node arena (spec R32). -/
structure Node where
  leaf : Bool
  sym : Byte
  weight : Word
  left : NodeIdx
  right : NodeIdx
  deriving DecidableEq, Repr

/-- The errors the core raises (spec R210). Each is an exception the machine takes, not a stop. -/
inductive Err where
  | illegalCmd
  | noTree
  | noCodes
  | noCode
  | weightOvf
  | inExhausted
  | outFull
  | badMarker
  | dupSymbol
  | treeTooBig
  | badEmptyLen
  deriving DecidableEq, Repr

/-- The size of a host access; only whole words are accepted (spec R85, R86). -/
inductive AccessSize where
  | byte
  | half
  | word
  deriving DecidableEq, Repr

/-- An event of a run: a host access, a reset by the platform, or a step of the core (spec R92, R249). -/
inductive Event where
  | read (off : Offset) (size : AccessSize)
  | write (off : Offset) (size : AccessSize) (v : Word)
  | reset
  | core
  deriving DecidableEq, Repr

/-- Why the machine stops. No state that satisfies `State.Inv` reaches one of these, and no run from reset does. -/
inductive Fault where
  /-- Raised by GENCODES, SERIALIZE, DECSYMS, ENCODE and DECODE where ROOT or a link they follow names no arena entry in
  use. Safe: the spec gives such an entry no value (spec R49); log entry 9. -/
  | deadNode
  /-- Raised by GENCODES, SERIALIZE and ENCODE where more than MAX_NODES nodes are nested, and by DESERIALIZE and DECODE
  where their recursion passes the bound the arena sets (it never does). Safe: the spec's own recursion does not end
  on an arena whose links form a cycle; log entry 10. -/
  | endlessTraversal
  /-- Raised by a command that reads an IBUF byte at or past IBUF_BYTES, which needs IN_LEN > IBUF_BYTES. Safe: no such
  byte exists (spec R70, R71); log entry 11. -/
  | noSuchByte
  deriving DecidableEq, Repr

/-- Why a step has no meaning. -/
inductive Refusal where
  /-- Answered only by an arm of `exec` whose instruction has no meaning yet. Safe. -/
  | notModelled (mnemonic : String)
  deriving DecidableEq, Repr

/-- The state of HUFCORE. -/
structure State where
  /-- The pending-command latch (spec R46); `STATUS.BUSY` is 1 exactly when it holds a word. -/
  pend : Option Word
  /-- `STATUS.DONE` (spec R25). -/
  done : Bool
  /-- `STATUS.ERR` (spec R25). -/
  err : Bool
  /-- `STATUS.CMD_OVR` (spec R25). -/
  cmdOvr : Bool
  /-- `STATUS.CMD_REJ` (spec R25). -/
  cmdRej : Bool
  /-- `STATUS.BUS_ERR` (spec R25). -/
  busErr : Bool
  /-- `STATUS.TREE_STATE` (spec R26). -/
  treeState : TreeState
  /-- `STATUS.CODES_VALID` (spec R36). -/
  codesValid : Bool
  /-- `STATUS.ERRCODE` (spec R25, R210). -/
  errCode : Byte
  /-- `STATUS.LASTOP` (spec R47). -/
  lastOp : Byte
  /-- `ERRINFO` (spec R39). -/
  errInfo : Word
  /-- `LEN` (spec R27). -/
  len : Word
  /-- `IN_LEN` (spec R28). -/
  inLen : Word
  /-- `IBITPOS`, the input cursor (spec R29). -/
  ibitpos : Word
  /-- `OBITPOS`, the output cursor (spec R31). -/
  obitpos : Word
  /-- `OACC`, the output accumulator (spec R31). -/
  oacc : Byte
  /-- `ROOT` (spec R33). -/
  root : NodeIdx
  /-- `NODE[0..NODE_COUNT-1]`, the arena entries in use, in order of index (spec R32 to R34); log entry 7. -/
  arena : List Node
  /-- `FREQ[0..255]` (spec R30). -/
  freq : Vector Word 256
  /-- `CODE_LEN[0..255]` (spec R35). -/
  codeLen : Vector Byte 256
  /-- `CODE_BITS[0..255]` (spec R35). -/
  codeBits : Vector CodeBits 256
  /-- `IRQ_EN.DONE_IE` (spec R40). -/
  doneIe : Bool
  /-- `IRQ_EN.ERR_IE` (spec R40). -/
  errIe : Bool
  /-- `NODE_SEL` (spec R37). -/
  nodeSel : NodeIdx
  /-- `SYM_SEL` (spec R38). -/
  symSel : Byte
  /-- `IBUF_ADDR` (spec R41). -/
  ibufAddr : Word
  /-- `OBUF_ADDR` (spec R42). -/
  obufAddr : Word
  /-- `IBUF`: the bytes that hold a value, addresses strictly rising (spec R50, R70); a byte not listed holds no value. -/
  ibuf : List Host.Cell
  /-- `OBUF`: as `ibuf` (spec R50, R70). -/
  obuf : List Host.Cell
  /-- `IBUF_BYTES`, constant through a run (spec R6, R43); log entry 1. -/
  ibufBytes : Nat
  /-- `OBUF_BYTES`, constant through a run (spec R6, R43); log entry 1. -/
  obufBytes : Nat
  /-- The model's own: how many free values have been drawn; log entry 2. -/
  draws : Nat
  /-- The model's own: the events still to come, the next one first; log entry 4. -/
  agenda : List Event
  /-- The model's own: the value the last host read returned; log entry 5. -/
  rdata : Word
  deriving DecidableEq, Repr

/-- The machine right after the power-up reset (spec R23, R49, R240): no byte of either buffer holds a value (spec R50).
The buffer sizes, the code table and the model's own fields are DESIGN CHOICES (log entries 1, 2, 4, 5, 8). -/
def State.reset : State where
  pend := none
  done := false
  err := false
  cmdOvr := false
  cmdRej := false
  busErr := false
  treeState := .invalid
  codesValid := false
  errCode := 0
  lastOp := 0
  errInfo := 0
  len := 0
  inLen := 0
  ibitpos := 0
  obitpos := 0
  oacc := 0
  root := Config.nil
  arena := []
  freq := Vector.replicate 256 0
  codeLen := Vector.replicate 256 0
  codeBits := Vector.replicate 256 0
  doneIe := false
  errIe := false
  nodeSel := 0
  symSel := 0
  ibufAddr := 0
  obufAddr := 0
  ibuf := []
  obuf := []
  ibufBytes := Config.resetBufBytes
  obufBytes := Config.resetBufBytes
  draws := 0
  agenda := []
  rdata := 0

end Sys2Proof.Machine
end

