-- ==== Sys2Proof/Machine/Flags.lean ====
section
/-! DEFINITION. The status flags: the STATUS word, its write-1-to-clear bits, the error codes, the interrupt enables and the interrupt output (spec R25, R26, R40, R210, R230). -/

namespace Sys2Proof.Machine

/-- `STATUS.BUSY`: 1 exactly when PEND holds a word (spec R46). -/
def State.busy (s : State) : Bool := s.pend.isSome

/-- The 2-bit encoding of `TREE_STATE` (spec R26). -/
def TreeState.code : TreeState → BitVec 2
  | .invalid => 0
  | .empty => 1
  | .built => 2
  | .loaded => 3

/-- The code an error leaves in `STATUS.ERRCODE` (spec R210). -/
def Err.code : Err → Byte
  | .illegalCmd => 0x01
  | .noTree => 0x02
  | .noCodes => 0x03
  | .noCode => 0x04
  | .weightOvf => 0x05
  | .inExhausted => 0x06
  | .outFull => 0x07
  | .badMarker => 0x08
  | .dupSymbol => 0x09
  | .treeTooBig => 0x0A
  | .badEmptyLen => 0x0B

/-- One flag as a bit of a register word. -/
def flagBit (b : Bool) : BitVec 1 := BitVec.ofBool b

/-- The STATUS word (spec R25), from bit 31 down to bit 0. -/
def State.statusWord (s : State) : Word :=
  s.lastOp ++ s.errCode ++ 0#7 ++ flagBit s.codesValid ++ s.treeState.code ++ flagBit s.busErr ++ flagBit s.cmdRej
    ++ flagBit s.cmdOvr ++ flagBit s.err ++ flagBit s.done ++ flagBit s.busy

/-- A host write of `v` to STATUS: it clears each of bits 1, 3, 4 and 5 for which `v` has a 1 (spec R25). -/
def State.writeStatus (s : State) (v : Word) : State :=
  { s with
    done := s.done && !v.getLsbD 1
    cmdOvr := s.cmdOvr && !v.getLsbD 3
    cmdRej := s.cmdRej && !v.getLsbD 4
    busErr := s.busErr && !v.getLsbD 5 }

/-- A refused host access (spec R41, R42, R86, R87). -/
def State.setBusErr (s : State) : State := { s with busErr := true }

/-- The IRQ_EN word (spec R40). -/
def State.irqEnWord (s : State) : Word := 0#30 ++ flagBit s.errIe ++ flagBit s.doneIe

/-- A host write of `v` to IRQ_EN (spec R40). -/
def State.writeIrqEn (s : State) (v : Word) : State := { s with doneIe := v.getLsbD 0, errIe := v.getLsbD 1 }

/-- The interrupt output, level-sensitive and active high (spec R230). -/
def State.irq (s : State) : Bool := (s.done && s.doneIe) || (s.err && s.errIe)

end Sys2Proof.Machine
end

