-- ==== Sys2Proof/Machine/Ops.lean ====
section
/-! DEFINITION. The shared operations: running a command body, taking an error and returning from it, completion and acceptance, buffer memory, the node arena and the code table (spec 10_state.md, 20_memory.md R71 and R72, 60_exceptions.md R220 to R226). -/

namespace Sys2Proof.Machine

/-- What one step answers. -/
abbrev Result := Host.Outcome State Fault Refusal

/-! ### The body of a command -/

/-- How a command body ends early: it raises an error (spec R12), or the machine stops. -/
inductive Abort where
  | raise (e : Err) (info : Word)
  | stop (f : Fault)
  deriving DecidableEq, Repr

/-- A command body: it runs on a state and ends with a value, or aborts; the state keeps what was written before (spec R12). -/
abbrev Run (α : Type) := EStateM Abort State α

/-- `raise E(info)` (spec R12, R220). -/
def raise {α : Type} (e : Err) (info : Word) : Run α := fun s => .error (.raise e info) s

/-- The machine stops. -/
def halt {α : Type} (f : Fault) : Run α := fun s => .error (.stop f) s

/-- Read something of the state. -/
def view {α : Type} (f : State → α) : Run α := fun s => .ok (f s) s

/-- Write the state. -/
def update (f : State → State) : Run Unit := fun s => .ok () (f s)

/-- `require C else E(info)` (spec R12). -/
def require (c : State → Bool) (e : Err) (info : Word) : Run Unit := fun s =>
  if c s then .ok () s else .error (.raise e info) s

/-- Run a body `n` times. -/
def repeatRun : Nat → Run Unit → Run Unit
  | 0, _ => pure ()
  | n + 1, m => do
    m
    repeatRun n m

/-! ### Taking an error, completion, and the return from an error -/

/-- Fault recording, HUFCORE's trap entry (spec R220). -/
def State.recordFault (s : State) (e : Err) (info : Word) : State :=
  { s with err := true, errCode := e.code, errInfo := info }

/-- The return from the error state, done by CLEAR alone (spec R226). -/
def State.clearFault (s : State) : State := { s with err := false, errCode := 0, errInfo := 0 }

/-- Completion: PEND empties, so BUSY <- 0, and DONE <- 1 (spec R221, R250). -/
def State.complete (s : State) : State := { s with pend := none, done := true }

/-- One command of the core, atomically: the body, then the fault record if it raised, then completion (spec R220, R221, R250). -/
def runCommand (m : Run Unit) (s : State) : Result :=
  match m s with
  | .ok _ t => .next t.complete
  | .error (.raise e info) t => .next (t.recordFault e info).complete
  | .error (.stop f) _ => .fault f

/-- A command word enters PEND (the second branch of spec R225; LASTOP is spec R47). -/
def State.accept (s : State) (w : Word) : State :=
  { s with pend := some w, lastOp := w.extractLsb' 0 8, done := false }

/-- The words accepted while `ERR` = 1: NOP and CLEAR (spec R225). -/
def acceptedInError (w : Word) : Bool := w == 0x00000000#32 || w == 0x00000001#32

/-- A host write of `w` to CMD: the overrun while BUSY (spec R252), else the acceptance rule (spec R225). -/
def State.issue (s : State) (w : Word) : State :=
  if s.busy then { s with cmdOvr := true }
  else if s.err && !acceptedInError w then { s with cmdRej := true }
  else s.accept w

/-! ### Buffer memory -/

/-- The value a byte holds, if anything has written it (spec R50, R71). -/
def memLookup : List Host.Cell → Nat → Option Byte
  | [], _ => none
  | (b, v) :: rest, a => if b = a then some v else memLookup rest a

/-- Write one byte, keeping the addresses strictly rising (spec R72). -/
def memWrite : List Host.Cell → Nat → Byte → List Host.Cell
  | [], a, v => [(a, v)]
  | (b, u) :: rest, a, v =>
    if a < b then (a, v) :: (b, u) :: rest
    else if a = b then (a, v) :: rest
    else (b, u) :: memWrite rest a v

/-- The bytes at `a` and above lose their values (spec R241). -/
def memDropFrom (mem : List Host.Cell) (a : Nat) : List Host.Cell := mem.filter (fun c => decide (c.1 < a))

/-- The canonical form: addresses strictly rising. Every listed byte holds a value, and an unlisted byte holds none. -/
def Memory.wf : List Host.Cell → Bool
  | [] => true
  | [_] => true
  | (a, _) :: (b, v) :: rest => decide (a < b) && Memory.wf ((b, v) :: rest)

/-- `MemRead` of one byte (spec R71): the byte's value, or a free draw where nothing has written it (spec R50). -/
def State.fetchByte (s : State) (mem : List Host.Cell) (a : Nat) : Byte × State :=
  match memLookup mem a with
  | some v => (v, s)
  | none => (Config.freeByte s.draws, { s with draws := s.draws + 1 })

/-- `MemRead(IBUF, k, 1)` by the core (spec R71). -/
def readIbuf (k : Nat) : Run Byte := fun s =>
  if k < s.ibufBytes then .ok (s.fetchByte s.ibuf k).1 (s.fetchByte s.ibuf k).2
  else .error (.stop .noSuchByte) s

/-! ### The node arena -/

/-- `NODE_COUNT` (spec R33). -/
def State.nodeCount (s : State) : Nat := s.arena.length

/-- `NODE[i]` (spec R32). -/
def State.node? (s : State) (i : NodeIdx) : Option Node := s.arena[i.toNat]?

/-- Read an arena entry that must be in use (spec R33). -/
def loadNode (i : NodeIdx) : Run Node := fun s =>
  match s.node? i with
  | some n => .ok n s
  | none => .error (.stop .deadNode) s

/-- A leaf as the core allocates it (spec R32). -/
def leafNode (sym : Byte) (weight : Word) : Node := ⟨true, sym, weight, Config.nil, Config.nil⟩

/-- An internal node as the core allocates it (spec R32; its symbol is 0x00). -/
def internalNode (weight : Word) (left right : NodeIdx) : Node := ⟨false, 0x00, weight, left, right⟩

/-- The arena entries in use replaced (spec R32 to R34). -/
def State.setArena (s : State) (a : List Node) : State := { s with arena := a }

/-- `Alloc` (spec R34). The detail of TREE_TOO_BIG is the cursor as it stands here. DEDUCED, unsafe if the table of R210 means the
position right after the node bit, which for a leaf is 8 bits less; log entry 23. -/
def alloc (n : Node) : Run NodeIdx := fun s =>
  if s.nodeCount = Config.maxNodes then .error (.raise .treeTooBig s.ibitpos) s
  else .ok (BitVec.ofNat 9 s.nodeCount) (s.setArena (s.arena ++ [n]))

/-- `NODE[i].left <- l; NODE[i].right <- r` (spec R163). -/
def State.setLinks (s : State) (i l r : NodeIdx) : State :=
  s.setArena (s.arena.modify i.toNat (fun n => { n with left := l, right := r }))

/-- The arena as BUILD, DESERIALIZE and CLEAR leave it when they start (spec R131, R140, R163). -/
def State.dropTree (s : State) : State :=
  { s with codesValid := false, treeState := .invalid, arena := [], root := Config.nil }

/-! ### The frequency table and the code table -/

/-- `FREQ[sym]` (spec R30). -/
def State.freqOf (s : State) (sym : Byte) : Word := s.freq[sym.toNat]'sym.isLt

/-- `FREQ[sym] <- v` (spec R30). -/
def State.setFreq (s : State) (sym : Byte) (v : Word) : State :=
  { s with freq := s.freq.set sym.toNat v sym.isLt }

/-- `CODE_LEN[sym]` (spec R35). -/
def State.codeLenOf (s : State) (sym : Byte) : Byte := s.codeLen[sym.toNat]'sym.isLt

/-- `CODE_BITS[sym]` (spec R35). -/
def State.codeBitsOf (s : State) (sym : Byte) : CodeBits := s.codeBits[sym.toNat]'sym.isLt

/-- `CODE_LEN[sym] <- d; CODE_BITS[sym] <- v` (spec R149). -/
def State.setCode (s : State) (sym : Byte) (d v : Nat) : State :=
  { s with
    codeLen := s.codeLen.set sym.toNat (BitVec.ofNat 8 d) sym.isLt
    codeBits := s.codeBits.set sym.toNat (BitVec.ofNat 256 v) sym.isLt }

/-- Every code-table entry 0 (spec R149). -/
def State.zeroCodes (s : State) : State :=
  { s with codeLen := Vector.replicate 256 0, codeBits := Vector.replicate 256 0 }

/-- All 256 symbol values in ascending order (spec R12: `for s in 0..255 ascending`). -/
def allSymbols : List Byte := (List.range 256).map (BitVec.ofNat 8)

end Sys2Proof.Machine
end

