-- ==== Sys2Proof/Machine/Control.lean ====
section
/-! DEFINITION. The control family: NOP, CLEAR, RSTIO and the execution of an illegal word (spec 40_control.md). -/

namespace Sys2Proof.Machine

/-- NOP (spec R130). -/
def execNop (s : State) : Result := runCommand (pure ()) s

/-- The writes of CLEAR (spec R131). -/
def State.clearDatapath (s : State) : State :=
  { s.dropTree.clearFault with
    freq := Vector.replicate 256 0
    len := 0
    ibitpos := 0
    obitpos := 0
    oacc := 0
    cmdOvr := false
    cmdRej := false
    busErr := false }

/-- CLEAR (spec R131). -/
def execClear (s : State) : Result := runCommand (update State.clearDatapath) s

/-- Both cursors and the accumulator to 0 (spec R132). -/
def State.rewind (s : State) : State := { s with ibitpos := 0, obitpos := 0, oacc := 0 }

/-- RSTIO (spec R132). -/
def execRstio (s : State) : Result := runCommand (update State.rewind) s

/-- Execution of an illegal word (spec R103, R133). -/
def execIllegal (w : Word) (s : State) : Result := runCommand (raise .illegalCmd w) s

end Sys2Proof.Machine
end

