-- ==== Sys2Proof/Machine/Operands.lean ====
section
/-! DEFINITION. The operand forms of the commands: the input port (bit reader) and the output port (bit writer) (spec 20_memory.md R74 to R83). -/

namespace Sys2Proof.Machine

/-! ### The input port -/

/-- `InAvail(n)`: `IBITPOS + n ≤ 8 · IN_LEN`, without overflow (spec R75). -/
def State.inAvail (s : State) (n : Nat) : Bool := decide (s.ibitpos.toNat + n ≤ 8 * s.inLen.toNat)

/-- Bit `p` of a bit string within its byte `v`: bit `7 - (p mod 8)` (spec R74, R79). -/
def bitOfByte (v : Byte) (p : Nat) : Bool := v.getLsbD (7 - p % 8)

/-- `ReadBit` (spec R76). -/
def readBit : Run Bool := fun s =>
  if s.inAvail 1 then
    match readIbuf (s.ibitpos.toNat / 8) s with
    | .ok v t => .ok (bitOfByte v s.ibitpos.toNat) { t with ibitpos := BitVec.ofNat 32 (s.ibitpos.toNat + 1) }
    | .error e t => .error e t
  else .error (.raise .inExhausted s.ibitpos) s

/-- `for j in 0..n-1: v <- 2·v + ReadBit()` (spec R77, R78). -/
def readBits : Nat → Nat → Run Nat
  | 0, v => pure v
  | n + 1, v => do
    let b ← readBit
    readBits n (2 * v + b.toNat)

/-- The check of the whole width before any bit is consumed (spec R77, R78). -/
def requireInput (n : Nat) : Run Unit := fun s =>
  if s.inAvail n then .ok () s else .error (.raise .inExhausted s.ibitpos) s

/-- `ReadWord8` (spec R77). -/
def readWord8 : Run Byte := do
  requireInput 8
  let v ← readBits 8 0
  pure (BitVec.ofNat 8 v)

/-- `ReadInt32` (spec R78). -/
def readInt32 : Run Word := do
  requireInput 32
  let v ← readBits 32 0
  pure (BitVec.ofNat 32 v)

/-! ### The output port -/

/-- Bit `i` of a byte set to `b`. -/
def setBit (v : Byte) (i : Nat) (b : Bool) : Byte :=
  if b then v ||| BitVec.ofNat 8 (2 ^ i) else v &&& ~~~ BitVec.ofNat 8 (2 ^ i)

/-- What `WriteBit` does once there is room (spec R80): the bit enters OACC, the cursor moves, and a byte that is complete
goes to OBUF. -/
def State.emitBit (s : State) (b : Bool) : State :=
  let q := s.obitpos.toNat
  let acc := setBit s.oacc (7 - q % 8) b
  if (q + 1) % 8 = 0 then
    { s with obitpos := BitVec.ofNat 32 (q + 1), obuf := memWrite s.obuf ((q + 1) / 8 - 1) acc, oacc := 0 }
  else { s with obitpos := BitVec.ofNat 32 (q + 1), oacc := acc }

/-- Room for `n` more bits: `OBITPOS + n ≤ 8 · OBUF_BYTES` (spec R80 to R82). -/
def State.outRoom (s : State) (n : Nat) : Bool := decide (s.obitpos.toNat + n ≤ 8 * s.obufBytes)

/-- `WriteBit` (spec R80). -/
def writeBit (b : Bool) : Run Unit := fun s =>
  if 8 * s.obufBytes ≤ s.obitpos.toNat then .error (.raise .outFull s.obitpos) s
  else .ok () (s.emitBit b)

/-- `for j in n-1 down to 0: WriteBit(v[j])` (spec R81, R82, R180). -/
def writeBits {w : Nat} (v : BitVec w) : Nat → Run Unit
  | 0 => pure ()
  | j + 1 => do
    writeBit (v.getLsbD j)
    writeBits v j

/-- The check of room for the whole width before any bit is produced (spec R81, R82). -/
def requireRoom (n : Nat) : Run Unit := fun s =>
  if s.outRoom n then .ok () s else .error (.raise .outFull s.obitpos) s

/-- `WriteWord8` (spec R81). -/
def writeWord8 (v : Byte) : Run Unit := do
  requireRoom 8
  writeBits v 8

/-- `WriteInt32` (spec R82). -/
def writeInt32 (v : Word) : Run Unit := do
  requireRoom 32
  writeBits v 32

/-- `while OBITPOS mod 8 ≠ 0: WriteBit(0)`, at most `n` times round. -/
def padLoop : Nat → Run Unit
  | 0 => pure ()
  | n + 1 => fun s =>
    if s.obitpos.toNat % 8 = 0 then .ok () s
    else (do writeBit false; padLoop n : Run Unit) s

/-- `PadToByte` (spec R83): a byte is complete after at most 7 bits. -/
def padToByte : Run Unit := padLoop 7

end Sys2Proof.Machine
end

