-- ==== Sys2Proof/Machine/Tree.lean ====
section
/-! DEFINITION. The tree family: BUILD and GENCODES (spec 41_tree.md). -/

namespace Sys2Proof.Machine

/-! ### BUILD -/

/-- The exact sum of all FREQ entries (spec R140, R148). -/
def State.totalWeight (s : State) : Nat := (s.freq.toList.map BitVec.toNat).sum

/-- The entries that are not 0 of a table that starts at symbol `sym`, ascending, each with its frequency. -/
def presentFrom : Nat → List Word → List (Byte × Word)
  | _, [] => []
  | sym, f :: rest => if f = 0 then presentFrom (sym + 1) rest else (BitVec.ofNat 8 sym, f) :: presentFrom (sym + 1) rest

/-- The symbols with a non-zero frequency, ascending, each with its frequency (spec R141). -/
def State.presentSymbols (s : State) : List (Byte × Word) := presentFrom 0 s.freq.toList

/-- One leaf per symbol, in the order given (spec R141). -/
def allocLeaves : List (Byte × Word) → Run Unit
  | [] => pure ()
  | p :: rest => do
    let _ ← alloc (leafNode p.1 p.2)
    allocLeaves rest

/-- The symbol of the placeholder leaf beside `s0` (spec R142). -/
def placeholderSym (s0 : Byte) : Byte := if s0 = 0x00 then 0x01 else 0x00

/-- The placeholder leaf of a table with exactly one symbol (spec R142). -/
def allocPlaceholder : List (Byte × Word) → Run Unit
  | [p] => do
    let _ ← alloc (leafNode (placeholderSym p.1) 0)
    pure ()
  | _ => pure ()

/-- An element of the priority collection PQ: a node index with the weight that node holds (spec R45, R143). -/
structure Key where
  weight : Word
  idx : NodeIdx
  deriving DecidableEq, Repr

/-- The key order: smaller weight first, for equal weights the smaller index (spec R143). -/
def Key.lt (a b : Key) : Bool :=
  decide (a.weight.toNat < b.weight.toNat) || (a.weight == b.weight && decide (a.idx.toNat < b.idx.toNat))

/-- `ExtractMin(PQ)`: the smallest key and what is left; nothing where PQ is empty (spec R143). -/
def extractMin : List Key → Option (Key × List Key)
  | [] => none
  | k :: ks =>
    match extractMin ks with
    | none => some (k, ks)
    | some (m, rest) => if k.lt m then some (k, ks) else some (m, k :: rest)

/-- The key of entry `i` of the arena. -/
def keyOf (n : Node) (i : Nat) : Key := ⟨n.weight, BitVec.ofNat 9 i⟩

/-- `PQ <- { 0, 1, ..., NODE_COUNT - 1 }` (spec R140). -/
def State.initialKeys (s : State) : List Key := s.arena.zipIdx.map (fun p => keyOf p.1 p.2)

/-- One merge: the new node over `x` and `y`, as the key it has in PQ (spec R144). -/
def mergeTwo (x y : Key) : Run Key := do
  let z ← alloc (internalNode (x.weight + y.weight) x.idx y.idx)
  pure ⟨x.weight + y.weight, z⟩

/-- `while |PQ| > 1`, at most `n` times round; it answers what PQ holds at the end (spec R140, R144). -/
def mergeLoop : Nat → List Key → Run (List Key)
  | 0, pq => pure pq
  | n + 1, pq =>
    match extractMin pq with
    | none => pure pq
    | some (x, pq1) =>
      match extractMin pq1 with
      | none => pure pq
      | some (y, pq2) => do
        let z ← mergeTwo x y
        mergeLoop n (z :: pq2)

/-- The index of the one element of PQ (spec R145). -/
def rootOfKeys : List Key → NodeIdx
  | [] => Config.nil
  | k :: _ => k.idx

/-- The part of BUILD after its reset of the arena, for a table with the symbols `syms` (spec R140). -/
def buildFrom (syms : List (Byte × Word)) : Run Unit :=
  match syms with
  | [] => update (fun s => { s with treeState := .empty })
  | _ => do
    allocLeaves syms
    allocPlaceholder syms
    let pq ← view State.initialKeys
    let last ← mergeLoop pq.length pq
    update (fun s => { s with root := rootOfKeys last, treeState := .built })

/-- BUILD's pseudocode (spec R140). -/
def buildBody : Run Unit := do
  require (fun s => decide (s.totalWeight ≤ Config.wMax)) .weightOvf 0
  update State.dropTree
  let syms ← view State.presentSymbols
  buildFrom syms

/-- BUILD (spec R140). -/
def execBuild (s : State) : Result := runCommand buildBody s

/-! ### GENCODES -/

/-- `require STATUS.TREE_STATE ≠ INVALID else NO_TREE(op)` (spec R213). -/
def requireTree (op : Word) : Run Unit := require (fun s => decide (s.treeState ≠ .invalid)) .noTree op

/-- `Visit(i, d, v)` with at most `f` nodes nested (spec R149). -/
def visit : Nat → NodeIdx → Nat → Nat → Run Unit
  | 0, _, _, _ => halt .endlessTraversal
  | f + 1, i, d, v => do
    let n ← loadNode i
    if n.leaf then update (fun s => s.setCode n.sym d v)
    else do
      visit f n.left (d + 1) (2 * v)
      visit f n.right (d + 1) (2 * v + 1)

/-- GENCODES' pseudocode (spec R149). -/
def gencodesBody : Run Unit := do
  requireTree 0x11
  update (fun s => { s.zeroCodes with codesValid := false })
  let st ← view State.treeState
  let r ← view State.root
  if st = .empty then pure () else visit Config.maxNodes r 0 0
  update (fun s => { s with codesValid := true })

/-- GENCODES (spec R149). -/
def execGencodes (s : State) : Result := runCommand gencodesBody s

end Sys2Proof.Machine
end

