-- ==== Sys2Proof/Machine/Header.lean ====
section
/-! DEFINITION. The header family: SERIALIZE, DESERIALIZE, PUTLEN and GETLEN (spec 42_serialize.md). -/

namespace Sys2Proof.Machine

/-! ### SERIALIZE -/

/-- A leaf: the bit 1 and the symbol (spec R161). -/
def writeLeaf (sym : Byte) : Run Unit := do
  writeBit true
  writeWord8 sym

/-- `WriteNode(i)` with at most `f` nodes nested (spec R160, R161). -/
def writeNode : Nat → NodeIdx → Run Unit
  | 0, _ => halt .endlessTraversal
  | f + 1, i => do
    let n ← loadNode i
    if n.leaf then writeLeaf n.sym
    else do
      writeBit false
      writeNode f n.left
      writeNode f n.right

/-- `SerializeBody` (spec R160, R162). -/
def serializeBody : Run Unit := do
  let st ← view State.treeState
  let r ← view State.root
  if st = .empty then writeLeaf 0x00 else writeNode Config.maxNodes r

/-- SERIALIZE (spec R160). -/
def execSerialize (s : State) : Result :=
  runCommand (do requireTree 0x20; serializeBody) s

/-! ### DESERIALIZE -/

/-- A leaf of a serialized tree, after its node bit (spec R163, R164): the new index and the symbols seen so far.
Where the leaf would be the 512th node, TREE_TOO_BIG comes at `Alloc`, after the symbol has been read and found new, with the
cursor there as detail (spec R34, R164, R220, R222). DEDUCED, unsafe: how the table of R210 is read with these is log entry 23. -/
def readLeaf (seen : List Byte) : Run (NodeIdx × List Byte) := do
  let s ← readWord8
  if s ∈ seen then raise .dupSymbol (s.setWidth 32)
  else do
    let i ← alloc (leafNode s Config.wUnknown)
    pure (i, s :: seen)

/-- `ReadNode()` with at most `f` nodes nested (spec R163, R164); `seen` is the set SEEN. -/
def readNode : Nat → List Byte → Run (NodeIdx × List Byte)
  | 0, _ => halt .endlessTraversal
  | f + 1, seen => do
    let b ← readBit
    if b then readLeaf seen
    else do
      let i ← alloc (internalNode Config.wUnknown Config.nil Config.nil)
      let l ← readNode f seen
      let q ← readNode f l.2
      update (fun s => s.setLinks i l.1 q.1)
      pure (i, q.2)

/-- A leaf bit at the root position: the empty-tree marker (spec R165). -/
def readMarker : Run Unit := do
  let s ← readWord8
  if s = 0x00 then update (fun t => { t with treeState := .empty })
  else raise .badMarker (s.setWidth 32)

/-- A tree, after its root's node bit (spec R163). -/
def readTree : Run Unit := do
  let r ← alloc (internalNode Config.wUnknown Config.nil Config.nil)
  let l ← readNode Config.maxNodes []
  let q ← readNode Config.maxNodes l.2
  update (fun s => { s.setLinks r l.1 q.1 with root := r, treeState := .loaded })

/-- `DeserializeBody` (spec R163). -/
def deserializeBody : Run Unit := do
  update State.dropTree
  let b ← readBit
  if b then readMarker else readTree

/-- DESERIALIZE (spec R163). -/
def execDeserialize (s : State) : Result := runCommand deserializeBody s

/-! ### The length field -/

/-- `WriteInt32(LEN)` (spec R167). -/
def putlenBody : Run Unit := do
  let l ← view State.len
  writeInt32 l

/-- PUTLEN (spec R167). -/
def execPutlen (s : State) : Result := runCommand putlenBody s

/-- `LEN <- ReadInt32()` (spec R168). -/
def getlenBody : Run Unit := do
  let v ← readInt32
  update (fun s => { s with len := v })

/-- GETLEN (spec R168). -/
def execGetlen (s : State) : Result := runCommand getlenBody s

end Sys2Proof.Machine
end

