-- ==== Sys2Proof/Machine/Bitstream.lean ====
section
/-! DEFINITION. The bitstream family: ENCSYMS, DECSYMS and FLUSH (spec 43_encode.md, 44_decode.md). -/

namespace Sys2Proof.Machine

/-! ### ENCSYMS -/

/-- `require STATUS.CODES_VALID = 1 else NO_CODES(op)` (spec R213). -/
def requireCodes (op : Word) : Run Unit := require State.codesValid .noCodes op

/-- One symbol of the input through the code table (spec R180, R181). -/
def encodeSymbol : Run Unit := do
  let s ← readWord8
  let n ← view (fun t => t.codeLenOf s)
  let bits ← view (fun t => t.codeBitsOf s)
  if n = 0 then raise .noCode (s.setWidth 32) else writeBits bits n.toNat

/-- `EncodeBody`: `LEN` symbols (spec R180). -/
def encodeBody : Run Unit := do
  let l ← view State.len
  repeatRun l.toNat encodeSymbol

/-- ENCSYMS (spec R180). -/
def execEncsyms (s : State) : Result :=
  runCommand (do requireCodes 0x30; encodeBody) s

/-! ### DECSYMS -/

/-- The walk from node `i` down to a leaf, whose symbol it answers (spec R195, R196). Each turn consumes one input bit, so
with `f` at least the number of bits left the walk never runs out of turns: `ReadBit` fails first. -/
def walk : Nat → NodeIdx → Run Byte
  | 0, i => do
    let n ← loadNode i
    if n.leaf then pure n.sym
    else do
      let _ ← readBit
      halt .endlessTraversal
  | f + 1, i => do
    let n ← loadNode i
    if n.leaf then pure n.sym
    else do
      let b ← readBit
      walk f (if b then n.right else n.left)

/-- The number of input bits left (spec R75). -/
def State.bitsLeft (s : State) : Nat := 8 * s.inLen.toNat - s.ibitpos.toNat

/-- One decoded symbol: one walk from ROOT, then the symbol to the output (spec R195, R196). -/
def decodeSymbol : Run Unit := do
  let f ← view State.bitsLeft
  let r ← view State.root
  let s ← walk f r
  writeWord8 s

/-- `DecodeBody` (spec R195, R198). -/
def decodeBody : Run Unit := do
  let st ← view State.treeState
  let l ← view State.len
  if st = .empty then
    if l = 0 then pure () else raise .badEmptyLen l
  else repeatRun l.toNat decodeSymbol

/-- DECSYMS (spec R195). -/
def execDecsyms (s : State) : Result :=
  runCommand (do requireTree 0x31; decodeBody) s

/-! ### FLUSH -/

/-- FLUSH (spec R182). -/
def execFlush (s : State) : Result := runCommand padToByte s

end Sys2Proof.Machine
end

