-- ==== Sys2Proof/Machine/WholeFile.lean ====
section
/-! DEFINITION. The whole-file family: ENCODE and DECODE (spec R184, R197). -/

namespace Sys2Proof.Machine

/-- ENCODE's pseudocode (spec R184). -/
def encodeFileBody : Run Unit := do
  requireTree 0x40
  requireCodes 0x40
  serializeBody
  putlenBody
  encodeBody
  padToByte

/-- ENCODE (spec R184). -/
def execEncode (s : State) : Result := runCommand encodeFileBody s

/-- DECODE's pseudocode (spec R197). -/
def decodeFileBody : Run Unit := do
  deserializeBody
  getlenBody
  decodeBody
  padToByte

/-- DECODE (spec R197). -/
def execDecode (s : State) : Result := runCommand decodeFileBody s

end Sys2Proof.Machine
end

