-- ==== Sys2Proof/Machine/Dispatch.lean ====
section
/-! DEFINITION. The dispatch: one arm per command (spec R102, R250). -/

namespace Sys2Proof.Machine

def exec (i : Instr) (s : State) : Host.Outcome State Fault Refusal :=
  match i with
  | .nop => Sys2Proof.Machine.execNop s
  | .clear => Sys2Proof.Machine.execClear s
  | .rstio => Sys2Proof.Machine.execRstio s
  | .build => Sys2Proof.Machine.execBuild s
  | .gencodes => Sys2Proof.Machine.execGencodes s
  | .serialize => Sys2Proof.Machine.execSerialize s
  | .deserialize => Sys2Proof.Machine.execDeserialize s
  | .putlen => Sys2Proof.Machine.execPutlen s
  | .getlen => Sys2Proof.Machine.execGetlen s
  | .encsyms => Sys2Proof.Machine.execEncsyms s
  | .decsyms => Sys2Proof.Machine.execDecsyms s
  | .flush => Sys2Proof.Machine.execFlush s
  | .encode => Sys2Proof.Machine.execEncode s
  | .decode => Sys2Proof.Machine.execDecode s

end Sys2Proof.Machine
end

