-- ==== Sys2Proof/Machine/HostPort.lean ====
section
/-! DEFINITION. The host port and the reset event: the register map, the two windows, the buffer data ports, refused accesses and the busy rule (spec 10_state.md, 20_memory.md R85 to R87, R240, R241). -/

namespace Sys2Proof.Machine

/-- The registers of the host port (spec R23). -/
inductive Reg where
  | cmd | status | len | inLen | ibitpos | obitpos | outLen | oacc | root | nodeCount | errInfo | irqEn | id
  | ibufSize | obufSize | nodeSel | nodeInfo | nodeLink | nodeWeight | symSel | symClen
  | symCode (k : Fin 8)
  | ibufAddr | ibufData | obufAddr | obufData
  | freq (sym : Byte)
  deriving DecidableEq, Repr

/-- The registers that stand alone, with their offsets (spec R23). -/
def regMap : List (Nat × Reg) :=
  [(0x000, .cmd), (0x004, .status), (0x008, .len), (0x00C, .inLen), (0x010, .ibitpos), (0x014, .obitpos),
   (0x018, .outLen), (0x01C, .oacc), (0x020, .root), (0x024, .nodeCount), (0x028, .errInfo), (0x02C, .irqEn),
   (0x030, .id), (0x034, .ibufSize), (0x038, .obufSize), (0x040, .nodeSel), (0x044, .nodeInfo), (0x048, .nodeLink),
   (0x04C, .nodeWeight), (0x050, .symSel), (0x054, .symClen), (0x080, .ibufAddr), (0x084, .ibufData),
   (0x088, .obufAddr), (0x08C, .obufData)]

/-- The register a table gives an offset. -/
def lookupReg : List (Nat × Reg) → Nat → Option Reg
  | [], _ => none
  | (o, r) :: rows, off => if o = off then some r else lookupReg rows off

/-- The register at an offset; none where the offset is unmapped (spec R23, R51). -/
def Reg.ofOffset (off : Offset) : Option Reg :=
  let o := off.toNat
  if 0x400 ≤ o then
    if o % 4 = 0 then some (.freq (BitVec.ofNat 8 ((o - 0x400) / 4))) else none
  else if h : 0x060 ≤ o ∧ o < 0x080 then
    if o % 4 = 0 then some (.symCode ⟨(o - 0x060) / 4, by omega⟩) else none
  else lookupReg regMap o

/-- A whole aligned 32-bit access (spec R85, R86). -/
def wholeAligned (off : Offset) (size : AccessSize) : Bool := decide (size = .word) && decide (off.toNat % 4 = 0)

/-- The registers whose reads are exact while `BUSY` = 1 (spec R87). -/
def Reg.exactWhileBusy : Reg → Bool
  | .status => true
  | .id => true
  | .ibufSize => true
  | .obufSize => true
  | .irqEn => true
  | .cmd => true
  | _ => false

/-- The read-write registers whose writes are discarded while `BUSY` = 1, with BUS_ERR (spec R87). -/
def Reg.guardedWhileBusy : Reg → Bool
  | .len => true
  | .inLen => true
  | .ibitpos => true
  | .nodeSel => true
  | .symSel => true
  | .ibufAddr => true
  | .ibufData => true
  | .obufAddr => true
  | .freq _ => true
  | _ => false

/-! ### The windows -/

/-- The selected arena entry, where it is in use (spec R37). -/
def State.windowNode (s : State) : Option Node := s.node? s.nodeSel

/-- NODE_INFO of an entry: `leaf` in bit 8, `sym` in bits 7:0 (spec R37). -/
def nodeInfoWord (n : Node) : Word := 0#23 ++ flagBit n.leaf ++ n.sym

/-- NODE_LINK of an entry: `right` in bits 24:16, `left` in bits 8:0 (spec R37). -/
def nodeLinkWord (n : Node) : Word := 0#7 ++ n.right ++ 0#7 ++ n.left

/-- What a node window register reads: 0 where the entry is not in use (spec R37). -/
def State.nodeWindow (s : State) (f : Node → Word) : Word :=
  match s.windowNode with
  | some n => f n
  | none => 0

/-- SYM_CLEN (spec R38). -/
def State.symClenWord (s : State) : Word := if s.codesValid then (s.codeLenOf s.symSel).setWidth 32 else 0

/-- SYM_CODEk: bits `32k+31 : 32k` of the selected code (spec R38). -/
def State.symCodeWord (s : State) (k : Fin 8) : Word :=
  if s.codesValid then (s.codeBitsOf s.symSel).extractLsb' (32 * k.val) 32 else 0

/-! ### The buffer data ports -/

/-- A host read of IBUF_DATA (spec R41). -/
def State.readIbufData (s : State) : Word × State :=
  if s.ibufAddr.toNat < s.ibufBytes then
    let p := s.fetchByte s.ibuf s.ibufAddr.toNat
    (p.1.setWidth 32, { p.2 with ibufAddr := s.ibufAddr + 1 })
  else (0, s.setBusErr)

/-- A host write to IBUF_DATA (spec R41). -/
def State.writeIbufData (s : State) (v : Word) : State :=
  if s.ibufAddr.toNat < s.ibufBytes then
    { s with ibuf := memWrite s.ibuf s.ibufAddr.toNat (v.setWidth 8), ibufAddr := s.ibufAddr + 1 }
  else s.setBusErr

/-- A host read of OBUF_DATA (spec R42). -/
def State.readObufData (s : State) : Word × State :=
  if s.obufAddr.toNat < s.obufBytes then
    let p := s.fetchByte s.obuf s.obufAddr.toNat
    (p.1.setWidth 32, { p.2 with obufAddr := s.obufAddr + 1 })
  else (0, s.setBusErr)

/-! ### Register reads and writes -/

/-- What a read of a register returns, and the state after it (spec R24 to R44). Only the two data ports have a side effect (spec R89). -/
def State.readReg (s : State) : Reg → Word × State
  | .cmd => (0, s)
  | .status => (s.statusWord, s)
  | .len => (s.len, s)
  | .inLen => (s.inLen, s)
  | .ibitpos => (s.ibitpos, s)
  | .obitpos => (s.obitpos, s)
  | .outLen => (BitVec.ofNat 32 (s.obitpos.toNat / 8), s)
  | .oacc => (s.oacc.setWidth 32, s)
  | .root => (s.root.setWidth 32, s)
  | .nodeCount => (BitVec.ofNat 32 s.nodeCount, s)
  | .errInfo => (s.errInfo, s)
  | .irqEn => (s.irqEnWord, s)
  | .id => (Config.idValue, s)
  | .ibufSize => (BitVec.ofNat 32 s.ibufBytes, s)
  | .obufSize => (BitVec.ofNat 32 s.obufBytes, s)
  | .nodeSel => (s.nodeSel.setWidth 32, s)
  | .nodeInfo => (s.nodeWindow nodeInfoWord, s)
  | .nodeLink => (s.nodeWindow nodeLinkWord, s)
  | .nodeWeight => (s.nodeWindow Node.weight, s)
  | .symSel => (s.symSel.setWidth 32, s)
  | .symClen => (s.symClenWord, s)
  | .symCode k => (s.symCodeWord k, s)
  | .ibufAddr => (s.ibufAddr, s)
  | .ibufData => s.readIbufData
  | .obufAddr => (s.obufAddr, s)
  | .obufData => s.readObufData
  | .freq sym => (s.freqOf sym, s)

/-- A host write of IN_LEN stores `min(v, IBUF_BYTES)` (spec R28). -/
def State.writeInLen (s : State) (v : Word) : State := { s with inLen := BitVec.ofNat 32 (min v.toNat s.ibufBytes) }

/-- What a write of a register does (spec R24 to R42); a write to a read-only register is ignored (spec R52). -/
def State.writeReg (s : State) (v : Word) : Reg → State
  | .cmd => s.issue v
  | .status => s.writeStatus v
  | .len => { s with len := v }
  | .inLen => s.writeInLen v
  | .ibitpos => { s with ibitpos := v }
  | .obitpos => s
  | .outLen => s
  | .oacc => s
  | .root => s
  | .nodeCount => s
  | .errInfo => s
  | .irqEn => s.writeIrqEn v
  | .id => s
  | .ibufSize => s
  | .obufSize => s
  | .nodeSel => { s with nodeSel := v.setWidth 9 }
  | .nodeInfo => s
  | .nodeLink => s
  | .nodeWeight => s
  | .symSel => { s with symSel := v.setWidth 8 }
  | .symClen => s
  | .symCode _ => s
  | .ibufAddr => { s with ibufAddr := v }
  | .ibufData => s.writeIbufData v
  | .obufAddr => { s with obufAddr := v }
  | .obufData => s
  | .freq sym => s.setFreq sym v

/-- A host read: the value returned and the state after it (spec R51, R85 to R87). -/
def State.hostRead (s : State) (off : Offset) (size : AccessSize) : Word × State :=
  if wholeAligned off size then
    match Reg.ofOffset off with
    | none => (0, s)
    | some r =>
      if s.busy && !r.exactWhileBusy then (Config.freeWord s.draws, { s with draws := s.draws + 1 })
      else s.readReg r
  else (0, s.setBusErr)

/-- A host write (spec R51, R52, R85 to R87). -/
def State.hostWrite (s : State) (off : Offset) (size : AccessSize) (v : Word) : State :=
  if wholeAligned off size then
    match Reg.ofOffset off with
    | none => s
    | some r => if s.busy && r.guardedWhileBusy then s.setBusErr else s.writeReg v r
  else s.setBusErr

/-! ### Reset -/

/-- What OBUF holds after a reset: while BUSY, the bytes from `OBITPOS div 8` on lose their values (spec R50, R241). -/
def State.obufAfterReset (s : State) : List Host.Cell :=
  if s.busy then memDropFrom s.obuf (s.obitpos.toNat / 8) else s.obuf

/-- The reset event (spec R240, R241): every register at its reset value; IBUF and OBUF are not written. The buffer sizes
are constants, and the events still to come are not the block's state. -/
def State.resetEvent (s : State) : State :=
  { State.reset with
    ibuf := s.ibuf
    obuf := s.obufAfterReset
    ibufBytes := s.ibufBytes
    obufBytes := s.obufBytes
    draws := s.draws
    agenda := s.agenda
    rdata := s.rdata }

end Sys2Proof.Machine
end

