-- ==== Sys2Proof/Machine/Sequencer.lean ====
section
/-! DEFINITION. What happens next: the core's step on the word in PEND, and the events of the host and the platform (spec R92, R249 to R251). -/

namespace Sys2Proof.Machine

/-- The core step (spec R250): enabled exactly when PEND holds a word; with PEND empty the core waits (spec R251). -/
def coreStep (s : State) : Result :=
  match s.pend with
  | none => .next s
  | some w =>
    match decodeWord w with
    | .ok i => exec i s
    | .error _ => execIllegal w s

/-- One event (spec R249). -/
def runEvent (e : Event) (s : State) : Result :=
  match e with
  | .read off size => .next { (s.hostRead off size).2 with rdata := (s.hostRead off size).1 }
  | .write off size v => .next (s.hostWrite off size v)
  | .reset => .next s.resetEvent
  | .core => coreStep s

/-- The next event of the run: the first of `agenda`, and when nothing is left there, the core's own step (spec R249, R258). -/
def advance (s : State) : Result :=
  match s.agenda with
  | [] => coreStep s
  | e :: rest => runEvent e { s with agenda := rest }

/-- A command word placed where the core takes its next command, with the core's step next: the acceptance of spec R225. -/
def State.placeWord (s : State) (w : Word) : State := { s.accept w with agenda := .core :: s.agenda }

end Sys2Proof.Machine
end

