-- ==== Sys2Proof/Machine/Step.lean ====
section
/-! DEFINITION. One step of the machine, and the placing of a command word for the next step (log entry 6). -/

namespace Sys2Proof.Machine

/-- One event of a run (spec R92, R249). -/
def step (s : State) : Host.Outcome State Fault Refusal := advance s

/-- `s` with the table word `w` accepted into PEND, so that the next step runs it (log entry 6). -/
def State.withFetchWord (s : State) (nbits w : Nat) : State := s.placeWord (tableWord nbits w)

end Sys2Proof.Machine
end

