-- ==== Sys2Proof/Machine/HostScript.lean ====
section
/-! DEFINITION. Host programs: the lines of the spec's script and its pseudo-instructions as lists of events (spec R118, R119). A `WAIT` polls STATUS a number of times the host does not know beforehand; here one core step and one poll stand for it (log entry 14). -/

namespace Sys2Proof.Machine.Script

/-- `WR <reg>, <value>` at the register's offset (spec R118). -/
def wr (off : Offset) (v : Word) : List Event := [.write off .word v]

/-- `RD <reg>` (spec R118). -/
def rd (off : Offset) : List Event := [.read off .word]

/-- `WAIT`: the core's step, then the read of STATUS that sees `BUSY` = 0 (spec R119). -/
def wait : List Event := [.core] ++ rd 0x004

/-- `ISSUE <mnemonic>` (spec R119). -/
def issue (i : Instr) : List Event := wr 0x000 (encode i)

/-- `<mnemonic>` alone (spec R119). -/
def command (i : Instr) : List Event := issue i ++ wait

/-- The offset of `FREQ[sym]` (spec R30). -/
def freqOffset (sym : Byte) : Offset := BitVec.ofNat 11 (0x400 + 4 * sym.toNat)

/-- `SETFREQ s, n` (spec R119). -/
def setFreq (sym : Byte) (n : Word) : List Event := wr (freqOffset sym) n

/-- `HOSTFREQ b_0, ..., b_{k-1}`: the counts of the distinct values, ascending (spec R119, R246). -/
def hostFreq (bs : List Byte) : List Event :=
  (allSymbols.filter (fun sym => decide (sym ∈ bs))).flatMap (fun sym => setFreq sym (BitVec.ofNat 32 (bs.count sym)))

/-- `LOADIN b_0, ..., b_{k-1}` (spec R119). -/
def loadIn (bs : List Byte) : List Event :=
  wr 0x080 0 ++ bs.flatMap (fun b => wr 0x084 (b.setWidth 32)) ++ wr 0x00C (BitVec.ofNat 32 bs.length)

/-- `READOUT n` (spec R119). -/
def readOut (n : Nat) : List Event := wr 0x088 0 ++ (List.replicate n (rd 0x08C)).flatten

/-- `COPYOUT`, for a host that reads back the bytes `bs` from OBUF (spec R119). -/
def copyOut (bs : List Byte) : List Event :=
  rd 0x018 ++ wr 0x088 0 ++ wr 0x080 0 ++ bs.flatMap (fun b => rd 0x08C ++ wr 0x084 (b.setWidth 32))
    ++ wr 0x00C (BitVec.ofNat 32 bs.length)

/-- `COMPRESS` (spec R119). -/
def compress : List Event := command .build ++ command .gencodes ++ command .encode

/-- `DECOMPRESS` (spec R119). -/
def decompress : List Event := command .decode

end Sys2Proof.Machine.Script
end

