-- ==== Sys2Proof/Safety.lean ====
section
/-! DEFINITION. The terms of the claims: bit strings, trees and codes as data (spec R9, R110 to R117), what a state's input, output, tree and code table hold, and the invariant of every reachable state. -/

namespace Sys2Proof.Machine

/-! ### Bit strings -/

/-- `bits_n(v)`, most significant bit first (spec R9). -/
def bitsOf {w : Nat} (v : BitVec w) (n : Nat) : List Bool := (List.range n).map (fun j => v.getLsbD (n - 1 - j))

/-- `num(a)`, the number a bit string stands for, most significant bit first (spec R9). -/
def numOf (bits : List Bool) : Nat := bits.foldl (fun a b => 2 * a + b.toNat) 0

/-- The bit string of a sequence of symbols, 8 bits each (spec R84). -/
def symbolBits (syms : List Byte) : List Bool := syms.flatMap (fun sym => bitsOf sym 8)

/-- The empty-tree marker `1 00000000` (spec R112). -/
def markerBits : List Bool := true :: List.replicate 8 false

/-- The two writes of the empty-tree marker: the leaf bit and the symbol 0x00 (spec R160, R162). -/
def markerItems : List (List Bool) := [[true], List.replicate 8 false]

/-- The zero bits that complete a byte after bit position `q` (spec R83, R115). -/
def padBits (q : Nat) : List Bool := List.replicate ((8 - q % 8) % 8) false

/-! ### Trees -/

/-- A full binary tree with a symbol on each leaf (spec R14, R15). -/
inductive CodeTree where
  | leaf (sym : Byte)
  | node (l r : CodeTree)
  deriving DecidableEq, Repr

/-- The serialized tree: pre-order, one bit a node, 8 bits more a leaf (spec R111). -/
def CodeTree.preorder : CodeTree → List Bool
  | .leaf sym => true :: bitsOf sym 8
  | .node l r => false :: (l.preorder ++ r.preorder)

/-- The nodes in pre-order: a leaf with its symbol, an internal node without (spec R111, R164). -/
def CodeTree.nodes : CodeTree → List (Option Byte)
  | .leaf sym => [some sym]
  | .node l r => none :: (l.nodes ++ r.nodes)

/-- The bits of one node of a serialized tree (spec R111). -/
def nodeBits : Option Byte → List Bool
  | none => [false]
  | some sym => true :: bitsOf sym 8

/-- What the serializer writes of one node, one write each: the node bit, and after a leaf's the whole symbol (spec R161). -/
def nodeItems : Option Byte → List (List Bool)
  | none => [[false]]
  | some sym => [[true], bitsOf sym 8]

/-- What the serializer writes of a tree, one write each, in order (spec R161). -/
def CodeTree.items (t : CodeTree) : List (List Bool) := t.nodes.flatMap nodeItems

/-- The symbols of the leaves among some nodes. -/
def leafSymbols (ns : List (Option Byte)) : List Byte := ns.filterMap id

/-- The symbols of the leaves, left to right. -/
def CodeTree.leaves : CodeTree → List Byte
  | .leaf sym => [sym]
  | .node l r => l.leaves ++ r.leaves

/-- The number of nodes. -/
def CodeTree.size : CodeTree → Nat
  | .leaf _ => 1
  | .node l r => l.size + r.size + 1

/-- The codes: for each leaf its path from the root, 0 to the left and 1 to the right (spec R150). -/
def CodeTree.codes : CodeTree → List (Byte × List Bool)
  | .leaf sym => [(sym, [])]
  | .node l r => l.codes.map (fun p => (p.1, false :: p.2)) ++ r.codes.map (fun p => (p.1, true :: p.2))

/-- The arena entries of a loaded tree whose root has index `i`, in pre-order (spec R164). -/
def CodeTree.layout : CodeTree → Nat → List Node
  | .leaf sym, _ => [leafNode sym Config.wUnknown]
  | .node l r, i =>
    internalNode Config.wUnknown (BitVec.ofNat 9 (i + 1)) (BitVec.ofNat 9 (i + 1 + l.size))
      :: (l.layout (i + 1) ++ r.layout (i + 1 + l.size))

/-- The tree below entry `i` of an arena, with at most `f` nodes nested; none where a link names no entry. -/
def treeAt (arena : List Node) : Nat → NodeIdx → Option CodeTree
  | 0, _ => none
  | f + 1, i =>
    match arena[i.toNat]? with
    | none => none
    | some n =>
      if n.leaf then some (.leaf n.sym)
      else
        match treeAt arena f n.left, treeAt arena f n.right with
        | some l, some r => some (.node l r)
        | _, _ => none

/-- The current tree (spec R33): what ROOT names. -/
def State.tree? (s : State) : Option CodeTree := treeAt s.arena Config.maxNodes s.root

/-! ### What a state's input and output hold -/

/-- Bit `p` of the input bit string, where its byte holds a value (spec R74). -/
def State.inputBit? (s : State) (p : Nat) : Option Bool := (memLookup s.ibuf (p / 8)).map (fun v => bitOfByte v p)

/-- The input holds `bits` from the cursor on, before its end, in bytes that hold a value (spec R74, R75). -/
abbrev State.hasInput (s : State) (bits : List Bool) : Prop :=
  s.ibitpos.toNat + bits.length ≤ 8 * s.inLen.toNat ∧
    ∀ j < bits.length, s.inputBit? (s.ibitpos.toNat + j) = bits[j]?

/-- IN_LEN lies within IBUF, and IBUF within its bound: part of `State.Inv`, which rules the other states out (spec R6, R28). -/
abbrev State.inputInBuffer (s : State) : Prop := s.inLen.toNat ≤ s.ibufBytes ∧ s.ibufBytes ≤ Config.maxBufBytes

/-- The input cursor moved on by `n` bits. -/
def State.consume (s : State) (n : Nat) : State := { s with ibitpos := BitVec.ofNat 32 (s.ibitpos.toNat + n) }

/-- The output after `bits` more were produced (spec R79, R80). -/
def State.emit (s : State) (bits : List Bool) : State := bits.foldl State.emitBit s

/-- Bit `p` of the output: in OACC for the byte that is not complete, in OBUF below it (spec R79). -/
def State.outputBit? (s : State) (p : Nat) : Option Bool :=
  if p / 8 = s.obitpos.toNat / 8 then some (bitOfByte s.oacc p)
  else (memLookup s.obuf (p / 8)).map (fun v => bitOfByte v p)

/-- The code of a symbol as a bit string (spec R35). -/
def State.codeOf (s : State) (sym : Byte) : List Bool := bitsOf (s.codeBitsOf sym) (s.codeLenOf sym).toNat

/-- The code bitstream `C` of a sequence of symbols (spec R114). -/
def State.codeBitsFor (s : State) (syms : List Byte) : List Bool := syms.flatMap s.codeOf

/-- The serialized form of the current tree, or the marker (spec R111, R112). -/
def State.treeBits (s : State) : List Bool :=
  if s.treeState = .empty then markerBits
  else
    match s.tree? with
    | some t => t.preorder
    | none => []

/-- The compressed file of a sequence of symbols without its pad: `T ++ bits_32(L) ++ C` (spec R110). -/
def State.fileBits (s : State) (syms : List Byte) : List Bool :=
  s.treeBits ++ bitsOf s.len 32 ++ s.codeBitsFor syms

/-! ### The greedy merge -/

/-- The key order of the priority collection on arena entries (spec R143). -/
def keyBefore (arena : List Node) (i j : Nat) : Prop :=
  ∃ a b, arena[i]? = some a ∧ arena[j]? = some b ∧
    (a.weight.toNat < b.weight.toNat ∨ (a.weight = b.weight ∧ i < j))

/-- Entry `i` is in PQ when entry `z` is made: it was allocated before, and no internal node made before `z` has it as a
child (spec R144); `m` is the number of leaves. -/
def waiting (arena : List Node) (m z i : Nat) : Prop :=
  i < z ∧ ∀ k n, m ≤ k → k < z → arena[k]? = some n → n.left.toNat ≠ i ∧ n.right.toNat ≠ i

/-- Entry `z` merges the two smallest keys: `left` is the smallest, `right` the next, its weight their sum (spec R143, R144). -/
def mergesSmallest (arena : List Node) (m z : Nat) : Prop :=
  ∃ n x y, arena[z]? = some n ∧ arena[n.left.toNat]? = some x ∧ arena[n.right.toNat]? = some y ∧
    n.leaf = false ∧ n.sym = 0 ∧ n.weight.toNat = x.weight.toNat + y.weight.toNat ∧
    waiting arena m z n.left.toNat ∧ waiting arena m z n.right.toNat ∧
    keyBefore arena n.left.toNat n.right.toNat ∧
    ∀ i, waiting arena m z i → i ≠ n.left.toNat → i ≠ n.right.toNat → keyBefore arena n.right.toNat i

/-- The number of leaves of the tree BUILD makes: `m = max(n, 2)` (spec R147). -/
def State.builtLeaves (s : State) : Nat := max s.presentSymbols.length 2

/-! ### The invariant of every reachable state -/

/-- The buffer sizes lie in their range (spec R6). -/
abbrev State.SizesInv (s : State) : Prop :=
  1 ≤ s.ibufBytes ∧ s.ibufBytes ≤ Config.maxBufBytes ∧ 1 ≤ s.obufBytes ∧ s.obufBytes ≤ Config.maxBufBytes

/-- Both buffers are in canonical form and list only bytes that exist (spec R70). -/
abbrev State.MemoryInv (s : State) : Prop :=
  Memory.wf s.ibuf = true ∧ Memory.wf s.obuf = true ∧
    (∀ c ∈ s.ibuf, c.1 < s.ibufBytes) ∧ (∀ c ∈ s.obuf, c.1 < s.obufBytes)

/-- `IN_LEN` and `OBITPOS` stay within their buffers, OACC holds zeros below its pending bits, and every complete output
byte was written (spec R28, R31, R79). -/
abbrev State.CursorInv (s : State) : Prop :=
  s.inLen.toNat ≤ s.ibufBytes ∧ s.obitpos.toNat ≤ 8 * s.obufBytes ∧
    (∀ i < 8 - s.obitpos.toNat % 8, s.oacc.getLsbD i = false) ∧
    (∀ a < s.obitpos.toNat / 8, (memLookup s.obuf a).isSome = true)

/-- The flags agree with each other: while BUSY, DONE is 0 and LASTOP is the pending word's opcode (spec R225); without
ERR there is no code and no detail, with ERR a code of spec R210 (spec R25, R39); in the error state only NOP or CLEAR can
be pending (spec R226). -/
abbrev State.FlagsInv (s : State) : Prop :=
  (∀ w ∈ s.pend, s.done = false ∧ s.lastOp = w.extractLsb' 0 8 ∧ (s.err = true → acceptedInError w = true)) ∧
    (s.err = false → s.errCode = 0 ∧ s.errInfo = 0) ∧ (s.err = true → 1 ≤ s.errCode.toNat ∧ s.errCode.toNat ≤ 0x0B)

/-- The arena fits its 511 entries, leaves have `NIL` links and internal nodes the symbol 0x00 (spec R32). -/
abbrev State.ArenaInv (s : State) : Prop :=
  s.arena.length ≤ Config.maxNodes ∧
    ∀ n ∈ s.arena, (n.leaf = true → n.left = Config.nil ∧ n.right = Config.nil) ∧ (n.leaf = false → n.sym = 0)

/-- An entry's weight is the sum of its children's (spec R148). -/
abbrev weightIsSum (arena : List Node) (n : Node) : Prop :=
  n.leaf = false →
    match arena[n.left.toNat]?, arena[n.right.toNat]? with
    | some x, some y => n.weight.toNat = x.weight.toNat + y.weight.toNat
    | _, _ => False

/-- ROOT names a full tree with an internal root that uses every arena entry once, no symbol on two leaves
(spec R15, R111, R142, R164). -/
abbrev State.TreeShapeInv (s : State) : Prop :=
  match s.tree? with
  | some (.node l r) => (CodeTree.node l r).leaves.Nodup ∧ (CodeTree.node l r).size = s.arena.length
  | _ => False

/-- What the arena holds in each TREE_STATE (spec R26, R33, R145, R148). -/
abbrev State.TreeInv (s : State) : Prop :=
  match s.treeState with
  | .invalid => s.root = Config.nil
  | .empty => s.arena = [] ∧ s.root = Config.nil
  | .built => s.TreeShapeInv ∧ s.root.toNat + 1 = s.arena.length ∧
      ∀ n ∈ s.arena, n.weight.toNat ≤ Config.wMax ∧ weightIsSum s.arena n
  | .loaded => s.TreeShapeInv ∧ s.root = 0 ∧ ∀ n ∈ s.arena, n.weight = Config.wUnknown

/-- While CODES_VALID, the code table holds exactly the codes of the current tree, and no bit is set at or above a code's
length (spec R35, R36, R151). -/
abbrev State.CodesInv (s : State) : Prop :=
  s.codesValid = true →
    match s.treeState with
    | .invalid => False
    | .empty => ∀ sym : Byte, s.codeLenOf sym = 0 ∧ s.codeBitsOf sym = 0
    | _ =>
      match s.tree? with
      | some t => (∀ p ∈ t.codes, s.codeOf p.1 = p.2 ∧ (s.codeBitsOf p.1).toNat = numOf p.2) ∧
          ∀ sym : Byte, sym ∉ t.leaves → s.codeLenOf sym = 0 ∧ s.codeBitsOf sym = 0
      | none => False

/-- The invariant of every reachable state. -/
structure State.Inv (s : State) : Prop where
  sizes : s.SizesInv
  memory : s.MemoryInv
  cursor : s.CursorInv
  flags : s.FlagsInv
  arena : s.ArenaInv
  tree : s.TreeInv
  codes : s.CodesInv

/-- The arena holds a tree a command can walk: BUILT or LOADED (spec R26). -/
abbrev State.hasTree (s : State) : Prop := s.treeState = .built ∨ s.treeState = .loaded

/-- The next event is the core's step: it stands first in `agenda`, or `agenda` is empty (log entry 4). -/
abbrev State.coreNext (s : State) : Prop := s.agenda = [] ∨ s.agenda.head? = some .core

/-- The state as the core's step finds it: the core's own event has left `agenda`. -/
def State.popEvent (s : State) : State := { s with agenda := s.agenda.tail }

/-! ### What a command may raise and where it may store -/

/-- The errors a command can raise: the column "raised by" of spec R210. -/
def raisesOf : Instr → List Err
  | .nop => []
  | .clear => []
  | .rstio => []
  | .build => [.weightOvf]
  | .gencodes => [.noTree]
  | .serialize => [.noTree, .outFull]
  | .deserialize => [.inExhausted, .badMarker, .dupSymbol, .treeTooBig]
  | .putlen => [.outFull]
  | .getlen => [.inExhausted]
  | .encsyms => [.noCodes, .noCode, .inExhausted, .outFull]
  | .decsyms => [.noTree, .inExhausted, .outFull, .badEmptyLen]
  | .flush => []
  | .encode => [.noTree, .noCodes, .noCode, .inExhausted, .outFull]
  | .decode => [.inExhausted, .outFull, .badMarker, .dupSymbol, .treeTooBig, .badEmptyLen]

/-- What a DESERIALIZE leaves that raised after reading `n` bits, with the nodes allocated so far (spec R166). -/
def State.failedRead (s : State) (n : Nat) (nodes : List Node) (code : Byte) (info : Word) : State :=
  { s.consume n with
    arena := nodes, root := Config.nil, treeState := .invalid, codesValid := false,
    err := true, errCode := code, errInfo := info, pend := none, done := true }

/-- One command after another: the second runs where the first ended without an error (spec R184, R197). -/
def thenExec (i : Instr) (r : Result) : Result :=
  match r with
  | .next t => if t.err then .next t else exec i t
  | .fault f => .fault f
  | .refused e => .refused e

/-- From `s` to `t`, no byte of OBUF changed but those the output cursor completed on its way (spec R79, R80). -/
def storesOnlyOutput (s t : State) : Prop :=
  ∀ a, a < s.obitpos.toNat / 8 ∨ t.obitpos.toNat / 8 ≤ a → memLookup t.obuf a = memLookup s.obuf a

/-! ### Launch and end of a run -/

/-- `AfterReset` (spec R257), for any buffer sizes. -/
def State.AfterReset (s : State) : Prop :=
  s = { State.reset with
    ibufBytes := s.ibufBytes, obufBytes := s.obufBytes, draws := s.draws, agenda := s.agenda, rdata := s.rdata }

/-- `Clean` (spec R257). -/
def State.Clean (s : State) : Prop :=
  s.pend = none ∧ s.err = false ∧ s.cmdOvr = false ∧ s.cmdRej = false ∧ s.busErr = false ∧
    ∀ a < s.inLen.toNat, (memLookup s.ibuf a).isSome = true

/-- A run of a host program is over: nothing is left to happen and PEND is empty (spec R256). -/
def State.runOver (s : State) : Prop := s.agenda = [] ∧ s.pend = none

/-- A run that ended faulted (spec R256). -/
def State.faultedRun (s : State) : Prop := s.runOver ∧ s.err = true

end Sys2Proof.Machine
end

