-- ==== Sys2Proof/Certificates/Slice0/Obligations.lean ====
section
/-! DEFINITION. The statements for the provers, from the numbered rules of spec/. -/

open Sys2Proof Sys2Proof.Machine

/-! ### Decoding and stepping -/

/-- Spec R102: the word of each row of the opcode map decodes to its command. -/
def Obligations.CommandWordsDecode : Prop :=
  decodeWord 0x00000000 = .ok .nop ∧ decodeWord 0x00000001 = .ok .clear ∧ decodeWord 0x00000002 = .ok .rstio ∧
  decodeWord 0x00000010 = .ok .build ∧ decodeWord 0x00000011 = .ok .gencodes ∧
  decodeWord 0x00000020 = .ok .serialize ∧ decodeWord 0x00000021 = .ok .deserialize ∧
  decodeWord 0x00000022 = .ok .putlen ∧ decodeWord 0x00000023 = .ok .getlen ∧
  decodeWord 0x00000030 = .ok .encsyms ∧ decodeWord 0x00000031 = .ok .decsyms ∧ decodeWord 0x00000032 = .ok .flush ∧
  decodeWord 0x00000040 = .ok .encode ∧ decodeWord 0x00000041 = .ok .decode

/-- Spec R100, R102: encoding and decoding agree, and each command has one word. -/
def Obligations.EncodingRoundTrip : Prop :=
  (∀ i : Instr, i.wellFormed = true → decodeWord (encode i) = .ok i) ∧
  ∀ (w : Word) (i : Instr), decodeWord w = .ok i → w = encode i

/-- Spec R103: a word is a command exactly when RSVD is 0 and OP lies in none of the listed ranges of illegal opcodes. -/
def Obligations.IllegalWordsAreExactlyListed : Prop :=
  ∀ w : Word,
    (CommandWord.wellFormed w = true → ∃ i, decodeWord w = .ok i) ∧
    (CommandWord.rsvdZero w = false → decodeWord w = .error .reservedBits) ∧
    (CommandWord.rsvdZero w = true → CommandWord.opAssigned w = false → decodeWord w = .error .unassignedOpcode)

/-- Spec R250: where the core's step is next and PEND holds a word that decodes, the step is the command's execution. -/
def Obligations.StepRunsDecodedCommand : Prop :=
  ∀ (s : State) (w : Word) (i : Instr), s.coreNext → s.pend = some w → decodeWord w = .ok i →
    step s = exec i s.popEvent

/-- Spec R133: a word that is no command raises ILLEGAL_CMD with the word as detail; nothing else changes. -/
def Obligations.IllegalWordRaisesIllegalCmd : Prop :=
  ∀ (s : State) (w : Word) (r : Reject), s.coreNext → s.pend = some w → decodeWord w = .error r →
    step s = .next { s.popEvent with err := true, errCode := 0x01, errInfo := w, pend := none, done := true }

/-- Spec R251: with PEND empty the core waits; a host access or a reset that is next takes its effect (spec R249; the order
of events is the field `agenda`, log entry 4). -/
def Obligations.EventsTakeEffect : Prop :=
  (∀ s : State, s.coreNext → s.pend = none → step s = .next s.popEvent) ∧
  (∀ (s : State) (off : Offset) (size : AccessSize) (rest : List Event), s.agenda = .read off size :: rest →
    step s = .next { (s.popEvent.hostRead off size).2 with rdata := (s.popEvent.hostRead off size).1 }) ∧
  (∀ (s : State) (off : Offset) (size : AccessSize) (v : Word) (rest : List Event),
    s.agenda = .write off size v :: rest → step s = .next (s.popEvent.hostWrite off size v)) ∧
  (∀ (s : State) (rest : List Event), s.agenda = .reset :: rest → step s = .next s.popEvent.resetEvent)

/-! ### Reset -/

/-- Spec R23, R49: what the host reads from each register right after reset. The two buffer sizes are left out: what they
read is the model's choice (log entry 1). -/
def Obligations.ResetRegisterValues : Prop :=
  (∀ p ∈ ([(0x000, 0), (0x004, 0), (0x008, 0), (0x00C, 0), (0x010, 0), (0x014, 0), (0x018, 0), (0x01C, 0),
      (0x020, 0x1FF), (0x024, 0), (0x028, 0), (0x02C, 0), (0x030, 0x48554631), (0x040, 0), (0x044, 0), (0x048, 0),
      (0x04C, 0), (0x050, 0), (0x054, 0), (0x060, 0), (0x064, 0), (0x068, 0), (0x06C, 0), (0x070, 0), (0x074, 0),
      (0x078, 0), (0x07C, 0), (0x080, 0), (0x088, 0)] : List (Offset × Word)),
    State.reset.hostRead p.1 .word = (p.2, State.reset)) ∧
  (∀ sym : Byte, State.reset.freqOf sym = 0) ∧
  State.reset.pend = none ∧ State.reset.irq = false ∧ State.reset.ibuf = [] ∧ State.reset.obuf = []

/-- Spec R240, R241, R50: a reset gives every register its reset value and does not write the buffers; while BUSY, the
bytes of OBUF from `OBITPOS div 8` on lose their values. That the code table goes to the zeros of `State.reset` is the model's
choice (log entry 8: the spec gives it no value), and so is what the reset keeps of the model's own fields (log entry 19). -/
def Obligations.ResetEventResult : Prop :=
  ∀ s : State,
    s.resetEvent = { State.reset with
      ibuf := s.ibuf, obuf := s.resetEvent.obuf, ibufBytes := s.ibufBytes, obufBytes := s.obufBytes,
      draws := s.draws, agenda := s.agenda, rdata := s.rdata } ∧
    (s.busy = false → s.resetEvent.obuf = s.obuf) ∧
    (s.busy = true → ∀ a, memLookup s.resetEvent.obuf a =
      if a < s.obitpos.toNat / 8 then memLookup s.obuf a else none)

/-! ### The host port -/

/-- Spec R225, R252: a word written to CMD while BUSY = 0 is refused in the error state unless it is NOP or CLEAR, else it is
accepted; while BUSY = 1 it is discarded and sets CMD_OVR. Nothing else changes. -/
def Obligations.CommandPort : Prop :=
  (∀ (s : State) (w : Word), s.busy = false →
    (s.err = true → w ≠ 0x00000000 → w ≠ 0x00000001 → s.hostWrite 0x000 .word w = { s with cmdRej := true }) ∧
    (s.err = false ∨ w = 0x00000000 ∨ w = 0x00000001 →
      s.hostWrite 0x000 .word w = { s with pend := some w, lastOp := w.extractLsb' 0 8, done := false } ∧
      (s.hostWrite 0x000 .word w).busy = true)) ∧
  (∀ (s : State) (w : Word), s.busy = true → s.hostWrite 0x000 .word w = { s with cmdOvr := true })

/-- Spec R25, R26: the fields of the STATUS word, and a host write clears exactly the W1C bits written as 1. -/
def Obligations.StatusRegister : Prop :=
  ∀ (s : State) (v : Word),
    (∃ w, s.hostRead 0x004 .word = (w, s) ∧
      w.getLsbD 0 = s.busy ∧ w.getLsbD 1 = s.done ∧ w.getLsbD 2 = s.err ∧ w.getLsbD 3 = s.cmdOvr ∧
      w.getLsbD 4 = s.cmdRej ∧ w.getLsbD 5 = s.busErr ∧
      (s.treeState = .invalid → w.extractLsb' 6 2 = 0#2) ∧ (s.treeState = .empty → w.extractLsb' 6 2 = 1#2) ∧
      (s.treeState = .built → w.extractLsb' 6 2 = 2#2) ∧ (s.treeState = .loaded → w.extractLsb' 6 2 = 3#2) ∧
      w.getLsbD 8 = s.codesValid ∧ w.extractLsb' 9 7 = 0 ∧ w.extractLsb' 16 8 = s.errCode ∧
      w.extractLsb' 24 8 = s.lastOp) ∧
    s.hostWrite 0x004 .word v =
      { s with
        done := s.done && !v.getLsbD 1, cmdOvr := s.cmdOvr && !v.getLsbD 3,
        cmdRej := s.cmdRej && !v.getLsbD 4, busErr := s.busErr && !v.getLsbD 5 }

/-- Spec R86: a host access that is not a whole aligned 32-bit access is refused. That this comes first, at an unmapped offset
and while BUSY too, is the model's reading (log entry 16). -/
def Obligations.NarrowAccessRefused : Prop :=
  ∀ (s : State) (off : Offset) (size : AccessSize) (v : Word), size ≠ .word ∨ off.toNat % 4 ≠ 0 →
    s.hostRead off size = (0, { s with busErr := true }) ∧ s.hostWrite off size v = { s with busErr := true }

/-- Spec R87: the host port while BUSY = 1. The form of the free value, an opaque function of the count of draws, is the model's
choice (log entry 3). -/
def Obligations.BusyPort : Prop :=
  ∀ (s : State) (off : Offset) (r : Reg) (v : Word), s.busy = true → off.toNat % 4 = 0 → Reg.ofOffset off = some r →
    (r = .cmd → s.hostRead off .word = (0, s)) ∧
    (r = .status → s.hostRead off .word = (s.statusWord, s)) ∧
    (r = .irqEn → s.hostRead off .word = (s.irqEnWord, s)) ∧
    (r = .id → s.hostRead off .word = (0x48554631, s)) ∧
    (r = .ibufSize → s.hostRead off .word = (BitVec.ofNat 32 s.ibufBytes, s)) ∧
    (r = .obufSize → s.hostRead off .word = (BitVec.ofNat 32 s.obufBytes, s)) ∧
    (r ∉ [.status, .id, .ibufSize, .obufSize, .irqEn, .cmd] →
      s.hostRead off .word = (Config.freeWord s.draws, { s with draws := s.draws + 1 })) ∧
    (r = .cmd → s.hostWrite off .word v = { s with cmdOvr := true }) ∧
    (r = .status → s.hostWrite off .word v = s.writeStatus v) ∧
    (r = .irqEn → s.hostWrite off .word v = { s with doneIe := v.getLsbD 0, errIe := v.getLsbD 1 }) ∧
    (r ∈ [.len, .inLen, .ibitpos, .nodeSel, .symSel, .ibufAddr, .ibufData, .obufAddr] ∨ (∃ sym, r = .freq sym) →
      s.hostWrite off .word v = { s with busErr := true }) ∧
    (r ∈ [.obitpos, .outLen, .oacc, .root, .nodeCount, .errInfo, .id, .ibufSize, .obufSize, .nodeInfo, .nodeLink,
        .nodeWeight, .symClen, .obufData] ∨ (∃ k, r = .symCode k) → s.hostWrite off .word v = s) ∧
    ∀ off' : Offset, off'.toNat % 4 = 0 → Reg.ofOffset off' = none → s.hostWrite off' .word v = s

/-- Spec R27 to R30, R37, R38, R40 to R42: what a host write leaves in the plain registers while BUSY = 0. -/
def Obligations.RegisterWrites : Prop :=
  ∀ (s : State) (v : Word), s.busy = false →
    s.hostWrite 0x008 .word v = { s with len := v } ∧
    s.hostWrite 0x00C .word v = { s with inLen := BitVec.ofNat 32 (min v.toNat s.ibufBytes) } ∧
    s.hostWrite 0x010 .word v = { s with ibitpos := v } ∧
    s.hostWrite 0x02C .word v = { s with doneIe := v.getLsbD 0, errIe := v.getLsbD 1 } ∧
    s.hostWrite 0x040 .word v = { s with nodeSel := v.setWidth 9 } ∧
    s.hostWrite 0x050 .word v = { s with symSel := v.setWidth 8 } ∧
    s.hostWrite 0x080 .word v = { s with ibufAddr := v } ∧
    s.hostWrite 0x088 .word v = { s with obufAddr := v } ∧
    ∀ sym : Byte,
      s.hostWrite (Script.freqOffset sym) .word v = s.setFreq sym v ∧
      (s.setFreq sym v = { s with freq := (s.setFreq sym v).freq }) ∧
      ∀ sym' : Byte, (s.setFreq sym v).freqOf sym' = if sym' = sym then v else s.freqOf sym'

/-- Spec R27 to R31, R33, R39, R40, R43, R44: what a host read of the plain registers returns while BUSY = 0; it changes nothing. -/
def Obligations.RegisterReads : Prop :=
  ∀ s : State, s.busy = false →
    s.hostRead 0x000 .word = (0, s) ∧ s.hostRead 0x008 .word = (s.len, s) ∧ s.hostRead 0x00C .word = (s.inLen, s) ∧
    s.hostRead 0x010 .word = (s.ibitpos, s) ∧ s.hostRead 0x014 .word = (s.obitpos, s) ∧
    s.hostRead 0x018 .word = (BitVec.ofNat 32 (s.obitpos.toNat / 8), s) ∧
    s.hostRead 0x01C .word = (s.oacc.setWidth 32, s) ∧ s.hostRead 0x020 .word = (s.root.setWidth 32, s) ∧
    s.hostRead 0x024 .word = (BitVec.ofNat 32 s.arena.length, s) ∧ s.hostRead 0x028 .word = (s.errInfo, s) ∧
    s.hostRead 0x030 .word = (0x48554631, s) ∧ s.hostRead 0x034 .word = (BitVec.ofNat 32 s.ibufBytes, s) ∧
    s.hostRead 0x038 .word = (BitVec.ofNat 32 s.obufBytes, s) ∧ s.hostRead 0x080 .word = (s.ibufAddr, s) ∧
    s.hostRead 0x088 .word = (s.obufAddr, s) ∧
    ∀ sym : Byte, s.hostRead (Script.freqOffset sym) .word = (s.freqOf sym, s)

/-- Spec R51, R52, with R23's table written out: unmapped offsets read 0 and ignore writes; writes to read-only registers are
ignored; no flag is set; a write to STATUS changes its W1C bits only. That an unmapped offset reads 0 also while BUSY is the
model's reading (log entry 15). -/
def Obligations.IgnoredAccesses : Prop :=
  (∀ (s : State) (off : Offset) (v : Word), off.toNat % 4 = 0 → off.toNat < 0x400 →
    off.toNat ∉ [0x000, 0x004, 0x008, 0x00C, 0x010, 0x014, 0x018, 0x01C, 0x020, 0x024, 0x028, 0x02C, 0x030, 0x034, 0x038,
      0x040, 0x044, 0x048, 0x04C, 0x050, 0x054, 0x060, 0x064, 0x068, 0x06C, 0x070, 0x074, 0x078, 0x07C,
      0x080, 0x084, 0x088, 0x08C] →
    s.hostRead off .word = (0, s) ∧ s.hostWrite off .word v = s) ∧
  (∀ (s : State) (v : Word), ∀ off ∈ ([0x014, 0x018, 0x01C, 0x020, 0x024, 0x028, 0x030, 0x034, 0x038, 0x044, 0x048, 0x04C,
      0x054, 0x060, 0x064, 0x068, 0x06C, 0x070, 0x074, 0x078, 0x07C, 0x08C] : List Offset),
    s.hostWrite off .word v = s) ∧
  ∀ (s : State) (v : Word), ∃ t, s.hostWrite 0x004 .word v = t ∧
    t = { s with done := t.done, cmdOvr := t.cmdOvr, cmdRej := t.cmdRej, busErr := t.busErr }

/-- Spec R37, R38: the node window and the code window. -/
def Obligations.WindowReads : Prop :=
  (∀ s : State, s.busy = false →
    (∀ n, s.arena[s.nodeSel.toNat]? = some n →
      s.hostRead 0x044 .word = (BitVec.ofNat 32 (n.sym.toNat + 256 * n.leaf.toNat), s) ∧
      s.hostRead 0x048 .word = (BitVec.ofNat 32 (n.left.toNat + 65536 * n.right.toNat), s) ∧
      s.hostRead 0x04C .word = (n.weight, s)) ∧
    (s.arena.length ≤ s.nodeSel.toNat →
      s.hostRead 0x044 .word = (0, s) ∧ s.hostRead 0x048 .word = (0, s) ∧ s.hostRead 0x04C .word = (0, s)) ∧
    s.hostRead 0x040 .word = (s.nodeSel.setWidth 32, s) ∧
    ∀ v : Word, s.hostWrite 0x040 .word v = { s with nodeSel := v.extractLsb' 0 9 }) ∧
  (∀ s : State, s.busy = false →
    (s.codesValid = true →
      s.hostRead 0x054 .word = ((s.codeLenOf s.symSel).setWidth 32, s) ∧
      ∀ k : Fin 8, s.hostRead (BitVec.ofNat 11 (0x060 + 4 * k.val)) .word =
        ((s.codeBitsOf s.symSel).extractLsb' (32 * k.val) 32, s)) ∧
    (s.codesValid = false →
      s.hostRead 0x054 .word = (0, s) ∧
      ∀ k : Fin 8, s.hostRead (BitVec.ofNat 11 (0x060 + 4 * k.val)) .word = (0, s)) ∧
    s.hostRead 0x050 .word = (s.symSel.setWidth 32, s) ∧
    ∀ v : Word, s.hostWrite 0x050 .word v = { s with symSel := v.extractLsb' 0 8 })

/-- Spec R41, R42, R50: the buffer data ports; a read of a byte that nothing has written is a free draw, in the form that is the
model's choice (log entry 2). -/
def Obligations.BufferDataPorts : Prop :=
  (∀ (s : State) (w : Word), s.busy = false →
    s.hostWrite 0x080 .word w = { s with ibufAddr := w } ∧ s.hostRead 0x080 .word = (s.ibufAddr, s) ∧
    (s.ibufAddr.toNat < s.ibufBytes →
      s.hostWrite 0x084 .word w =
        { s with ibuf := (s.hostWrite 0x084 .word w).ibuf, ibufAddr := s.ibufAddr + 1 } ∧
      (∀ a, memLookup (s.hostWrite 0x084 .word w).ibuf a =
        if a = s.ibufAddr.toNat then some (w.setWidth 8) else memLookup s.ibuf a) ∧
      (∀ b, memLookup s.ibuf s.ibufAddr.toNat = some b →
        s.hostRead 0x084 .word = (b.setWidth 32, { s with ibufAddr := s.ibufAddr + 1 })) ∧
      (memLookup s.ibuf s.ibufAddr.toNat = none →
        s.hostRead 0x084 .word =
          ((Config.freeByte s.draws).setWidth 32, { s with ibufAddr := s.ibufAddr + 1, draws := s.draws + 1 }))) ∧
    (s.ibufBytes ≤ s.ibufAddr.toNat →
      s.hostWrite 0x084 .word w = { s with busErr := true } ∧
      s.hostRead 0x084 .word = (0, { s with busErr := true }))) ∧
  (∀ (s : State) (w : Word), s.busy = false →
    s.hostWrite 0x08C .word w = s ∧ s.hostWrite 0x088 .word w = { s with obufAddr := w } ∧
    s.hostRead 0x088 .word = (s.obufAddr, s) ∧
    (s.obufAddr.toNat < s.obufBytes →
      (∀ b, memLookup s.obuf s.obufAddr.toNat = some b →
        s.hostRead 0x08C .word = (b.setWidth 32, { s with obufAddr := s.obufAddr + 1 })) ∧
      (memLookup s.obuf s.obufAddr.toNat = none →
        s.hostRead 0x08C .word =
          ((Config.freeByte s.draws).setWidth 32, { s with obufAddr := s.obufAddr + 1, draws := s.draws + 1 }))) ∧
    (s.obufBytes ≤ s.obufAddr.toNat → s.hostRead 0x08C .word = (0, { s with busErr := true })))

/-- Spec R230, R40: the interrupt output, low after reset; CLEAR leaves the enables alone. -/
def Obligations.InterruptOutput : Prop :=
  (∀ s : State, s.irq = true ↔ (s.done = true ∧ s.doneIe = true) ∨ (s.err = true ∧ s.errIe = true)) ∧
  (∀ s : State, s.resetEvent.irq = false) ∧
  (∀ s : State, (s.hostRead 0x02C .word).1 = BitVec.ofNat 32 (s.doneIe.toNat + 2 * s.errIe.toNat)) ∧
  ∀ s t : State, exec .clear s = .next t → t.doneIe = s.doneIe ∧ t.errIe = s.errIe

/-! ### The streams -/

/-- Spec R76, R50, R71: ReadBit; a bit of a byte that nothing has written is a bit of a free draw, in the form that is the
model's choice (log entry 2). -/
def Obligations.ReadBitRule : Prop :=
  ∀ s : State, s.inputInBuffer →
    (8 * s.inLen.toNat < s.ibitpos.toNat + 1 → readBit s = .error (.raise .inExhausted s.ibitpos) s) ∧
    (s.ibitpos.toNat + 1 ≤ 8 * s.inLen.toNat →
      (∀ v, memLookup s.ibuf (s.ibitpos.toNat / 8) = some v →
        readBit s = .ok (v.getLsbD (7 - s.ibitpos.toNat % 8)) { s with ibitpos := s.ibitpos + 1 }) ∧
      (memLookup s.ibuf (s.ibitpos.toNat / 8) = none →
        readBit s = .ok ((Config.freeByte s.draws).getLsbD (7 - s.ibitpos.toNat % 8))
          { s with ibitpos := s.ibitpos + 1, draws := s.draws + 1 }))

/-- Spec R80: WriteBit. -/
def Obligations.WriteBitRule : Prop :=
  ∀ (s : State) (b : Bool),
    (8 * s.obufBytes ≤ s.obitpos.toNat → writeBit b s = .error (.raise .outFull s.obitpos) s) ∧
    (s.obitpos.toNat < 8 * s.obufBytes → ∃ t acc,
      writeBit b s = .ok () t ∧
      (∀ i < 8, acc.getLsbD i = if i = 7 - s.obitpos.toNat % 8 then b else s.oacc.getLsbD i) ∧
      ((s.obitpos.toNat + 1) % 8 ≠ 0 → t = { s with obitpos := s.obitpos + 1, oacc := acc }) ∧
      ((s.obitpos.toNat + 1) % 8 = 0 →
        t = { s with obitpos := s.obitpos + 1, oacc := 0, obuf := t.obuf } ∧
        ∀ a, memLookup t.obuf a = if a = (s.obitpos.toNat + 1) / 8 - 1 then some acc else memLookup s.obuf a))

/-- Spec R79: produced bits land at their positions, most significant bit of a byte first, earlier bits stay, and no byte
changes but those completed. -/
def Obligations.ProducedBitsLand : Prop :=
  ∀ (s : State) (bits : List Bool), s.obitpos.toNat + bits.length < 2 ^ 32 →
    (s.emit bits).obitpos.toNat = s.obitpos.toNat + bits.length ∧
    (s.emit bits = { s with
      obitpos := (s.emit bits).obitpos, oacc := (s.emit bits).oacc, obuf := (s.emit bits).obuf }) ∧
    (∀ j < bits.length, (s.emit bits).outputBit? (s.obitpos.toNat + j) = bits[j]?) ∧
    (∀ p < s.obitpos.toNat, (s.emit bits).outputBit? p = s.outputBit? p) ∧
    storesOnlyOutput s (s.emit bits)

/-! ### Control -/

/-- Spec R130: NOP. -/
def Obligations.NopResult : Prop :=
  ∀ s : State, exec .nop s = .next { s with pend := none, done := true }

/-- Spec R131: CLEAR. -/
def Obligations.ClearResult : Prop :=
  ∀ s : State, ∃ t, exec .clear s = .next t ∧ (∀ sym, t.freqOf sym = 0) ∧
    t = { s with
      treeState := .invalid, arena := [], root := 0x1FF, codesValid := false, freq := t.freq, len := 0, ibitpos := 0,
      obitpos := 0, oacc := 0, err := false, errCode := 0, errInfo := 0, cmdOvr := false, cmdRej := false, busErr := false,
      pend := none, done := true }

/-- Spec R132: RSTIO. -/
def Obligations.RstioResult : Prop :=
  ∀ s : State, exec .rstio s = .next { s with ibitpos := 0, obitpos := 0, oacc := 0, pend := none, done := true }

/-! ### Errors -/

/-- Spec R213: the two checks come first and change nothing but the fault record. -/
def Obligations.MissingTreeOrCodes : Prop :=
  (∀ s : State, s.treeState = .invalid →
    ∀ p ∈ ([(.gencodes, 0x11), (.serialize, 0x20), (.decsyms, 0x31), (.encode, 0x40)] : List (Instr × Word)),
      exec p.1 s = .next { s with err := true, errCode := 0x02, errInfo := p.2, pend := none, done := true }) ∧
  (∀ s : State, s.codesValid = false →
    exec .encsyms s = .next { s with err := true, errCode := 0x03, errInfo := 0x30, pend := none, done := true }) ∧
  ∀ s : State, s.treeState ≠ .invalid → s.codesValid = false →
    exec .encode s = .next { s with err := true, errCode := 0x03, errInfo := 0x40, pend := none, done := true }

/-- Spec R210, R220, R222: a command that starts without an error recorded ends without one, or with one of the errors the
table lists for it. -/
def Obligations.ErrorsPerCommand : Prop :=
  ∀ (i : Instr) (s t : State), s.SizesInv → s.CursorInv → s.err = false → s.errCode = 0 → s.errInfo = 0 →
    exec i s = .next t →
    (t.err = false ∧ t.errCode = 0 ∧ t.errInfo = 0) ∨ (t.err = true ∧ ∃ e ∈ raisesOf i, t.errCode = e.code)

/-! ### Tree building -/

/-- Spec R140, R148: a sum above W_MAX raises WEIGHT_OVF with detail 0 and changes nothing else. -/
def Obligations.BuildOverflow : Prop :=
  ∀ s : State, 0xFFFFFFFE < (s.freq.toList.map BitVec.toNat).sum →
    exec .build s = .next { s with err := true, errCode := 0x05, errInfo := 0, pend := none, done := true }

/-- Spec R146: with every FREQ entry 0, BUILD leaves the EMPTY tree, and that is no error. -/
def Obligations.BuildEmptyTable : Prop :=
  ∀ s : State, (∀ sym, s.freqOf sym = 0) →
    exec .build s = .next { s with
      codesValid := false, arena := [], root := 0x1FF, treeState := .empty, pend := none, done := true }

/-- Spec R145, R147: counts of a built tree, the root last; nothing else changes. -/
def Obligations.BuildCounts : Prop :=
  ∀ s : State, s.totalWeight ≤ Config.wMax → (∃ sym, s.freqOf sym ≠ 0) →
    ∃ t, exec .build s = .next t ∧
      t = { s with arena := t.arena, root := t.root, treeState := .built, codesValid := false, pend := none, done := true } ∧
      t.arena.length = 2 * s.builtLeaves - 1 ∧ t.root.toNat = 2 * s.builtLeaves - 2 ∧
      (∀ i n, t.arena[i]? = some n → (n.leaf = true ↔ i < s.builtLeaves))

/-- Spec R141, R142: the leaves of a built tree, ascending by symbol, with the placeholder where there is one symbol. -/
def Obligations.BuildLeaves : Prop :=
  ∀ s : State, s.totalWeight ≤ Config.wMax →
    (∀ sym, sym ∈ s.presentSymbols.map Prod.fst ↔ s.freqOf sym ≠ 0) ∧
    (s.presentSymbols.map (fun p => p.1.toNat)).Pairwise (· < ·) ∧
    (∀ p ∈ s.presentSymbols, p.2 = s.freqOf p.1) ∧
    ((∃ sym, s.freqOf sym ≠ 0) → ∃ t : State, exec .build s = .next t ∧
      (∀ (i : Nat) (p : Byte × Word), s.presentSymbols[i]? = some p →
        t.arena[i]? = some ⟨true, p.1, p.2, 0x1FF, 0x1FF⟩) ∧
      ∀ p : Byte × Word, s.presentSymbols = [p] →
        t.arena[1]? = some ⟨true, if p.1 = 0x00 then 0x01 else 0x00, 0, 0x1FF, 0x1FF⟩)

/-- Spec R143, R144, R148: every internal node of a built tree merges the two smallest keys of PQ, the smallest to the left,
and its weight is their exact sum. -/
def Obligations.BuildMergesSmallestTwo : Prop :=
  ∀ s : State, s.totalWeight ≤ Config.wMax → (∃ sym, s.freqOf sym ≠ 0) →
    ∃ t, exec .build s = .next t ∧
      ∀ z, s.builtLeaves ≤ z → z < t.arena.length → mergesSmallest t.arena s.builtLeaves z

/-- Spec R152: the frequencies alone determine the tree, and the tree alone determines the codes. -/
def Obligations.FrequenciesDetermineTreeAndCodes : Prop :=
  (∀ s s' t t' : State, s.freq = s'.freq → s.totalWeight ≤ Config.wMax →
    exec .build s = .next t → exec .build s' = .next t' →
    t.arena = t'.arena ∧ t.root = t'.root ∧ t.treeState = t'.treeState) ∧
  ∀ s s' t t' : State, s.treeState ≠ .invalid → s.arena = s'.arena → s.root = s'.root → s.treeState = s'.treeState →
    exec .gencodes s = .next t → exec .gencodes s' = .next t' → t.codeLen = t'.codeLen ∧ t.codeBits = t'.codeBits

/-! ### Codes -/

/-- Spec R149, R150, R35: GENCODES gives each leaf its path as its code, with no bit set at or above its length, and every other
symbol none; of an EMPTY tree, none at all. -/
def Obligations.GencodesResult : Prop :=
  (∀ (s : State) (tr : CodeTree), s.Inv → s.hasTree → s.tree? = some tr →
    ∃ t, exec .gencodes s = .next t ∧
      t = { s with codeLen := t.codeLen, codeBits := t.codeBits, codesValid := true, pend := none, done := true } ∧
      (∀ p ∈ tr.codes, (t.codeLenOf p.1).toNat = p.2.length ∧ (t.codeBitsOf p.1).toNat = numOf p.2 ∧ t.codeOf p.1 = p.2) ∧
      ∀ sym : Byte, sym ∉ tr.leaves → t.codeLenOf sym = 0 ∧ t.codeBitsOf sym = 0) ∧
  ∀ s : State, s.treeState = .empty →
    ∃ t, exec .gencodes s = .next t ∧
      t = { s with codeLen := t.codeLen, codeBits := t.codeBits, codesValid := true, pend := none, done := true } ∧
      ∀ sym, t.codeLenOf sym = 0 ∧ t.codeBitsOf sym = 0

/-- Spec R151: in every valid code table of a built or loaded tree, every leaf symbol has a code of 1 to 255 bits, no code is
a prefix of another, and exactly the leaf symbols have codes. -/
def Obligations.CodesArePrefixFree : Prop :=
  ∀ (s : State) (tr : CodeTree), s.Inv → s.hasTree → s.codesValid = true → s.tree? = some tr →
    (∀ sym, sym ∈ tr.leaves ↔ s.codeLenOf sym ≠ 0) ∧
    (∀ sym ∈ tr.leaves, 1 ≤ (s.codeOf sym).length ∧ (s.codeOf sym).length ≤ 255) ∧
    ∀ a ∈ tr.leaves, ∀ b ∈ tr.leaves, a ≠ b → ¬ s.codeOf a <+: s.codeOf b

/-- Spec R153: a strictly more frequent symbol never has a longer code. The spec marks this rule "from general knowledge, not in
source: the sibling property of Huffman trees". -/
def Obligations.FrequentSymbolsHaveShortCodes : Prop :=
  ∀ s : State, s.totalWeight ≤ Config.wMax → ∃ t u, exec .build s = .next t ∧ exec .gencodes t = .next u ∧
    ∀ a b : Byte, 1 ≤ (s.freqOf b).toNat → (s.freqOf b).toNat < (s.freqOf a).toNat →
      (u.codeLenOf a).toNat ≤ (u.codeLenOf b).toNat

/-! ### Header -/

/-- Spec R160, R161, R162: SERIALIZE produces the pre-order bits of the tree, or the marker. -/
def Obligations.SerializeResult : Prop :=
  (∀ (s : State) (tr : CodeTree), s.hasTree → s.tree? = some tr → s.obitpos.toNat + tr.preorder.length ≤ 8 * s.obufBytes →
    exec .serialize s = .next { s.emit tr.preorder with pend := none, done := true }) ∧
  ∀ s : State, s.treeState = .empty → s.obitpos.toNat + 9 ≤ 8 * s.obufBytes →
    exec .serialize s = .next { s.emit (true :: List.replicate 8 false) with pend := none, done := true }

/-- Spec R160, R161, R80, R81: without room for all of the tree or the marker, SERIALIZE raises OUT_FULL at the first write, of
a node bit or of a whole symbol, that does not fit, with the cursor there as detail; exactly the writes before it are made. -/
def Obligations.SerializeOutFull : Prop :=
  ∀ (s : State) (items : List (List Bool)),
    ((s.hasTree ∧ ∃ tr, s.tree? = some tr ∧ items = tr.items) ∨ (s.treeState = .empty ∧ items = markerItems)) →
    s.obitpos.toNat ≤ 8 * s.obufBytes → 8 * s.obufBytes < s.obitpos.toNat + items.flatten.length →
    s.obufBytes ≤ Config.maxBufBytes →
    ∃ before item after, items = before ++ item :: after ∧
      s.obitpos.toNat + before.flatten.length ≤ 8 * s.obufBytes ∧
      8 * s.obufBytes < s.obitpos.toNat + before.flatten.length + item.length ∧
      exec .serialize s = .next { s.emit before.flatten with
        err := true, errCode := 0x07, errInfo := BitVec.ofNat 32 (s.obitpos.toNat + before.flatten.length),
        pend := none, done := true }

/-- Spec R163, R164: DESERIALIZE of the pre-order bits of a tree with an internal root and no symbol twice lays the nodes out
in pre-order. -/
def Obligations.DeserializeResult : Prop :=
  ∀ (s : State) (l r : CodeTree), s.inputInBuffer → (CodeTree.node l r).leaves.Nodup →
    s.hasInput (CodeTree.node l r).preorder →
    exec .deserialize s = .next { s.consume (CodeTree.node l r).preorder.length with
      arena := (CodeTree.node l r).layout 0, root := 0, treeState := .loaded, codesValid := false, pend := none, done := true }

/-- Spec R165: a leaf bit at the root position is the empty-tree marker, or BAD_MARKER. -/
def Obligations.DeserializeMarker : Prop :=
  ∀ (s : State) (v : Byte), s.inputInBuffer → s.hasInput (true :: bitsOf v 8) →
    (v = 0x00 → exec .deserialize s = .next { s.consume 9 with
      arena := [], root := 0x1FF, treeState := .empty, codesValid := false, pend := none, done := true }) ∧
    (v ≠ 0x00 → exec .deserialize s = .next { s.consume 9 with
      arena := [], root := 0x1FF, treeState := .invalid, codesValid := false, pend := none, done := true,
      err := true, errCode := 0x08, errInfo := BitVec.ofNat 32 v.toNat })

/-- Spec R163, R164, R166, R34: reading the nodes of a stream in pre-order, DESERIALIZE raises at the first node it cannot take,
with the nodes before it allocated and no tree left: DUP_SYMBOL at a leaf whose symbol an earlier leaf had (before TREE_TOO_BIG);
TREE_TOO_BIG at the 512th node, where it is no such leaf; IN_EXHAUSTED where a node bit, or the symbol after a leaf's bit, lies
beyond the end of the input. The detail of TREE_TOO_BIG is the cursor at the allocation (R34), so at a leaf the position after its
symbol; that R210's "`IBITPOS` after the node bit" is this value is the model's reading (log entry 23). -/
def Obligations.DeserializeMalformed : Prop :=
  (∀ (s : State) (tr : CodeTree) (k : Nat) (x : Byte), s.inputInBuffer → k ≤ 511 → tr.nodes[k]? = some (some x) →
    x ∈ leafSymbols (tr.nodes.take k) → (leafSymbols (tr.nodes.take k)).Nodup →
    s.hasInput ((tr.nodes.take (k + 1)).flatMap nodeBits) →
    ∃ arena, arena.length = k ∧ exec .deserialize s = .next
      (s.failedRead ((tr.nodes.take (k + 1)).flatMap nodeBits).length arena 0x09 (BitVec.ofNat 32 x.toNat))) ∧
  (∀ (s : State) (tr : CodeTree) (n : Option Byte), s.inputInBuffer → tr.nodes[511]? = some n →
    (∀ x, n = some x → x ∉ leafSymbols (tr.nodes.take 511)) → (leafSymbols (tr.nodes.take 511)).Nodup →
    s.hasInput ((tr.nodes.take 512).flatMap nodeBits) →
    ∃ arena, arena.length = 511 ∧ exec .deserialize s = .next
      (s.failedRead ((tr.nodes.take 512).flatMap nodeBits).length arena 0x0A
        (BitVec.ofNat 32 (s.ibitpos.toNat + ((tr.nodes.take 512).flatMap nodeBits).length)))) ∧
  (∀ (s : State) (tr : CodeTree) (k : Nat), s.inputInBuffer → k ≤ 511 → k < tr.nodes.length →
    (leafSymbols (tr.nodes.take k)).Nodup → k = 0 ∨ s.hasInput ((tr.nodes.take k).flatMap nodeBits) →
    8 * s.inLen.toNat < s.ibitpos.toNat + ((tr.nodes.take k).flatMap nodeBits).length + 1 →
    ∃ arena, arena.length = k ∧ exec .deserialize s = .next
      (s.failedRead ((tr.nodes.take k).flatMap nodeBits).length arena 0x06
        (BitVec.ofNat 32 (s.ibitpos.toNat + ((tr.nodes.take k).flatMap nodeBits).length)))) ∧
  ∀ (s : State) (tr : CodeTree) (k : Nat) (x : Byte), s.inputInBuffer → k ≤ 511 → tr.nodes[k]? = some (some x) →
    (leafSymbols (tr.nodes.take k)).Nodup → s.hasInput ((tr.nodes.take k).flatMap nodeBits ++ [true]) →
    8 * s.inLen.toNat < s.ibitpos.toNat + ((tr.nodes.take k).flatMap nodeBits).length + 9 →
    ∃ arena, arena.length = k ∧ exec .deserialize s = .next
      (s.failedRead (((tr.nodes.take k).flatMap nodeBits).length + 1) arena 0x06
        (BitVec.ofNat 32 (s.ibitpos.toNat + ((tr.nodes.take k).flatMap nodeBits).length + 1)))

/-- Spec R166: whatever the input, a DESERIALIZE that faults leaves no usable tree, and only it, the input cursor and the
fault record change. -/
def Obligations.DeserializeFaultLeavesNoTree : Prop :=
  ∀ s t : State, s.err = false → exec .deserialize s = .next t → t.err = true →
    t.treeState = .invalid ∧ t.root = 0x1FF ∧ t.codesValid = false ∧ t.arena.length ≤ 511 ∧
    t = { s with
      arena := t.arena, root := t.root, treeState := t.treeState, codesValid := false, ibitpos := t.ibitpos,
      draws := t.draws, err := true, errCode := t.errCode, errInfo := t.errInfo, pend := none, done := true }

/-- Spec R167: PUTLEN. -/
def Obligations.PutlenResult : Prop :=
  ∀ s : State,
    (s.obitpos.toNat + 32 ≤ 8 * s.obufBytes →
      exec .putlen s = .next { s.emit (bitsOf s.len 32) with pend := none, done := true }) ∧
    (8 * s.obufBytes < s.obitpos.toNat + 32 →
      exec .putlen s = .next { s with
        err := true, errCode := 0x07, errInfo := s.obitpos, pend := none, done := true })

/-- Spec R168: GETLEN. -/
def Obligations.GetlenResult : Prop :=
  ∀ (s : State) (v : Word), s.inputInBuffer →
    (s.hasInput (bitsOf v 32) → exec .getlen s = .next { s.consume 32 with len := v, pend := none, done := true }) ∧
    (8 * s.inLen.toNat < s.ibitpos.toNat + 32 →
      exec .getlen s = .next { s with
        err := true, errCode := 0x06, errInfo := s.ibitpos, pend := none, done := true })

/-! ### Bitstream -/

/-- Spec R180, R181, R77, R80: ENCSYMS writes the codes of its `LEN` input symbols one after another. It raises IN_EXHAUSTED where
fewer than 8 input bits are left for a symbol, with the codes before it written; and OUT_FULL at the first code bit that does
not fit, with the bits before it written and that bit's symbol read. -/
def Obligations.EncsymsResult : Prop :=
  (∀ (s : State) (syms : List Byte), s.inputInBuffer → s.codesValid = true → syms.length = s.len.toNat →
    s.hasInput (symbolBits syms) → (∀ sym ∈ syms, s.codeLenOf sym ≠ 0) →
    s.obitpos.toNat + (s.codeBitsFor syms).length ≤ 8 * s.obufBytes →
    exec .encsyms s = .next { (s.emit (s.codeBitsFor syms)).consume (8 * syms.length) with pend := none, done := true }) ∧
  (∀ (s : State) (syms : List Byte), s.inputInBuffer → s.codesValid = true → syms.length < s.len.toNat →
    syms = [] ∨ s.hasInput (symbolBits syms) → (∀ sym ∈ syms, s.codeLenOf sym ≠ 0) →
    8 * s.inLen.toNat < s.ibitpos.toNat + 8 * (syms.length + 1) →
    s.obitpos.toNat + (s.codeBitsFor syms).length ≤ 8 * s.obufBytes →
    exec .encsyms s = .next { (s.emit (s.codeBitsFor syms)).consume (8 * syms.length) with
      err := true, errCode := 0x06, errInfo := BitVec.ofNat 32 (s.ibitpos.toNat + 8 * syms.length),
      pend := none, done := true }) ∧
  ∀ (s : State) (syms : List Byte) (x : Byte), s.inputInBuffer → s.obufBytes ≤ Config.maxBufBytes → s.codesValid = true →
    syms.length < s.len.toNat → s.hasInput (symbolBits (syms ++ [x])) → (∀ sym ∈ syms ++ [x], s.codeLenOf sym ≠ 0) →
    s.obitpos.toNat + (s.codeBitsFor syms).length ≤ 8 * s.obufBytes →
    8 * s.obufBytes < s.obitpos.toNat + (s.codeBitsFor (syms ++ [x])).length →
    exec .encsyms s = .next
      { (s.emit ((s.codeBitsFor (syms ++ [x])).take (8 * s.obufBytes - s.obitpos.toNat))).consume (8 * (syms.length + 1)) with
        err := true, errCode := 0x07, errInfo := BitVec.ofNat 32 (8 * s.obufBytes), pend := none, done := true }

/-- Spec R180, R181: at the first symbol without a code ENCSYMS raises NO_CODE with the symbol as detail; it has been read,
and the codes before it are written. -/
def Obligations.EncsymsNoCode : Prop :=
  ∀ (s : State) (syms : List Byte) (x : Byte), s.inputInBuffer → s.codesValid = true →
    syms.length < s.len.toNat → s.hasInput (symbolBits (syms ++ [x])) → (∀ sym ∈ syms, s.codeLenOf sym ≠ 0) →
    s.codeLenOf x = 0 → s.obitpos.toNat + (s.codeBitsFor syms).length ≤ 8 * s.obufBytes →
    exec .encsyms s = .next { (s.emit (s.codeBitsFor syms)).consume (8 * (syms.length + 1)) with
      err := true, errCode := 0x04, errInfo := BitVec.ofNat 32 x.toNat, pend := none, done := true }

/-- Spec R195, R196, R76, R81: DECSYMS makes `LEN` walks, each along one path of the tree, and writes the symbols they reach. It
raises IN_EXHAUSTED where the input ends before a walk reaches its leaf, with the symbols before it written and all input
consumed; and OUT_FULL at the first symbol that does not fit whole, with its walk consumed. -/
def Obligations.DecsymsResult : Prop :=
  (∀ (s : State) (tr : CodeTree) (cs : List (Byte × List Bool)), s.inputInBuffer → s.hasTree →
    s.tree? = some tr → (∀ p ∈ cs, p ∈ tr.codes) → cs.length = s.len.toNat → s.hasInput (cs.flatMap Prod.snd) →
    s.obitpos.toNat + 8 * cs.length ≤ 8 * s.obufBytes →
    exec .decsyms s = .next { (s.emit (symbolBits (cs.map Prod.fst))).consume (cs.flatMap Prod.snd).length with
      pend := none, done := true }) ∧
  (∀ (s : State) (tr : CodeTree) (cs : List (Byte × List Bool)) (p : Byte × List Bool) (q : List Bool), s.inputInBuffer →
    s.hasTree → s.tree? = some tr → (∀ c ∈ cs, c ∈ tr.codes) → p ∈ tr.codes → q <+: p.2 → q ≠ p.2 →
    cs.length < s.len.toNat → (cs = [] ∧ q = []) ∨ s.hasInput (cs.flatMap Prod.snd ++ q) →
    8 * s.inLen.toNat < s.ibitpos.toNat + (cs.flatMap Prod.snd ++ q).length + 1 →
    s.obitpos.toNat + 8 * cs.length ≤ 8 * s.obufBytes →
    exec .decsyms s = .next { (s.emit (symbolBits (cs.map Prod.fst))).consume (cs.flatMap Prod.snd ++ q).length with
      err := true, errCode := 0x06, errInfo := BitVec.ofNat 32 (s.ibitpos.toNat + (cs.flatMap Prod.snd ++ q).length),
      pend := none, done := true }) ∧
  ∀ (s : State) (tr : CodeTree) (cs : List (Byte × List Bool)) (p : Byte × List Bool), s.inputInBuffer →
    s.obufBytes ≤ Config.maxBufBytes → s.hasTree → s.tree? = some tr → (∀ c ∈ cs, c ∈ tr.codes) → p ∈ tr.codes →
    cs.length < s.len.toNat → s.hasInput ((cs ++ [p]).flatMap Prod.snd) →
    s.obitpos.toNat + 8 * cs.length ≤ 8 * s.obufBytes → 8 * s.obufBytes < s.obitpos.toNat + 8 * (cs.length + 1) →
    exec .decsyms s = .next
      { (s.emit (symbolBits (cs.map Prod.fst))).consume ((cs ++ [p]).flatMap Prod.snd).length with
        err := true, errCode := 0x07, errInfo := BitVec.ofNat 32 (s.obitpos.toNat + 8 * cs.length),
        pend := none, done := true }

/-- Spec R182, R83: FLUSH completes the last byte with zero bits and cannot fail. -/
def Obligations.FlushResult : Prop :=
  ∀ s : State, s.obitpos.toNat ≤ 8 * s.obufBytes →
    exec .flush s = .next { s.emit (padBits s.obitpos.toNat) with pend := none, done := true } ∧
    (s.obitpos.toNat % 8 = 0 → exec .flush s = .next { s with pend := none, done := true }) ∧
    (s.obufBytes ≤ Config.maxBufBytes →
      (s.emit (padBits s.obitpos.toNat)).obitpos.toNat = 8 * ((s.obitpos.toNat + 7) / 8))

/-! ### Whole files -/

/-- Spec R184, R185: ENCODE produces the compressed file, tree or marker, length, codes, pad; its size follows. With a tree and
codes it does what SERIALIZE, PUTLEN, ENCSYMS and FLUSH do one after another, up to the first that raises: so it raises what
they raise, where they raise it. -/
def Obligations.EncodeResult : Prop :=
  (∀ (s : State) (syms : List Byte), s.Inv → s.treeState ≠ .invalid → s.codesValid = true →
    syms.length = s.len.toNat → s.hasInput (symbolBits syms) → (∀ sym ∈ syms, s.codeLenOf sym ≠ 0) →
    s.obitpos.toNat + (s.fileBits syms).length ≤ 8 * s.obufBytes →
    exec .encode s = .next
      { (s.emit (s.fileBits syms ++ padBits (s.obitpos.toNat + (s.fileBits syms).length))).consume (8 * syms.length) with
        pend := none, done := true } ∧
    (s.fileBits syms).length =
      (if s.treeState = .empty then 9 else 10 * ((s.arena.length + 1) / 2) - 1) + 32
        + (syms.map (fun sym => (s.codeLenOf sym).toNat)).sum) ∧
  ∀ s : State, s.err = false → s.treeState ≠ .invalid → s.codesValid = true →
    exec .encode s = thenExec .flush (thenExec .encsyms (thenExec .putlen (exec .serialize s)))

/-- Spec R197, R199: DECODE of a compressed file with a tree loads the tree and the length and writes the symbols; what
follows the last walk is not consumed. It does what DESERIALIZE, GETLEN, DECSYMS and FLUSH do one after another, up to the first
that raises: so it raises what they raise, where they raise it. -/
def Obligations.DecodeResult : Prop :=
  (∀ (s : State) (l r : CodeTree) (n : Word) (cs : List (Byte × List Bool)), s.Inv → (CodeTree.node l r).leaves.Nodup →
    (∀ p ∈ cs, p ∈ (CodeTree.node l r).codes) → cs.length = n.toNat →
    s.hasInput ((CodeTree.node l r).preorder ++ bitsOf n 32 ++ cs.flatMap Prod.snd) →
    s.obitpos.toNat + 8 * cs.length ≤ 8 * s.obufBytes →
    exec .decode s = .next
      { (s.emit (symbolBits (cs.map Prod.fst) ++ padBits (s.obitpos.toNat + 8 * cs.length))).consume
          ((CodeTree.node l r).preorder ++ bitsOf n 32 ++ cs.flatMap Prod.snd).length with
        arena := (CodeTree.node l r).layout 0, root := 0, treeState := .loaded, codesValid := false, len := n,
        pend := none, done := true }) ∧
  ∀ s : State, s.err = false →
    exec .decode s = thenExec .flush (thenExec .decsyms (thenExec .getlen (exec .deserialize s)))

/-- Spec R195, R198: with an EMPTY tree DECSYMS decodes nothing, and a length other than 0 raises BAD_EMPTY_LEN; after the marker
DECODE still reads the length, and it must be 0. -/
def Obligations.EmptyTreeDecoding : Prop :=
  (∀ s : State, s.treeState = .empty →
    (s.len = 0 → exec .decsyms s = .next { s with pend := none, done := true }) ∧
    (s.len ≠ 0 → exec .decsyms s = .next { s with
      err := true, errCode := 0x0B, errInfo := s.len, pend := none, done := true })) ∧
  (∀ (s : State) (n : Word), s.Inv → s.hasInput (markerBits ++ bitsOf n 32) →
    (n = 0 → exec .decode s = .next { (s.emit (padBits s.obitpos.toNat)).consume 41 with
      arena := [], root := 0x1FF, treeState := .empty, codesValid := false, len := 0, pend := none, done := true }) ∧
    (n ≠ 0 → exec .decode s = .next { s.consume 41 with
      arena := [], root := 0x1FF, treeState := .empty, codesValid := false, len := n, pend := none, done := true,
      err := true, errCode := 0x0B, errInfo := n }))

/-! ### Round trips -/

/-- Spec R169: DESERIALIZE of the bits SERIALIZE writes gives the same tree, numbered in pre-order, and consumes exactly those
bits; SERIALIZE of that tree writes the same bits, and GENCODES of the two trees gives equal codes. For the EMPTY tree it gives
EMPTY. -/
def Obligations.TreeRoundTrip : Prop :=
  (∀ (s : State) (tr : CodeTree), s.Inv → s.hasTree → s.tree? = some tr →
    s.obitpos.toNat + tr.preorder.length ≤ 8 * s.obufBytes →
    ∃ t bits, exec .serialize s = .next t ∧ t.err = s.err ∧ t.obitpos.toNat = s.obitpos.toNat + bits.length ∧
      (∀ j < bits.length, t.outputBit? (s.obitpos.toNat + j) = bits[j]?) ∧
      ∀ u : State, u.Inv → u.hasInput bits →
        ∃ v, exec .deserialize u = .next v ∧ v.err = u.err ∧ v.ibitpos.toNat = u.ibitpos.toNat + bits.length ∧
          v.treeState = .loaded ∧ v.tree? = some tr ∧ v.arena = tr.layout 0 ∧ v.root = 0 ∧
          (v.obitpos.toNat + bits.length ≤ 8 * v.obufBytes →
            ∃ x, exec .serialize v = .next x ∧ x.err = v.err ∧ x.obitpos.toNat = v.obitpos.toNat + bits.length ∧
              ∀ j < bits.length, x.outputBit? (v.obitpos.toNat + j) = bits[j]?) ∧
          ∃ y z, exec .gencodes s = .next y ∧ exec .gencodes v = .next z ∧
            ∀ sym, y.codeLenOf sym = z.codeLenOf sym ∧ y.codeBitsOf sym = z.codeBitsOf sym) ∧
  ∀ s : State, s.Inv → s.treeState = .empty → s.obitpos.toNat + 9 ≤ 8 * s.obufBytes →
    ∃ t bits, exec .serialize s = .next t ∧ t.err = s.err ∧ t.obitpos.toNat = s.obitpos.toNat + bits.length ∧
      (∀ j < bits.length, t.outputBit? (s.obitpos.toNat + j) = bits[j]?) ∧
      ∀ u : State, u.Inv → u.hasInput bits →
        ∃ v, exec .deserialize u = .next v ∧ v.err = u.err ∧ v.ibitpos.toNat = u.ibitpos.toNat + bits.length ∧
          v.treeState = .empty ∧
          (v.obitpos.toNat + bits.length ≤ 8 * v.obufBytes →
            ∃ x, exec .serialize v = .next x ∧ x.err = v.err ∧ x.obitpos.toNat = v.obitpos.toNat + bits.length ∧
              ∀ j < bits.length, x.outputBit? (v.obitpos.toNat + j) = bits[j]?)

/-- Spec R200: DECSYMS over the codes of a sequence of symbols recovers the symbols and consumes exactly those bits. -/
def Obligations.DecodingInvertsEncoding : Prop :=
  ∀ (s : State) (syms : List Byte), s.Inv → s.hasTree → s.codesValid = true → (∀ sym ∈ syms, s.codeLenOf sym ≠ 0) →
    syms.length = s.len.toNat → s.hasInput (s.codeBitsFor syms) →
    s.obitpos.toNat + 8 * syms.length ≤ 8 * s.obufBytes →
    exec .decsyms s = .next { (s.emit (symbolBits syms)).consume (s.codeBitsFor syms).length with
      pend := none, done := true }

/-- Spec R186: compressing a sequence whose symbols FREQ counts, and decoding the file on any machine, gives the sequence back. -/
def Obligations.CompressDecompress : Prop :=
  ∀ (s : State) (syms : List Byte), s.Inv → s.len.toNat = syms.length → s.hasInput (symbolBits syms) →
    (∀ sym, (s.freqOf sym).toNat = syms.count sym) → s.obitpos = 0 →
    ∃ t1 t2, exec .build s = .next t1 ∧ exec .gencodes t1 = .next t2 ∧ t1.err = s.err ∧ t2.err = s.err ∧
      ((t2.fileBits syms).length ≤ 8 * s.obufBytes →
        ∃ t3 file, exec .encode t2 = .next t3 ∧ t3.err = s.err ∧ t3.obitpos.toNat = file.length ∧ file.length % 8 = 0 ∧
          (∀ j < file.length, t3.outputBit? j = file[j]?) ∧
          ∀ u : State, u.Inv → u.hasInput file → u.obitpos.toNat + 8 * syms.length ≤ 8 * u.obufBytes →
            ∃ v, exec .decode u = .next v ∧ v.err = u.err ∧ v.len = s.len ∧
              (u.obitpos = 0 → v.obitpos.toNat = 8 * syms.length) ∧
              ∀ j < 8 * syms.length, v.outputBit? (u.obitpos.toNat + j) = (symbolBits syms)[j]?)

/-! ### Frames -/

/-- Frame of BUILD and GENCODES: all of memory and every register but those named is unchanged. -/
def Obligations.TreeCommandsFrame : Prop :=
  (∀ s t : State, exec .build s = .next t →
    t = { s with
      arena := t.arena, root := t.root, treeState := t.treeState, codesValid := t.codesValid,
      err := t.err, errCode := t.errCode, errInfo := t.errInfo, pend := none, done := true }) ∧
  ∀ s t : State, exec .gencodes s = .next t →
    t = { s with
      codeLen := t.codeLen, codeBits := t.codeBits, codesValid := t.codesValid,
      err := t.err, errCode := t.errCode, errInfo := t.errInfo, pend := none, done := true }

/-- Frame of SERIALIZE, PUTLEN and FLUSH: only the output stream changes, and in OBUF only the bytes the cursor completes. -/
def Obligations.OutputCommandsFrame : Prop :=
  ∀ i ∈ [Instr.serialize, Instr.putlen, Instr.flush], ∀ s t : State, s.SizesInv → exec i s = .next t →
    t = { s with
      obitpos := t.obitpos, oacc := t.oacc, obuf := t.obuf,
      err := t.err, errCode := t.errCode, errInfo := t.errInfo, pend := none, done := true } ∧
    s.obitpos.toNat ≤ t.obitpos.toNat ∧ storesOnlyOutput s t

/-- Frame of DESERIALIZE and GETLEN: all of memory and every register but those named is unchanged. -/
def Obligations.InputCommandsFrame : Prop :=
  (∀ s t : State, exec .deserialize s = .next t →
    t = { s with
      arena := t.arena, root := t.root, treeState := t.treeState, codesValid := false, ibitpos := t.ibitpos,
      draws := t.draws, err := t.err, errCode := t.errCode, errInfo := t.errInfo, pend := none, done := true }) ∧
  ∀ s t : State, exec .getlen s = .next t →
    t = { s with
      len := t.len, ibitpos := t.ibitpos, draws := t.draws,
      err := t.err, errCode := t.errCode, errInfo := t.errInfo, pend := none, done := true }

/-- Frame of ENCSYMS, DECSYMS and ENCODE, and of DECODE: only the streams (and for DECODE the tree and LEN) change, and in
OBUF only the bytes the cursor completes. -/
def Obligations.StreamCommandsFrame : Prop :=
  (∀ i ∈ [Instr.encsyms, Instr.decsyms, Instr.encode], ∀ s t : State, s.SizesInv → exec i s = .next t →
    t = { s with
      ibitpos := t.ibitpos, draws := t.draws, obitpos := t.obitpos, oacc := t.oacc, obuf := t.obuf,
      err := t.err, errCode := t.errCode, errInfo := t.errInfo, pend := none, done := true } ∧
    s.obitpos.toNat ≤ t.obitpos.toNat ∧ storesOnlyOutput s t) ∧
  ∀ s t : State, s.SizesInv → exec .decode s = .next t →
    t = { s with
      arena := t.arena, root := t.root, treeState := t.treeState, codesValid := false, len := t.len,
      ibitpos := t.ibitpos, draws := t.draws, obitpos := t.obitpos, oacc := t.oacc, obuf := t.obuf,
      err := t.err, errCode := t.errCode, errInfo := t.errInfo, pend := none, done := true } ∧
    s.obitpos.toNat ≤ t.obitpos.toNat ∧ storesOnlyOutput s t

/-! ### Invariants -/

/-- The invariant holds right after reset. -/
def Obligations.InvariantAtReset : Prop := State.reset.Inv

/-- Every step keeps the invariant: canonical memory, cursors within their buffers, consistent flags, a legal arena and tree,
and a code table that belongs to the current tree (spec R6, R26, R28, R31 to R33, R35, R36, R226). -/
def Obligations.StepKeepsInvariant : Prop :=
  ∀ s t : State, s.Inv → step s = .next t → t.Inv

/-- Spec R221, R251, R258: from a state that meets the invariant no step stops (no fault or refusal of the model is reachable),
and every accepted command completes in the core's step, whether it ends normally or by a fault. -/
def Obligations.EveryCommandCompletes : Prop :=
  (∀ s : State, s.Inv → ∃ t, step s = .next t) ∧
  (∀ (s : State) (w : Word), s.Inv → s.coreNext → s.pend = some w →
    ∃ t, step s = .next t ∧ t.busy = false ∧ t.done = true ∧ t.lastOp = s.lastOp)
end

