-- ==== Sys2Proof/Laws/Memory.lean ====
section
/-! SUPPORT. The laws of buffer memory: read after write, what else stays, and the canonical form (spec R71, R72, R241). -/

namespace Sys2Proof.Machine

/-- A byte reads as written, and every other byte as before. -/
theorem memLookup_memWrite (mem : List Host.Cell) (a b : Nat) (v : Byte) :
    memLookup (memWrite mem a v) b = if b = a then some v else memLookup mem b := by
  induction mem with
  | nil => simp [memWrite, memLookup, eq_comm]
  | cons c rest ih =>
    obtain ⟨k, u⟩ := c
    simp only [memWrite]
    split
    · simp only [memLookup, eq_comm]
    · split
      · subst_vars
        simp only [memLookup]
        grind
      · simp only [memLookup, ih]
        grind

/-- Dropping the bytes from `a` on leaves those below and removes the rest. -/
theorem memLookup_memDropFrom (mem : List Host.Cell) (a b : Nat) :
    memLookup (memDropFrom mem a) b = if b < a then memLookup mem b else none := by
  induction mem with
  | nil => simp [memDropFrom, memLookup]
  | cons c rest ih =>
    obtain ⟨k, u⟩ := c
    simp only [memDropFrom, List.filter_cons] at ih ⊢
    split <;> simp only [memLookup, ih] <;> grind

/-- A list with a new head is canonical exactly when its tail is and the head lies below every address of the tail. -/
theorem Memory.wf_cons (c : Host.Cell) (mem : List Host.Cell) :
    Memory.wf (c :: mem) = true ↔ (∀ d ∈ mem, c.1 < d.1) ∧ Memory.wf mem = true := by
  induction mem generalizing c with
  | nil => simp [Memory.wf]
  | cons d rest ih =>
    simp only [Memory.wf, Bool.and_eq_true, decide_eq_true_eq, ih d, List.mem_cons]
    constructor
    · rintro ⟨h, hd, hr⟩
      refine ⟨?_, hd, hr⟩
      rintro e (rfl | he)
      · exact h
      · exact h.trans (hd e he)
    · rintro ⟨h, hd, hr⟩
      exact ⟨h d (.inl rfl), hd, hr⟩

/-- A cell of the written memory is the new one or an old one. -/
theorem mem_memWrite (mem : List Host.Cell) (a : Nat) (v : Byte) (c : Host.Cell) (h : c ∈ memWrite mem a v) :
    c = (a, v) ∨ c ∈ mem := by
  induction mem with
  | nil => simpa [memWrite] using h
  | cons d rest ih =>
    obtain ⟨k, u⟩ := d
    simp only [memWrite] at h
    split at h
    · simpa using h
    · split at h
      · simp only [List.mem_cons] at h ⊢; tauto
      · simp only [List.mem_cons] at h ⊢
        rcases h with h | h
        · exact .inr (.inl h)
        · rcases ih h with h | h
          · exact .inl h
          · exact .inr (.inr h)

/-- Writing keeps the canonical form. -/
theorem Memory.wf_memWrite (mem : List Host.Cell) (a : Nat) (v : Byte) (h : Memory.wf mem = true) :
    Memory.wf (memWrite mem a v) = true := by
  induction mem with
  | nil => rfl
  | cons c rest ih =>
    obtain ⟨k, u⟩ := c
    have hc := (Memory.wf_cons _ _).1 h
    simp only [memWrite]
    split
    · rename_i hlt
      refine (Memory.wf_cons _ _).2 ⟨?_, h⟩
      intro d hd
      rcases List.mem_cons.1 hd with rfl | hd
      · exact hlt
      · exact hlt.trans (hc.1 d hd)
    · split
      · subst_vars
        exact (Memory.wf_cons _ _).2 ⟨hc.1, hc.2⟩
      · refine (Memory.wf_cons _ _).2 ⟨?_, ih hc.2⟩
        intro d hd
        rcases mem_memWrite _ _ _ _ hd with rfl | hd
        · simp only; omega
        · exact hc.1 d hd

/-- Dropping bytes keeps the canonical form. -/
theorem Memory.wf_memDropFrom (mem : List Host.Cell) (a : Nat) (h : Memory.wf mem = true) :
    Memory.wf (memDropFrom mem a) = true := by
  induction mem with
  | nil => rfl
  | cons c rest ih =>
    have hc := (Memory.wf_cons _ _).1 h
    simp only [memDropFrom, List.filter_cons] at ih ⊢
    split
    · exact (Memory.wf_cons _ _).2 ⟨fun d hd => hc.1 d (List.mem_filter.1 hd).1, ih hc.2⟩
    · exact ih hc.2

/-- Both buffers are canonical right after reset: nothing is listed. -/
theorem State.reset_memory_wf : Memory.wf State.reset.ibuf = true ∧ Memory.wf State.reset.obuf = true := ⟨rfl, rfl⟩

/-- A host write through IBUF_DATA keeps the canonical form (spec R41). -/
theorem State.writeIbufData_wf (s : State) (v : Word) (h : Memory.wf s.ibuf = true) :
    Memory.wf (s.writeIbufData v).ibuf = true := by
  unfold State.writeIbufData
  split
  · exact Memory.wf_memWrite _ _ _ h
  · exact h

/-- Producing a bit keeps the canonical form of OBUF (spec R80). -/
theorem State.emitBit_wf (s : State) (b : Bool) (h : Memory.wf s.obuf = true) : Memory.wf (s.emitBit b).obuf = true := by
  unfold State.emitBit
  dsimp only
  split
  · exact Memory.wf_memWrite _ _ _ h
  · exact h

/-- A reset keeps the canonical form of OBUF (spec R241). -/
theorem State.resetEvent_wf (s : State) (h : Memory.wf s.obuf = true) : Memory.wf s.resetEvent.obuf = true := by
  change Memory.wf s.obufAfterReset = true
  unfold State.obufAfterReset
  split
  · exact Memory.wf_memDropFrom _ _ h
  · exact h

end Sys2Proof.Machine
end

