-- ==== Sys2Proof/Laws/State.lean ====
section
/-! SUPPORT. What each update of the state leaves in each field: one lemma per field per update. -/

namespace Sys2Proof.Machine

/-! ### accept -/

@[simp] theorem State.accept_pend (s : State) (w : Word) : (s.accept w).pend = some w := rfl
@[simp] theorem State.accept_done (s : State) (w : Word) : (s.accept w).done = false := rfl
@[simp] theorem State.accept_err (s : State) (w : Word) : (s.accept w).err = s.err := rfl
@[simp] theorem State.accept_cmdOvr (s : State) (w : Word) : (s.accept w).cmdOvr = s.cmdOvr := rfl
@[simp] theorem State.accept_cmdRej (s : State) (w : Word) : (s.accept w).cmdRej = s.cmdRej := rfl
@[simp] theorem State.accept_busErr (s : State) (w : Word) : (s.accept w).busErr = s.busErr := rfl
@[simp] theorem State.accept_treeState (s : State) (w : Word) : (s.accept w).treeState = s.treeState := rfl
@[simp] theorem State.accept_codesValid (s : State) (w : Word) : (s.accept w).codesValid = s.codesValid := rfl
@[simp] theorem State.accept_errCode (s : State) (w : Word) : (s.accept w).errCode = s.errCode := rfl
@[simp] theorem State.accept_lastOp (s : State) (w : Word) : (s.accept w).lastOp = w.extractLsb' 0 8 := rfl
@[simp] theorem State.accept_errInfo (s : State) (w : Word) : (s.accept w).errInfo = s.errInfo := rfl
@[simp] theorem State.accept_len (s : State) (w : Word) : (s.accept w).len = s.len := rfl
@[simp] theorem State.accept_inLen (s : State) (w : Word) : (s.accept w).inLen = s.inLen := rfl
@[simp] theorem State.accept_ibitpos (s : State) (w : Word) : (s.accept w).ibitpos = s.ibitpos := rfl
@[simp] theorem State.accept_obitpos (s : State) (w : Word) : (s.accept w).obitpos = s.obitpos := rfl
@[simp] theorem State.accept_oacc (s : State) (w : Word) : (s.accept w).oacc = s.oacc := rfl
@[simp] theorem State.accept_root (s : State) (w : Word) : (s.accept w).root = s.root := rfl
@[simp] theorem State.accept_arena (s : State) (w : Word) : (s.accept w).arena = s.arena := rfl
@[simp] theorem State.accept_freq (s : State) (w : Word) : (s.accept w).freq = s.freq := rfl
@[simp] theorem State.accept_codeLen (s : State) (w : Word) : (s.accept w).codeLen = s.codeLen := rfl
@[simp] theorem State.accept_codeBits (s : State) (w : Word) : (s.accept w).codeBits = s.codeBits := rfl
@[simp] theorem State.accept_doneIe (s : State) (w : Word) : (s.accept w).doneIe = s.doneIe := rfl
@[simp] theorem State.accept_errIe (s : State) (w : Word) : (s.accept w).errIe = s.errIe := rfl
@[simp] theorem State.accept_nodeSel (s : State) (w : Word) : (s.accept w).nodeSel = s.nodeSel := rfl
@[simp] theorem State.accept_symSel (s : State) (w : Word) : (s.accept w).symSel = s.symSel := rfl
@[simp] theorem State.accept_ibufAddr (s : State) (w : Word) : (s.accept w).ibufAddr = s.ibufAddr := rfl
@[simp] theorem State.accept_obufAddr (s : State) (w : Word) : (s.accept w).obufAddr = s.obufAddr := rfl
@[simp] theorem State.accept_ibuf (s : State) (w : Word) : (s.accept w).ibuf = s.ibuf := rfl
@[simp] theorem State.accept_obuf (s : State) (w : Word) : (s.accept w).obuf = s.obuf := rfl
@[simp] theorem State.accept_ibufBytes (s : State) (w : Word) : (s.accept w).ibufBytes = s.ibufBytes := rfl
@[simp] theorem State.accept_obufBytes (s : State) (w : Word) : (s.accept w).obufBytes = s.obufBytes := rfl
@[simp] theorem State.accept_draws (s : State) (w : Word) : (s.accept w).draws = s.draws := rfl
@[simp] theorem State.accept_agenda (s : State) (w : Word) : (s.accept w).agenda = s.agenda := rfl
@[simp] theorem State.accept_rdata (s : State) (w : Word) : (s.accept w).rdata = s.rdata := rfl

/-! ### complete -/

@[simp] theorem State.complete_pend (s : State) : (s.complete).pend = none := rfl
@[simp] theorem State.complete_done (s : State) : (s.complete).done = true := rfl
@[simp] theorem State.complete_err (s : State) : (s.complete).err = s.err := rfl
@[simp] theorem State.complete_cmdOvr (s : State) : (s.complete).cmdOvr = s.cmdOvr := rfl
@[simp] theorem State.complete_cmdRej (s : State) : (s.complete).cmdRej = s.cmdRej := rfl
@[simp] theorem State.complete_busErr (s : State) : (s.complete).busErr = s.busErr := rfl
@[simp] theorem State.complete_treeState (s : State) : (s.complete).treeState = s.treeState := rfl
@[simp] theorem State.complete_codesValid (s : State) : (s.complete).codesValid = s.codesValid := rfl
@[simp] theorem State.complete_errCode (s : State) : (s.complete).errCode = s.errCode := rfl
@[simp] theorem State.complete_lastOp (s : State) : (s.complete).lastOp = s.lastOp := rfl
@[simp] theorem State.complete_errInfo (s : State) : (s.complete).errInfo = s.errInfo := rfl
@[simp] theorem State.complete_len (s : State) : (s.complete).len = s.len := rfl
@[simp] theorem State.complete_inLen (s : State) : (s.complete).inLen = s.inLen := rfl
@[simp] theorem State.complete_ibitpos (s : State) : (s.complete).ibitpos = s.ibitpos := rfl
@[simp] theorem State.complete_obitpos (s : State) : (s.complete).obitpos = s.obitpos := rfl
@[simp] theorem State.complete_oacc (s : State) : (s.complete).oacc = s.oacc := rfl
@[simp] theorem State.complete_root (s : State) : (s.complete).root = s.root := rfl
@[simp] theorem State.complete_arena (s : State) : (s.complete).arena = s.arena := rfl
@[simp] theorem State.complete_freq (s : State) : (s.complete).freq = s.freq := rfl
@[simp] theorem State.complete_codeLen (s : State) : (s.complete).codeLen = s.codeLen := rfl
@[simp] theorem State.complete_codeBits (s : State) : (s.complete).codeBits = s.codeBits := rfl
@[simp] theorem State.complete_doneIe (s : State) : (s.complete).doneIe = s.doneIe := rfl
@[simp] theorem State.complete_errIe (s : State) : (s.complete).errIe = s.errIe := rfl
@[simp] theorem State.complete_nodeSel (s : State) : (s.complete).nodeSel = s.nodeSel := rfl
@[simp] theorem State.complete_symSel (s : State) : (s.complete).symSel = s.symSel := rfl
@[simp] theorem State.complete_ibufAddr (s : State) : (s.complete).ibufAddr = s.ibufAddr := rfl
@[simp] theorem State.complete_obufAddr (s : State) : (s.complete).obufAddr = s.obufAddr := rfl
@[simp] theorem State.complete_ibuf (s : State) : (s.complete).ibuf = s.ibuf := rfl
@[simp] theorem State.complete_obuf (s : State) : (s.complete).obuf = s.obuf := rfl
@[simp] theorem State.complete_ibufBytes (s : State) : (s.complete).ibufBytes = s.ibufBytes := rfl
@[simp] theorem State.complete_obufBytes (s : State) : (s.complete).obufBytes = s.obufBytes := rfl
@[simp] theorem State.complete_draws (s : State) : (s.complete).draws = s.draws := rfl
@[simp] theorem State.complete_agenda (s : State) : (s.complete).agenda = s.agenda := rfl
@[simp] theorem State.complete_rdata (s : State) : (s.complete).rdata = s.rdata := rfl

/-! ### recordFault -/

@[simp] theorem State.recordFault_pend (s : State) (e : Err) (info : Word) : (s.recordFault e info).pend = s.pend := rfl
@[simp] theorem State.recordFault_done (s : State) (e : Err) (info : Word) : (s.recordFault e info).done = s.done := rfl
@[simp] theorem State.recordFault_err (s : State) (e : Err) (info : Word) : (s.recordFault e info).err = true := rfl
@[simp] theorem State.recordFault_cmdOvr (s : State) (e : Err) (info : Word) : (s.recordFault e info).cmdOvr = s.cmdOvr := rfl
@[simp] theorem State.recordFault_cmdRej (s : State) (e : Err) (info : Word) : (s.recordFault e info).cmdRej = s.cmdRej := rfl
@[simp] theorem State.recordFault_busErr (s : State) (e : Err) (info : Word) : (s.recordFault e info).busErr = s.busErr := rfl
@[simp] theorem State.recordFault_treeState (s : State) (e : Err) (info : Word) : (s.recordFault e info).treeState = s.treeState := rfl
@[simp] theorem State.recordFault_codesValid (s : State) (e : Err) (info : Word) : (s.recordFault e info).codesValid = s.codesValid := rfl
@[simp] theorem State.recordFault_errCode (s : State) (e : Err) (info : Word) : (s.recordFault e info).errCode = e.code := rfl
@[simp] theorem State.recordFault_lastOp (s : State) (e : Err) (info : Word) : (s.recordFault e info).lastOp = s.lastOp := rfl
@[simp] theorem State.recordFault_errInfo (s : State) (e : Err) (info : Word) : (s.recordFault e info).errInfo = info := rfl
@[simp] theorem State.recordFault_len (s : State) (e : Err) (info : Word) : (s.recordFault e info).len = s.len := rfl
@[simp] theorem State.recordFault_inLen (s : State) (e : Err) (info : Word) : (s.recordFault e info).inLen = s.inLen := rfl
@[simp] theorem State.recordFault_ibitpos (s : State) (e : Err) (info : Word) : (s.recordFault e info).ibitpos = s.ibitpos := rfl
@[simp] theorem State.recordFault_obitpos (s : State) (e : Err) (info : Word) : (s.recordFault e info).obitpos = s.obitpos := rfl
@[simp] theorem State.recordFault_oacc (s : State) (e : Err) (info : Word) : (s.recordFault e info).oacc = s.oacc := rfl
@[simp] theorem State.recordFault_root (s : State) (e : Err) (info : Word) : (s.recordFault e info).root = s.root := rfl
@[simp] theorem State.recordFault_arena (s : State) (e : Err) (info : Word) : (s.recordFault e info).arena = s.arena := rfl
@[simp] theorem State.recordFault_freq (s : State) (e : Err) (info : Word) : (s.recordFault e info).freq = s.freq := rfl
@[simp] theorem State.recordFault_codeLen (s : State) (e : Err) (info : Word) : (s.recordFault e info).codeLen = s.codeLen := rfl
@[simp] theorem State.recordFault_codeBits (s : State) (e : Err) (info : Word) : (s.recordFault e info).codeBits = s.codeBits := rfl
@[simp] theorem State.recordFault_doneIe (s : State) (e : Err) (info : Word) : (s.recordFault e info).doneIe = s.doneIe := rfl
@[simp] theorem State.recordFault_errIe (s : State) (e : Err) (info : Word) : (s.recordFault e info).errIe = s.errIe := rfl
@[simp] theorem State.recordFault_nodeSel (s : State) (e : Err) (info : Word) : (s.recordFault e info).nodeSel = s.nodeSel := rfl
@[simp] theorem State.recordFault_symSel (s : State) (e : Err) (info : Word) : (s.recordFault e info).symSel = s.symSel := rfl
@[simp] theorem State.recordFault_ibufAddr (s : State) (e : Err) (info : Word) : (s.recordFault e info).ibufAddr = s.ibufAddr := rfl
@[simp] theorem State.recordFault_obufAddr (s : State) (e : Err) (info : Word) : (s.recordFault e info).obufAddr = s.obufAddr := rfl
@[simp] theorem State.recordFault_ibuf (s : State) (e : Err) (info : Word) : (s.recordFault e info).ibuf = s.ibuf := rfl
@[simp] theorem State.recordFault_obuf (s : State) (e : Err) (info : Word) : (s.recordFault e info).obuf = s.obuf := rfl
@[simp] theorem State.recordFault_ibufBytes (s : State) (e : Err) (info : Word) : (s.recordFault e info).ibufBytes = s.ibufBytes := rfl
@[simp] theorem State.recordFault_obufBytes (s : State) (e : Err) (info : Word) : (s.recordFault e info).obufBytes = s.obufBytes := rfl
@[simp] theorem State.recordFault_draws (s : State) (e : Err) (info : Word) : (s.recordFault e info).draws = s.draws := rfl
@[simp] theorem State.recordFault_agenda (s : State) (e : Err) (info : Word) : (s.recordFault e info).agenda = s.agenda := rfl
@[simp] theorem State.recordFault_rdata (s : State) (e : Err) (info : Word) : (s.recordFault e info).rdata = s.rdata := rfl

/-! ### clearFault -/

@[simp] theorem State.clearFault_pend (s : State) : (s.clearFault).pend = s.pend := rfl
@[simp] theorem State.clearFault_done (s : State) : (s.clearFault).done = s.done := rfl
@[simp] theorem State.clearFault_err (s : State) : (s.clearFault).err = false := rfl
@[simp] theorem State.clearFault_cmdOvr (s : State) : (s.clearFault).cmdOvr = s.cmdOvr := rfl
@[simp] theorem State.clearFault_cmdRej (s : State) : (s.clearFault).cmdRej = s.cmdRej := rfl
@[simp] theorem State.clearFault_busErr (s : State) : (s.clearFault).busErr = s.busErr := rfl
@[simp] theorem State.clearFault_treeState (s : State) : (s.clearFault).treeState = s.treeState := rfl
@[simp] theorem State.clearFault_codesValid (s : State) : (s.clearFault).codesValid = s.codesValid := rfl
@[simp] theorem State.clearFault_errCode (s : State) : (s.clearFault).errCode = 0 := rfl
@[simp] theorem State.clearFault_lastOp (s : State) : (s.clearFault).lastOp = s.lastOp := rfl
@[simp] theorem State.clearFault_errInfo (s : State) : (s.clearFault).errInfo = 0 := rfl
@[simp] theorem State.clearFault_len (s : State) : (s.clearFault).len = s.len := rfl
@[simp] theorem State.clearFault_inLen (s : State) : (s.clearFault).inLen = s.inLen := rfl
@[simp] theorem State.clearFault_ibitpos (s : State) : (s.clearFault).ibitpos = s.ibitpos := rfl
@[simp] theorem State.clearFault_obitpos (s : State) : (s.clearFault).obitpos = s.obitpos := rfl
@[simp] theorem State.clearFault_oacc (s : State) : (s.clearFault).oacc = s.oacc := rfl
@[simp] theorem State.clearFault_root (s : State) : (s.clearFault).root = s.root := rfl
@[simp] theorem State.clearFault_arena (s : State) : (s.clearFault).arena = s.arena := rfl
@[simp] theorem State.clearFault_freq (s : State) : (s.clearFault).freq = s.freq := rfl
@[simp] theorem State.clearFault_codeLen (s : State) : (s.clearFault).codeLen = s.codeLen := rfl
@[simp] theorem State.clearFault_codeBits (s : State) : (s.clearFault).codeBits = s.codeBits := rfl
@[simp] theorem State.clearFault_doneIe (s : State) : (s.clearFault).doneIe = s.doneIe := rfl
@[simp] theorem State.clearFault_errIe (s : State) : (s.clearFault).errIe = s.errIe := rfl
@[simp] theorem State.clearFault_nodeSel (s : State) : (s.clearFault).nodeSel = s.nodeSel := rfl
@[simp] theorem State.clearFault_symSel (s : State) : (s.clearFault).symSel = s.symSel := rfl
@[simp] theorem State.clearFault_ibufAddr (s : State) : (s.clearFault).ibufAddr = s.ibufAddr := rfl
@[simp] theorem State.clearFault_obufAddr (s : State) : (s.clearFault).obufAddr = s.obufAddr := rfl
@[simp] theorem State.clearFault_ibuf (s : State) : (s.clearFault).ibuf = s.ibuf := rfl
@[simp] theorem State.clearFault_obuf (s : State) : (s.clearFault).obuf = s.obuf := rfl
@[simp] theorem State.clearFault_ibufBytes (s : State) : (s.clearFault).ibufBytes = s.ibufBytes := rfl
@[simp] theorem State.clearFault_obufBytes (s : State) : (s.clearFault).obufBytes = s.obufBytes := rfl
@[simp] theorem State.clearFault_draws (s : State) : (s.clearFault).draws = s.draws := rfl
@[simp] theorem State.clearFault_agenda (s : State) : (s.clearFault).agenda = s.agenda := rfl
@[simp] theorem State.clearFault_rdata (s : State) : (s.clearFault).rdata = s.rdata := rfl

/-! ### setBusErr -/

@[simp] theorem State.setBusErr_pend (s : State) : (s.setBusErr).pend = s.pend := rfl
@[simp] theorem State.setBusErr_done (s : State) : (s.setBusErr).done = s.done := rfl
@[simp] theorem State.setBusErr_err (s : State) : (s.setBusErr).err = s.err := rfl
@[simp] theorem State.setBusErr_cmdOvr (s : State) : (s.setBusErr).cmdOvr = s.cmdOvr := rfl
@[simp] theorem State.setBusErr_cmdRej (s : State) : (s.setBusErr).cmdRej = s.cmdRej := rfl
@[simp] theorem State.setBusErr_busErr (s : State) : (s.setBusErr).busErr = true := rfl
@[simp] theorem State.setBusErr_treeState (s : State) : (s.setBusErr).treeState = s.treeState := rfl
@[simp] theorem State.setBusErr_codesValid (s : State) : (s.setBusErr).codesValid = s.codesValid := rfl
@[simp] theorem State.setBusErr_errCode (s : State) : (s.setBusErr).errCode = s.errCode := rfl
@[simp] theorem State.setBusErr_lastOp (s : State) : (s.setBusErr).lastOp = s.lastOp := rfl
@[simp] theorem State.setBusErr_errInfo (s : State) : (s.setBusErr).errInfo = s.errInfo := rfl
@[simp] theorem State.setBusErr_len (s : State) : (s.setBusErr).len = s.len := rfl
@[simp] theorem State.setBusErr_inLen (s : State) : (s.setBusErr).inLen = s.inLen := rfl
@[simp] theorem State.setBusErr_ibitpos (s : State) : (s.setBusErr).ibitpos = s.ibitpos := rfl
@[simp] theorem State.setBusErr_obitpos (s : State) : (s.setBusErr).obitpos = s.obitpos := rfl
@[simp] theorem State.setBusErr_oacc (s : State) : (s.setBusErr).oacc = s.oacc := rfl
@[simp] theorem State.setBusErr_root (s : State) : (s.setBusErr).root = s.root := rfl
@[simp] theorem State.setBusErr_arena (s : State) : (s.setBusErr).arena = s.arena := rfl
@[simp] theorem State.setBusErr_freq (s : State) : (s.setBusErr).freq = s.freq := rfl
@[simp] theorem State.setBusErr_codeLen (s : State) : (s.setBusErr).codeLen = s.codeLen := rfl
@[simp] theorem State.setBusErr_codeBits (s : State) : (s.setBusErr).codeBits = s.codeBits := rfl
@[simp] theorem State.setBusErr_doneIe (s : State) : (s.setBusErr).doneIe = s.doneIe := rfl
@[simp] theorem State.setBusErr_errIe (s : State) : (s.setBusErr).errIe = s.errIe := rfl
@[simp] theorem State.setBusErr_nodeSel (s : State) : (s.setBusErr).nodeSel = s.nodeSel := rfl
@[simp] theorem State.setBusErr_symSel (s : State) : (s.setBusErr).symSel = s.symSel := rfl
@[simp] theorem State.setBusErr_ibufAddr (s : State) : (s.setBusErr).ibufAddr = s.ibufAddr := rfl
@[simp] theorem State.setBusErr_obufAddr (s : State) : (s.setBusErr).obufAddr = s.obufAddr := rfl
@[simp] theorem State.setBusErr_ibuf (s : State) : (s.setBusErr).ibuf = s.ibuf := rfl
@[simp] theorem State.setBusErr_obuf (s : State) : (s.setBusErr).obuf = s.obuf := rfl
@[simp] theorem State.setBusErr_ibufBytes (s : State) : (s.setBusErr).ibufBytes = s.ibufBytes := rfl
@[simp] theorem State.setBusErr_obufBytes (s : State) : (s.setBusErr).obufBytes = s.obufBytes := rfl
@[simp] theorem State.setBusErr_draws (s : State) : (s.setBusErr).draws = s.draws := rfl
@[simp] theorem State.setBusErr_agenda (s : State) : (s.setBusErr).agenda = s.agenda := rfl
@[simp] theorem State.setBusErr_rdata (s : State) : (s.setBusErr).rdata = s.rdata := rfl

/-! ### dropTree -/

@[simp] theorem State.dropTree_pend (s : State) : (s.dropTree).pend = s.pend := rfl
@[simp] theorem State.dropTree_done (s : State) : (s.dropTree).done = s.done := rfl
@[simp] theorem State.dropTree_err (s : State) : (s.dropTree).err = s.err := rfl
@[simp] theorem State.dropTree_cmdOvr (s : State) : (s.dropTree).cmdOvr = s.cmdOvr := rfl
@[simp] theorem State.dropTree_cmdRej (s : State) : (s.dropTree).cmdRej = s.cmdRej := rfl
@[simp] theorem State.dropTree_busErr (s : State) : (s.dropTree).busErr = s.busErr := rfl
@[simp] theorem State.dropTree_treeState (s : State) : (s.dropTree).treeState = .invalid := rfl
@[simp] theorem State.dropTree_codesValid (s : State) : (s.dropTree).codesValid = false := rfl
@[simp] theorem State.dropTree_errCode (s : State) : (s.dropTree).errCode = s.errCode := rfl
@[simp] theorem State.dropTree_lastOp (s : State) : (s.dropTree).lastOp = s.lastOp := rfl
@[simp] theorem State.dropTree_errInfo (s : State) : (s.dropTree).errInfo = s.errInfo := rfl
@[simp] theorem State.dropTree_len (s : State) : (s.dropTree).len = s.len := rfl
@[simp] theorem State.dropTree_inLen (s : State) : (s.dropTree).inLen = s.inLen := rfl
@[simp] theorem State.dropTree_ibitpos (s : State) : (s.dropTree).ibitpos = s.ibitpos := rfl
@[simp] theorem State.dropTree_obitpos (s : State) : (s.dropTree).obitpos = s.obitpos := rfl
@[simp] theorem State.dropTree_oacc (s : State) : (s.dropTree).oacc = s.oacc := rfl
@[simp] theorem State.dropTree_root (s : State) : (s.dropTree).root = Config.nil := rfl
@[simp] theorem State.dropTree_arena (s : State) : (s.dropTree).arena = [] := rfl
@[simp] theorem State.dropTree_freq (s : State) : (s.dropTree).freq = s.freq := rfl
@[simp] theorem State.dropTree_codeLen (s : State) : (s.dropTree).codeLen = s.codeLen := rfl
@[simp] theorem State.dropTree_codeBits (s : State) : (s.dropTree).codeBits = s.codeBits := rfl
@[simp] theorem State.dropTree_doneIe (s : State) : (s.dropTree).doneIe = s.doneIe := rfl
@[simp] theorem State.dropTree_errIe (s : State) : (s.dropTree).errIe = s.errIe := rfl
@[simp] theorem State.dropTree_nodeSel (s : State) : (s.dropTree).nodeSel = s.nodeSel := rfl
@[simp] theorem State.dropTree_symSel (s : State) : (s.dropTree).symSel = s.symSel := rfl
@[simp] theorem State.dropTree_ibufAddr (s : State) : (s.dropTree).ibufAddr = s.ibufAddr := rfl
@[simp] theorem State.dropTree_obufAddr (s : State) : (s.dropTree).obufAddr = s.obufAddr := rfl
@[simp] theorem State.dropTree_ibuf (s : State) : (s.dropTree).ibuf = s.ibuf := rfl
@[simp] theorem State.dropTree_obuf (s : State) : (s.dropTree).obuf = s.obuf := rfl
@[simp] theorem State.dropTree_ibufBytes (s : State) : (s.dropTree).ibufBytes = s.ibufBytes := rfl
@[simp] theorem State.dropTree_obufBytes (s : State) : (s.dropTree).obufBytes = s.obufBytes := rfl
@[simp] theorem State.dropTree_draws (s : State) : (s.dropTree).draws = s.draws := rfl
@[simp] theorem State.dropTree_agenda (s : State) : (s.dropTree).agenda = s.agenda := rfl
@[simp] theorem State.dropTree_rdata (s : State) : (s.dropTree).rdata = s.rdata := rfl

/-! ### setArena -/

@[simp] theorem State.setArena_pend (s : State) (a : List Node) : (s.setArena a).pend = s.pend := rfl
@[simp] theorem State.setArena_done (s : State) (a : List Node) : (s.setArena a).done = s.done := rfl
@[simp] theorem State.setArena_err (s : State) (a : List Node) : (s.setArena a).err = s.err := rfl
@[simp] theorem State.setArena_cmdOvr (s : State) (a : List Node) : (s.setArena a).cmdOvr = s.cmdOvr := rfl
@[simp] theorem State.setArena_cmdRej (s : State) (a : List Node) : (s.setArena a).cmdRej = s.cmdRej := rfl
@[simp] theorem State.setArena_busErr (s : State) (a : List Node) : (s.setArena a).busErr = s.busErr := rfl
@[simp] theorem State.setArena_treeState (s : State) (a : List Node) : (s.setArena a).treeState = s.treeState := rfl
@[simp] theorem State.setArena_codesValid (s : State) (a : List Node) : (s.setArena a).codesValid = s.codesValid := rfl
@[simp] theorem State.setArena_errCode (s : State) (a : List Node) : (s.setArena a).errCode = s.errCode := rfl
@[simp] theorem State.setArena_lastOp (s : State) (a : List Node) : (s.setArena a).lastOp = s.lastOp := rfl
@[simp] theorem State.setArena_errInfo (s : State) (a : List Node) : (s.setArena a).errInfo = s.errInfo := rfl
@[simp] theorem State.setArena_len (s : State) (a : List Node) : (s.setArena a).len = s.len := rfl
@[simp] theorem State.setArena_inLen (s : State) (a : List Node) : (s.setArena a).inLen = s.inLen := rfl
@[simp] theorem State.setArena_ibitpos (s : State) (a : List Node) : (s.setArena a).ibitpos = s.ibitpos := rfl
@[simp] theorem State.setArena_obitpos (s : State) (a : List Node) : (s.setArena a).obitpos = s.obitpos := rfl
@[simp] theorem State.setArena_oacc (s : State) (a : List Node) : (s.setArena a).oacc = s.oacc := rfl
@[simp] theorem State.setArena_root (s : State) (a : List Node) : (s.setArena a).root = s.root := rfl
@[simp] theorem State.setArena_arena (s : State) (a : List Node) : (s.setArena a).arena = a := rfl
@[simp] theorem State.setArena_freq (s : State) (a : List Node) : (s.setArena a).freq = s.freq := rfl
@[simp] theorem State.setArena_codeLen (s : State) (a : List Node) : (s.setArena a).codeLen = s.codeLen := rfl
@[simp] theorem State.setArena_codeBits (s : State) (a : List Node) : (s.setArena a).codeBits = s.codeBits := rfl
@[simp] theorem State.setArena_doneIe (s : State) (a : List Node) : (s.setArena a).doneIe = s.doneIe := rfl
@[simp] theorem State.setArena_errIe (s : State) (a : List Node) : (s.setArena a).errIe = s.errIe := rfl
@[simp] theorem State.setArena_nodeSel (s : State) (a : List Node) : (s.setArena a).nodeSel = s.nodeSel := rfl
@[simp] theorem State.setArena_symSel (s : State) (a : List Node) : (s.setArena a).symSel = s.symSel := rfl
@[simp] theorem State.setArena_ibufAddr (s : State) (a : List Node) : (s.setArena a).ibufAddr = s.ibufAddr := rfl
@[simp] theorem State.setArena_obufAddr (s : State) (a : List Node) : (s.setArena a).obufAddr = s.obufAddr := rfl
@[simp] theorem State.setArena_ibuf (s : State) (a : List Node) : (s.setArena a).ibuf = s.ibuf := rfl
@[simp] theorem State.setArena_obuf (s : State) (a : List Node) : (s.setArena a).obuf = s.obuf := rfl
@[simp] theorem State.setArena_ibufBytes (s : State) (a : List Node) : (s.setArena a).ibufBytes = s.ibufBytes := rfl
@[simp] theorem State.setArena_obufBytes (s : State) (a : List Node) : (s.setArena a).obufBytes = s.obufBytes := rfl
@[simp] theorem State.setArena_draws (s : State) (a : List Node) : (s.setArena a).draws = s.draws := rfl
@[simp] theorem State.setArena_agenda (s : State) (a : List Node) : (s.setArena a).agenda = s.agenda := rfl
@[simp] theorem State.setArena_rdata (s : State) (a : List Node) : (s.setArena a).rdata = s.rdata := rfl

/-! ### writeStatus -/

@[simp] theorem State.writeStatus_pend (s : State) (v : Word) : (s.writeStatus v).pend = s.pend := rfl
@[simp] theorem State.writeStatus_done (s : State) (v : Word) : (s.writeStatus v).done = (s.done && !v.getLsbD 1) := rfl
@[simp] theorem State.writeStatus_err (s : State) (v : Word) : (s.writeStatus v).err = s.err := rfl
@[simp] theorem State.writeStatus_cmdOvr (s : State) (v : Word) : (s.writeStatus v).cmdOvr = (s.cmdOvr && !v.getLsbD 3) := rfl
@[simp] theorem State.writeStatus_cmdRej (s : State) (v : Word) : (s.writeStatus v).cmdRej = (s.cmdRej && !v.getLsbD 4) := rfl
@[simp] theorem State.writeStatus_busErr (s : State) (v : Word) : (s.writeStatus v).busErr = (s.busErr && !v.getLsbD 5) := rfl
@[simp] theorem State.writeStatus_treeState (s : State) (v : Word) : (s.writeStatus v).treeState = s.treeState := rfl
@[simp] theorem State.writeStatus_codesValid (s : State) (v : Word) : (s.writeStatus v).codesValid = s.codesValid := rfl
@[simp] theorem State.writeStatus_errCode (s : State) (v : Word) : (s.writeStatus v).errCode = s.errCode := rfl
@[simp] theorem State.writeStatus_lastOp (s : State) (v : Word) : (s.writeStatus v).lastOp = s.lastOp := rfl
@[simp] theorem State.writeStatus_errInfo (s : State) (v : Word) : (s.writeStatus v).errInfo = s.errInfo := rfl
@[simp] theorem State.writeStatus_len (s : State) (v : Word) : (s.writeStatus v).len = s.len := rfl
@[simp] theorem State.writeStatus_inLen (s : State) (v : Word) : (s.writeStatus v).inLen = s.inLen := rfl
@[simp] theorem State.writeStatus_ibitpos (s : State) (v : Word) : (s.writeStatus v).ibitpos = s.ibitpos := rfl
@[simp] theorem State.writeStatus_obitpos (s : State) (v : Word) : (s.writeStatus v).obitpos = s.obitpos := rfl
@[simp] theorem State.writeStatus_oacc (s : State) (v : Word) : (s.writeStatus v).oacc = s.oacc := rfl
@[simp] theorem State.writeStatus_root (s : State) (v : Word) : (s.writeStatus v).root = s.root := rfl
@[simp] theorem State.writeStatus_arena (s : State) (v : Word) : (s.writeStatus v).arena = s.arena := rfl
@[simp] theorem State.writeStatus_freq (s : State) (v : Word) : (s.writeStatus v).freq = s.freq := rfl
@[simp] theorem State.writeStatus_codeLen (s : State) (v : Word) : (s.writeStatus v).codeLen = s.codeLen := rfl
@[simp] theorem State.writeStatus_codeBits (s : State) (v : Word) : (s.writeStatus v).codeBits = s.codeBits := rfl
@[simp] theorem State.writeStatus_doneIe (s : State) (v : Word) : (s.writeStatus v).doneIe = s.doneIe := rfl
@[simp] theorem State.writeStatus_errIe (s : State) (v : Word) : (s.writeStatus v).errIe = s.errIe := rfl
@[simp] theorem State.writeStatus_nodeSel (s : State) (v : Word) : (s.writeStatus v).nodeSel = s.nodeSel := rfl
@[simp] theorem State.writeStatus_symSel (s : State) (v : Word) : (s.writeStatus v).symSel = s.symSel := rfl
@[simp] theorem State.writeStatus_ibufAddr (s : State) (v : Word) : (s.writeStatus v).ibufAddr = s.ibufAddr := rfl
@[simp] theorem State.writeStatus_obufAddr (s : State) (v : Word) : (s.writeStatus v).obufAddr = s.obufAddr := rfl
@[simp] theorem State.writeStatus_ibuf (s : State) (v : Word) : (s.writeStatus v).ibuf = s.ibuf := rfl
@[simp] theorem State.writeStatus_obuf (s : State) (v : Word) : (s.writeStatus v).obuf = s.obuf := rfl
@[simp] theorem State.writeStatus_ibufBytes (s : State) (v : Word) : (s.writeStatus v).ibufBytes = s.ibufBytes := rfl
@[simp] theorem State.writeStatus_obufBytes (s : State) (v : Word) : (s.writeStatus v).obufBytes = s.obufBytes := rfl
@[simp] theorem State.writeStatus_draws (s : State) (v : Word) : (s.writeStatus v).draws = s.draws := rfl
@[simp] theorem State.writeStatus_agenda (s : State) (v : Word) : (s.writeStatus v).agenda = s.agenda := rfl
@[simp] theorem State.writeStatus_rdata (s : State) (v : Word) : (s.writeStatus v).rdata = s.rdata := rfl

/-! ### writeIrqEn -/

@[simp] theorem State.writeIrqEn_pend (s : State) (v : Word) : (s.writeIrqEn v).pend = s.pend := rfl
@[simp] theorem State.writeIrqEn_done (s : State) (v : Word) : (s.writeIrqEn v).done = s.done := rfl
@[simp] theorem State.writeIrqEn_err (s : State) (v : Word) : (s.writeIrqEn v).err = s.err := rfl
@[simp] theorem State.writeIrqEn_cmdOvr (s : State) (v : Word) : (s.writeIrqEn v).cmdOvr = s.cmdOvr := rfl
@[simp] theorem State.writeIrqEn_cmdRej (s : State) (v : Word) : (s.writeIrqEn v).cmdRej = s.cmdRej := rfl
@[simp] theorem State.writeIrqEn_busErr (s : State) (v : Word) : (s.writeIrqEn v).busErr = s.busErr := rfl
@[simp] theorem State.writeIrqEn_treeState (s : State) (v : Word) : (s.writeIrqEn v).treeState = s.treeState := rfl
@[simp] theorem State.writeIrqEn_codesValid (s : State) (v : Word) : (s.writeIrqEn v).codesValid = s.codesValid := rfl
@[simp] theorem State.writeIrqEn_errCode (s : State) (v : Word) : (s.writeIrqEn v).errCode = s.errCode := rfl
@[simp] theorem State.writeIrqEn_lastOp (s : State) (v : Word) : (s.writeIrqEn v).lastOp = s.lastOp := rfl
@[simp] theorem State.writeIrqEn_errInfo (s : State) (v : Word) : (s.writeIrqEn v).errInfo = s.errInfo := rfl
@[simp] theorem State.writeIrqEn_len (s : State) (v : Word) : (s.writeIrqEn v).len = s.len := rfl
@[simp] theorem State.writeIrqEn_inLen (s : State) (v : Word) : (s.writeIrqEn v).inLen = s.inLen := rfl
@[simp] theorem State.writeIrqEn_ibitpos (s : State) (v : Word) : (s.writeIrqEn v).ibitpos = s.ibitpos := rfl
@[simp] theorem State.writeIrqEn_obitpos (s : State) (v : Word) : (s.writeIrqEn v).obitpos = s.obitpos := rfl
@[simp] theorem State.writeIrqEn_oacc (s : State) (v : Word) : (s.writeIrqEn v).oacc = s.oacc := rfl
@[simp] theorem State.writeIrqEn_root (s : State) (v : Word) : (s.writeIrqEn v).root = s.root := rfl
@[simp] theorem State.writeIrqEn_arena (s : State) (v : Word) : (s.writeIrqEn v).arena = s.arena := rfl
@[simp] theorem State.writeIrqEn_freq (s : State) (v : Word) : (s.writeIrqEn v).freq = s.freq := rfl
@[simp] theorem State.writeIrqEn_codeLen (s : State) (v : Word) : (s.writeIrqEn v).codeLen = s.codeLen := rfl
@[simp] theorem State.writeIrqEn_codeBits (s : State) (v : Word) : (s.writeIrqEn v).codeBits = s.codeBits := rfl
@[simp] theorem State.writeIrqEn_doneIe (s : State) (v : Word) : (s.writeIrqEn v).doneIe = v.getLsbD 0 := rfl
@[simp] theorem State.writeIrqEn_errIe (s : State) (v : Word) : (s.writeIrqEn v).errIe = v.getLsbD 1 := rfl
@[simp] theorem State.writeIrqEn_nodeSel (s : State) (v : Word) : (s.writeIrqEn v).nodeSel = s.nodeSel := rfl
@[simp] theorem State.writeIrqEn_symSel (s : State) (v : Word) : (s.writeIrqEn v).symSel = s.symSel := rfl
@[simp] theorem State.writeIrqEn_ibufAddr (s : State) (v : Word) : (s.writeIrqEn v).ibufAddr = s.ibufAddr := rfl
@[simp] theorem State.writeIrqEn_obufAddr (s : State) (v : Word) : (s.writeIrqEn v).obufAddr = s.obufAddr := rfl
@[simp] theorem State.writeIrqEn_ibuf (s : State) (v : Word) : (s.writeIrqEn v).ibuf = s.ibuf := rfl
@[simp] theorem State.writeIrqEn_obuf (s : State) (v : Word) : (s.writeIrqEn v).obuf = s.obuf := rfl
@[simp] theorem State.writeIrqEn_ibufBytes (s : State) (v : Word) : (s.writeIrqEn v).ibufBytes = s.ibufBytes := rfl
@[simp] theorem State.writeIrqEn_obufBytes (s : State) (v : Word) : (s.writeIrqEn v).obufBytes = s.obufBytes := rfl
@[simp] theorem State.writeIrqEn_draws (s : State) (v : Word) : (s.writeIrqEn v).draws = s.draws := rfl
@[simp] theorem State.writeIrqEn_agenda (s : State) (v : Word) : (s.writeIrqEn v).agenda = s.agenda := rfl
@[simp] theorem State.writeIrqEn_rdata (s : State) (v : Word) : (s.writeIrqEn v).rdata = s.rdata := rfl

/-! ### writeInLen -/

@[simp] theorem State.writeInLen_pend (s : State) (v : Word) : (s.writeInLen v).pend = s.pend := rfl
@[simp] theorem State.writeInLen_done (s : State) (v : Word) : (s.writeInLen v).done = s.done := rfl
@[simp] theorem State.writeInLen_err (s : State) (v : Word) : (s.writeInLen v).err = s.err := rfl
@[simp] theorem State.writeInLen_cmdOvr (s : State) (v : Word) : (s.writeInLen v).cmdOvr = s.cmdOvr := rfl
@[simp] theorem State.writeInLen_cmdRej (s : State) (v : Word) : (s.writeInLen v).cmdRej = s.cmdRej := rfl
@[simp] theorem State.writeInLen_busErr (s : State) (v : Word) : (s.writeInLen v).busErr = s.busErr := rfl
@[simp] theorem State.writeInLen_treeState (s : State) (v : Word) : (s.writeInLen v).treeState = s.treeState := rfl
@[simp] theorem State.writeInLen_codesValid (s : State) (v : Word) : (s.writeInLen v).codesValid = s.codesValid := rfl
@[simp] theorem State.writeInLen_errCode (s : State) (v : Word) : (s.writeInLen v).errCode = s.errCode := rfl
@[simp] theorem State.writeInLen_lastOp (s : State) (v : Word) : (s.writeInLen v).lastOp = s.lastOp := rfl
@[simp] theorem State.writeInLen_errInfo (s : State) (v : Word) : (s.writeInLen v).errInfo = s.errInfo := rfl
@[simp] theorem State.writeInLen_len (s : State) (v : Word) : (s.writeInLen v).len = s.len := rfl
@[simp] theorem State.writeInLen_inLen (s : State) (v : Word) : (s.writeInLen v).inLen = BitVec.ofNat 32 (min v.toNat s.ibufBytes) := rfl
@[simp] theorem State.writeInLen_ibitpos (s : State) (v : Word) : (s.writeInLen v).ibitpos = s.ibitpos := rfl
@[simp] theorem State.writeInLen_obitpos (s : State) (v : Word) : (s.writeInLen v).obitpos = s.obitpos := rfl
@[simp] theorem State.writeInLen_oacc (s : State) (v : Word) : (s.writeInLen v).oacc = s.oacc := rfl
@[simp] theorem State.writeInLen_root (s : State) (v : Word) : (s.writeInLen v).root = s.root := rfl
@[simp] theorem State.writeInLen_arena (s : State) (v : Word) : (s.writeInLen v).arena = s.arena := rfl
@[simp] theorem State.writeInLen_freq (s : State) (v : Word) : (s.writeInLen v).freq = s.freq := rfl
@[simp] theorem State.writeInLen_codeLen (s : State) (v : Word) : (s.writeInLen v).codeLen = s.codeLen := rfl
@[simp] theorem State.writeInLen_codeBits (s : State) (v : Word) : (s.writeInLen v).codeBits = s.codeBits := rfl
@[simp] theorem State.writeInLen_doneIe (s : State) (v : Word) : (s.writeInLen v).doneIe = s.doneIe := rfl
@[simp] theorem State.writeInLen_errIe (s : State) (v : Word) : (s.writeInLen v).errIe = s.errIe := rfl
@[simp] theorem State.writeInLen_nodeSel (s : State) (v : Word) : (s.writeInLen v).nodeSel = s.nodeSel := rfl
@[simp] theorem State.writeInLen_symSel (s : State) (v : Word) : (s.writeInLen v).symSel = s.symSel := rfl
@[simp] theorem State.writeInLen_ibufAddr (s : State) (v : Word) : (s.writeInLen v).ibufAddr = s.ibufAddr := rfl
@[simp] theorem State.writeInLen_obufAddr (s : State) (v : Word) : (s.writeInLen v).obufAddr = s.obufAddr := rfl
@[simp] theorem State.writeInLen_ibuf (s : State) (v : Word) : (s.writeInLen v).ibuf = s.ibuf := rfl
@[simp] theorem State.writeInLen_obuf (s : State) (v : Word) : (s.writeInLen v).obuf = s.obuf := rfl
@[simp] theorem State.writeInLen_ibufBytes (s : State) (v : Word) : (s.writeInLen v).ibufBytes = s.ibufBytes := rfl
@[simp] theorem State.writeInLen_obufBytes (s : State) (v : Word) : (s.writeInLen v).obufBytes = s.obufBytes := rfl
@[simp] theorem State.writeInLen_draws (s : State) (v : Word) : (s.writeInLen v).draws = s.draws := rfl
@[simp] theorem State.writeInLen_agenda (s : State) (v : Word) : (s.writeInLen v).agenda = s.agenda := rfl
@[simp] theorem State.writeInLen_rdata (s : State) (v : Word) : (s.writeInLen v).rdata = s.rdata := rfl

/-! ### popEvent -/

@[simp] theorem State.popEvent_pend (s : State) : s.popEvent.pend = s.pend := rfl
@[simp] theorem State.popEvent_done (s : State) : s.popEvent.done = s.done := rfl
@[simp] theorem State.popEvent_err (s : State) : s.popEvent.err = s.err := rfl
@[simp] theorem State.popEvent_cmdOvr (s : State) : s.popEvent.cmdOvr = s.cmdOvr := rfl
@[simp] theorem State.popEvent_cmdRej (s : State) : s.popEvent.cmdRej = s.cmdRej := rfl
@[simp] theorem State.popEvent_busErr (s : State) : s.popEvent.busErr = s.busErr := rfl
@[simp] theorem State.popEvent_treeState (s : State) : s.popEvent.treeState = s.treeState := rfl
@[simp] theorem State.popEvent_codesValid (s : State) : s.popEvent.codesValid = s.codesValid := rfl
@[simp] theorem State.popEvent_errCode (s : State) : s.popEvent.errCode = s.errCode := rfl
@[simp] theorem State.popEvent_lastOp (s : State) : s.popEvent.lastOp = s.lastOp := rfl
@[simp] theorem State.popEvent_errInfo (s : State) : s.popEvent.errInfo = s.errInfo := rfl
@[simp] theorem State.popEvent_len (s : State) : s.popEvent.len = s.len := rfl
@[simp] theorem State.popEvent_inLen (s : State) : s.popEvent.inLen = s.inLen := rfl
@[simp] theorem State.popEvent_ibitpos (s : State) : s.popEvent.ibitpos = s.ibitpos := rfl
@[simp] theorem State.popEvent_obitpos (s : State) : s.popEvent.obitpos = s.obitpos := rfl
@[simp] theorem State.popEvent_oacc (s : State) : s.popEvent.oacc = s.oacc := rfl
@[simp] theorem State.popEvent_root (s : State) : s.popEvent.root = s.root := rfl
@[simp] theorem State.popEvent_arena (s : State) : s.popEvent.arena = s.arena := rfl
@[simp] theorem State.popEvent_freq (s : State) : s.popEvent.freq = s.freq := rfl
@[simp] theorem State.popEvent_codeLen (s : State) : s.popEvent.codeLen = s.codeLen := rfl
@[simp] theorem State.popEvent_codeBits (s : State) : s.popEvent.codeBits = s.codeBits := rfl
@[simp] theorem State.popEvent_doneIe (s : State) : s.popEvent.doneIe = s.doneIe := rfl
@[simp] theorem State.popEvent_errIe (s : State) : s.popEvent.errIe = s.errIe := rfl
@[simp] theorem State.popEvent_nodeSel (s : State) : s.popEvent.nodeSel = s.nodeSel := rfl
@[simp] theorem State.popEvent_symSel (s : State) : s.popEvent.symSel = s.symSel := rfl
@[simp] theorem State.popEvent_ibufAddr (s : State) : s.popEvent.ibufAddr = s.ibufAddr := rfl
@[simp] theorem State.popEvent_obufAddr (s : State) : s.popEvent.obufAddr = s.obufAddr := rfl
@[simp] theorem State.popEvent_ibuf (s : State) : s.popEvent.ibuf = s.ibuf := rfl
@[simp] theorem State.popEvent_obuf (s : State) : s.popEvent.obuf = s.obuf := rfl
@[simp] theorem State.popEvent_ibufBytes (s : State) : s.popEvent.ibufBytes = s.ibufBytes := rfl
@[simp] theorem State.popEvent_obufBytes (s : State) : s.popEvent.obufBytes = s.obufBytes := rfl
@[simp] theorem State.popEvent_draws (s : State) : s.popEvent.draws = s.draws := rfl
@[simp] theorem State.popEvent_agenda (s : State) : s.popEvent.agenda = s.agenda.tail := rfl
@[simp] theorem State.popEvent_rdata (s : State) : s.popEvent.rdata = s.rdata := rfl

/-! ### setLinks -/

@[simp] theorem State.setLinks_pend (s : State) (i l r : NodeIdx) : (s.setLinks i l r).pend = s.pend := rfl
@[simp] theorem State.setLinks_done (s : State) (i l r : NodeIdx) : (s.setLinks i l r).done = s.done := rfl
@[simp] theorem State.setLinks_err (s : State) (i l r : NodeIdx) : (s.setLinks i l r).err = s.err := rfl
@[simp] theorem State.setLinks_cmdOvr (s : State) (i l r : NodeIdx) : (s.setLinks i l r).cmdOvr = s.cmdOvr := rfl
@[simp] theorem State.setLinks_cmdRej (s : State) (i l r : NodeIdx) : (s.setLinks i l r).cmdRej = s.cmdRej := rfl
@[simp] theorem State.setLinks_busErr (s : State) (i l r : NodeIdx) : (s.setLinks i l r).busErr = s.busErr := rfl
@[simp] theorem State.setLinks_treeState (s : State) (i l r : NodeIdx) : (s.setLinks i l r).treeState = s.treeState := rfl
@[simp] theorem State.setLinks_codesValid (s : State) (i l r : NodeIdx) : (s.setLinks i l r).codesValid = s.codesValid := rfl
@[simp] theorem State.setLinks_errCode (s : State) (i l r : NodeIdx) : (s.setLinks i l r).errCode = s.errCode := rfl
@[simp] theorem State.setLinks_lastOp (s : State) (i l r : NodeIdx) : (s.setLinks i l r).lastOp = s.lastOp := rfl
@[simp] theorem State.setLinks_errInfo (s : State) (i l r : NodeIdx) : (s.setLinks i l r).errInfo = s.errInfo := rfl
@[simp] theorem State.setLinks_len (s : State) (i l r : NodeIdx) : (s.setLinks i l r).len = s.len := rfl
@[simp] theorem State.setLinks_inLen (s : State) (i l r : NodeIdx) : (s.setLinks i l r).inLen = s.inLen := rfl
@[simp] theorem State.setLinks_ibitpos (s : State) (i l r : NodeIdx) : (s.setLinks i l r).ibitpos = s.ibitpos := rfl
@[simp] theorem State.setLinks_obitpos (s : State) (i l r : NodeIdx) : (s.setLinks i l r).obitpos = s.obitpos := rfl
@[simp] theorem State.setLinks_oacc (s : State) (i l r : NodeIdx) : (s.setLinks i l r).oacc = s.oacc := rfl
@[simp] theorem State.setLinks_root (s : State) (i l r : NodeIdx) : (s.setLinks i l r).root = s.root := rfl
@[simp] theorem State.setLinks_arena (s : State) (i l r : NodeIdx) : (s.setLinks i l r).arena = s.arena.modify i.toNat (fun n => { n with left := l, right := r }) := rfl
@[simp] theorem State.setLinks_freq (s : State) (i l r : NodeIdx) : (s.setLinks i l r).freq = s.freq := rfl
@[simp] theorem State.setLinks_codeLen (s : State) (i l r : NodeIdx) : (s.setLinks i l r).codeLen = s.codeLen := rfl
@[simp] theorem State.setLinks_codeBits (s : State) (i l r : NodeIdx) : (s.setLinks i l r).codeBits = s.codeBits := rfl
@[simp] theorem State.setLinks_doneIe (s : State) (i l r : NodeIdx) : (s.setLinks i l r).doneIe = s.doneIe := rfl
@[simp] theorem State.setLinks_errIe (s : State) (i l r : NodeIdx) : (s.setLinks i l r).errIe = s.errIe := rfl
@[simp] theorem State.setLinks_nodeSel (s : State) (i l r : NodeIdx) : (s.setLinks i l r).nodeSel = s.nodeSel := rfl
@[simp] theorem State.setLinks_symSel (s : State) (i l r : NodeIdx) : (s.setLinks i l r).symSel = s.symSel := rfl
@[simp] theorem State.setLinks_ibufAddr (s : State) (i l r : NodeIdx) : (s.setLinks i l r).ibufAddr = s.ibufAddr := rfl
@[simp] theorem State.setLinks_obufAddr (s : State) (i l r : NodeIdx) : (s.setLinks i l r).obufAddr = s.obufAddr := rfl
@[simp] theorem State.setLinks_ibuf (s : State) (i l r : NodeIdx) : (s.setLinks i l r).ibuf = s.ibuf := rfl
@[simp] theorem State.setLinks_obuf (s : State) (i l r : NodeIdx) : (s.setLinks i l r).obuf = s.obuf := rfl
@[simp] theorem State.setLinks_ibufBytes (s : State) (i l r : NodeIdx) : (s.setLinks i l r).ibufBytes = s.ibufBytes := rfl
@[simp] theorem State.setLinks_obufBytes (s : State) (i l r : NodeIdx) : (s.setLinks i l r).obufBytes = s.obufBytes := rfl
@[simp] theorem State.setLinks_draws (s : State) (i l r : NodeIdx) : (s.setLinks i l r).draws = s.draws := rfl
@[simp] theorem State.setLinks_agenda (s : State) (i l r : NodeIdx) : (s.setLinks i l r).agenda = s.agenda := rfl
@[simp] theorem State.setLinks_rdata (s : State) (i l r : NodeIdx) : (s.setLinks i l r).rdata = s.rdata := rfl

/-! ### setFreq -/

@[simp] theorem State.setFreq_pend (s : State) (sym : Byte) (v : Word) : (s.setFreq sym v).pend = s.pend := rfl
@[simp] theorem State.setFreq_done (s : State) (sym : Byte) (v : Word) : (s.setFreq sym v).done = s.done := rfl
@[simp] theorem State.setFreq_err (s : State) (sym : Byte) (v : Word) : (s.setFreq sym v).err = s.err := rfl
@[simp] theorem State.setFreq_cmdOvr (s : State) (sym : Byte) (v : Word) : (s.setFreq sym v).cmdOvr = s.cmdOvr := rfl
@[simp] theorem State.setFreq_cmdRej (s : State) (sym : Byte) (v : Word) : (s.setFreq sym v).cmdRej = s.cmdRej := rfl
@[simp] theorem State.setFreq_busErr (s : State) (sym : Byte) (v : Word) : (s.setFreq sym v).busErr = s.busErr := rfl
@[simp] theorem State.setFreq_treeState (s : State) (sym : Byte) (v : Word) : (s.setFreq sym v).treeState = s.treeState := rfl
@[simp] theorem State.setFreq_codesValid (s : State) (sym : Byte) (v : Word) : (s.setFreq sym v).codesValid = s.codesValid := rfl
@[simp] theorem State.setFreq_errCode (s : State) (sym : Byte) (v : Word) : (s.setFreq sym v).errCode = s.errCode := rfl
@[simp] theorem State.setFreq_lastOp (s : State) (sym : Byte) (v : Word) : (s.setFreq sym v).lastOp = s.lastOp := rfl
@[simp] theorem State.setFreq_errInfo (s : State) (sym : Byte) (v : Word) : (s.setFreq sym v).errInfo = s.errInfo := rfl
@[simp] theorem State.setFreq_len (s : State) (sym : Byte) (v : Word) : (s.setFreq sym v).len = s.len := rfl
@[simp] theorem State.setFreq_inLen (s : State) (sym : Byte) (v : Word) : (s.setFreq sym v).inLen = s.inLen := rfl
@[simp] theorem State.setFreq_ibitpos (s : State) (sym : Byte) (v : Word) : (s.setFreq sym v).ibitpos = s.ibitpos := rfl
@[simp] theorem State.setFreq_obitpos (s : State) (sym : Byte) (v : Word) : (s.setFreq sym v).obitpos = s.obitpos := rfl
@[simp] theorem State.setFreq_oacc (s : State) (sym : Byte) (v : Word) : (s.setFreq sym v).oacc = s.oacc := rfl
@[simp] theorem State.setFreq_root (s : State) (sym : Byte) (v : Word) : (s.setFreq sym v).root = s.root := rfl
@[simp] theorem State.setFreq_arena (s : State) (sym : Byte) (v : Word) : (s.setFreq sym v).arena = s.arena := rfl
@[simp] theorem State.setFreq_freq (s : State) (sym : Byte) (v : Word) : (s.setFreq sym v).freq = s.freq.set sym.toNat v sym.isLt := rfl
@[simp] theorem State.setFreq_codeLen (s : State) (sym : Byte) (v : Word) : (s.setFreq sym v).codeLen = s.codeLen := rfl
@[simp] theorem State.setFreq_codeBits (s : State) (sym : Byte) (v : Word) : (s.setFreq sym v).codeBits = s.codeBits := rfl
@[simp] theorem State.setFreq_doneIe (s : State) (sym : Byte) (v : Word) : (s.setFreq sym v).doneIe = s.doneIe := rfl
@[simp] theorem State.setFreq_errIe (s : State) (sym : Byte) (v : Word) : (s.setFreq sym v).errIe = s.errIe := rfl
@[simp] theorem State.setFreq_nodeSel (s : State) (sym : Byte) (v : Word) : (s.setFreq sym v).nodeSel = s.nodeSel := rfl
@[simp] theorem State.setFreq_symSel (s : State) (sym : Byte) (v : Word) : (s.setFreq sym v).symSel = s.symSel := rfl
@[simp] theorem State.setFreq_ibufAddr (s : State) (sym : Byte) (v : Word) : (s.setFreq sym v).ibufAddr = s.ibufAddr := rfl
@[simp] theorem State.setFreq_obufAddr (s : State) (sym : Byte) (v : Word) : (s.setFreq sym v).obufAddr = s.obufAddr := rfl
@[simp] theorem State.setFreq_ibuf (s : State) (sym : Byte) (v : Word) : (s.setFreq sym v).ibuf = s.ibuf := rfl
@[simp] theorem State.setFreq_obuf (s : State) (sym : Byte) (v : Word) : (s.setFreq sym v).obuf = s.obuf := rfl
@[simp] theorem State.setFreq_ibufBytes (s : State) (sym : Byte) (v : Word) : (s.setFreq sym v).ibufBytes = s.ibufBytes := rfl
@[simp] theorem State.setFreq_obufBytes (s : State) (sym : Byte) (v : Word) : (s.setFreq sym v).obufBytes = s.obufBytes := rfl
@[simp] theorem State.setFreq_draws (s : State) (sym : Byte) (v : Word) : (s.setFreq sym v).draws = s.draws := rfl
@[simp] theorem State.setFreq_agenda (s : State) (sym : Byte) (v : Word) : (s.setFreq sym v).agenda = s.agenda := rfl
@[simp] theorem State.setFreq_rdata (s : State) (sym : Byte) (v : Word) : (s.setFreq sym v).rdata = s.rdata := rfl

/-! ### setCode -/

@[simp] theorem State.setCode_pend (s : State) (sym : Byte) (d v : Nat) : (s.setCode sym d v).pend = s.pend := rfl
@[simp] theorem State.setCode_done (s : State) (sym : Byte) (d v : Nat) : (s.setCode sym d v).done = s.done := rfl
@[simp] theorem State.setCode_err (s : State) (sym : Byte) (d v : Nat) : (s.setCode sym d v).err = s.err := rfl
@[simp] theorem State.setCode_cmdOvr (s : State) (sym : Byte) (d v : Nat) : (s.setCode sym d v).cmdOvr = s.cmdOvr := rfl
@[simp] theorem State.setCode_cmdRej (s : State) (sym : Byte) (d v : Nat) : (s.setCode sym d v).cmdRej = s.cmdRej := rfl
@[simp] theorem State.setCode_busErr (s : State) (sym : Byte) (d v : Nat) : (s.setCode sym d v).busErr = s.busErr := rfl
@[simp] theorem State.setCode_treeState (s : State) (sym : Byte) (d v : Nat) : (s.setCode sym d v).treeState = s.treeState := rfl
@[simp] theorem State.setCode_codesValid (s : State) (sym : Byte) (d v : Nat) : (s.setCode sym d v).codesValid = s.codesValid := rfl
@[simp] theorem State.setCode_errCode (s : State) (sym : Byte) (d v : Nat) : (s.setCode sym d v).errCode = s.errCode := rfl
@[simp] theorem State.setCode_lastOp (s : State) (sym : Byte) (d v : Nat) : (s.setCode sym d v).lastOp = s.lastOp := rfl
@[simp] theorem State.setCode_errInfo (s : State) (sym : Byte) (d v : Nat) : (s.setCode sym d v).errInfo = s.errInfo := rfl
@[simp] theorem State.setCode_len (s : State) (sym : Byte) (d v : Nat) : (s.setCode sym d v).len = s.len := rfl
@[simp] theorem State.setCode_inLen (s : State) (sym : Byte) (d v : Nat) : (s.setCode sym d v).inLen = s.inLen := rfl
@[simp] theorem State.setCode_ibitpos (s : State) (sym : Byte) (d v : Nat) : (s.setCode sym d v).ibitpos = s.ibitpos := rfl
@[simp] theorem State.setCode_obitpos (s : State) (sym : Byte) (d v : Nat) : (s.setCode sym d v).obitpos = s.obitpos := rfl
@[simp] theorem State.setCode_oacc (s : State) (sym : Byte) (d v : Nat) : (s.setCode sym d v).oacc = s.oacc := rfl
@[simp] theorem State.setCode_root (s : State) (sym : Byte) (d v : Nat) : (s.setCode sym d v).root = s.root := rfl
@[simp] theorem State.setCode_arena (s : State) (sym : Byte) (d v : Nat) : (s.setCode sym d v).arena = s.arena := rfl
@[simp] theorem State.setCode_freq (s : State) (sym : Byte) (d v : Nat) : (s.setCode sym d v).freq = s.freq := rfl
@[simp] theorem State.setCode_codeLen (s : State) (sym : Byte) (d v : Nat) : (s.setCode sym d v).codeLen = s.codeLen.set sym.toNat (BitVec.ofNat 8 d) sym.isLt := rfl
@[simp] theorem State.setCode_codeBits (s : State) (sym : Byte) (d v : Nat) : (s.setCode sym d v).codeBits = s.codeBits.set sym.toNat (BitVec.ofNat 256 v) sym.isLt := rfl
@[simp] theorem State.setCode_doneIe (s : State) (sym : Byte) (d v : Nat) : (s.setCode sym d v).doneIe = s.doneIe := rfl
@[simp] theorem State.setCode_errIe (s : State) (sym : Byte) (d v : Nat) : (s.setCode sym d v).errIe = s.errIe := rfl
@[simp] theorem State.setCode_nodeSel (s : State) (sym : Byte) (d v : Nat) : (s.setCode sym d v).nodeSel = s.nodeSel := rfl
@[simp] theorem State.setCode_symSel (s : State) (sym : Byte) (d v : Nat) : (s.setCode sym d v).symSel = s.symSel := rfl
@[simp] theorem State.setCode_ibufAddr (s : State) (sym : Byte) (d v : Nat) : (s.setCode sym d v).ibufAddr = s.ibufAddr := rfl
@[simp] theorem State.setCode_obufAddr (s : State) (sym : Byte) (d v : Nat) : (s.setCode sym d v).obufAddr = s.obufAddr := rfl
@[simp] theorem State.setCode_ibuf (s : State) (sym : Byte) (d v : Nat) : (s.setCode sym d v).ibuf = s.ibuf := rfl
@[simp] theorem State.setCode_obuf (s : State) (sym : Byte) (d v : Nat) : (s.setCode sym d v).obuf = s.obuf := rfl
@[simp] theorem State.setCode_ibufBytes (s : State) (sym : Byte) (d v : Nat) : (s.setCode sym d v).ibufBytes = s.ibufBytes := rfl
@[simp] theorem State.setCode_obufBytes (s : State) (sym : Byte) (d v : Nat) : (s.setCode sym d v).obufBytes = s.obufBytes := rfl
@[simp] theorem State.setCode_draws (s : State) (sym : Byte) (d v : Nat) : (s.setCode sym d v).draws = s.draws := rfl
@[simp] theorem State.setCode_agenda (s : State) (sym : Byte) (d v : Nat) : (s.setCode sym d v).agenda = s.agenda := rfl
@[simp] theorem State.setCode_rdata (s : State) (sym : Byte) (d v : Nat) : (s.setCode sym d v).rdata = s.rdata := rfl

/-! ### zeroCodes -/

@[simp] theorem State.zeroCodes_pend (s : State) : (s.zeroCodes).pend = s.pend := rfl
@[simp] theorem State.zeroCodes_done (s : State) : (s.zeroCodes).done = s.done := rfl
@[simp] theorem State.zeroCodes_err (s : State) : (s.zeroCodes).err = s.err := rfl
@[simp] theorem State.zeroCodes_cmdOvr (s : State) : (s.zeroCodes).cmdOvr = s.cmdOvr := rfl
@[simp] theorem State.zeroCodes_cmdRej (s : State) : (s.zeroCodes).cmdRej = s.cmdRej := rfl
@[simp] theorem State.zeroCodes_busErr (s : State) : (s.zeroCodes).busErr = s.busErr := rfl
@[simp] theorem State.zeroCodes_treeState (s : State) : (s.zeroCodes).treeState = s.treeState := rfl
@[simp] theorem State.zeroCodes_codesValid (s : State) : (s.zeroCodes).codesValid = s.codesValid := rfl
@[simp] theorem State.zeroCodes_errCode (s : State) : (s.zeroCodes).errCode = s.errCode := rfl
@[simp] theorem State.zeroCodes_lastOp (s : State) : (s.zeroCodes).lastOp = s.lastOp := rfl
@[simp] theorem State.zeroCodes_errInfo (s : State) : (s.zeroCodes).errInfo = s.errInfo := rfl
@[simp] theorem State.zeroCodes_len (s : State) : (s.zeroCodes).len = s.len := rfl
@[simp] theorem State.zeroCodes_inLen (s : State) : (s.zeroCodes).inLen = s.inLen := rfl
@[simp] theorem State.zeroCodes_ibitpos (s : State) : (s.zeroCodes).ibitpos = s.ibitpos := rfl
@[simp] theorem State.zeroCodes_obitpos (s : State) : (s.zeroCodes).obitpos = s.obitpos := rfl
@[simp] theorem State.zeroCodes_oacc (s : State) : (s.zeroCodes).oacc = s.oacc := rfl
@[simp] theorem State.zeroCodes_root (s : State) : (s.zeroCodes).root = s.root := rfl
@[simp] theorem State.zeroCodes_arena (s : State) : (s.zeroCodes).arena = s.arena := rfl
@[simp] theorem State.zeroCodes_freq (s : State) : (s.zeroCodes).freq = s.freq := rfl
@[simp] theorem State.zeroCodes_codeLen (s : State) : (s.zeroCodes).codeLen = Vector.replicate 256 0 := rfl
@[simp] theorem State.zeroCodes_codeBits (s : State) : (s.zeroCodes).codeBits = Vector.replicate 256 0 := rfl
@[simp] theorem State.zeroCodes_doneIe (s : State) : (s.zeroCodes).doneIe = s.doneIe := rfl
@[simp] theorem State.zeroCodes_errIe (s : State) : (s.zeroCodes).errIe = s.errIe := rfl
@[simp] theorem State.zeroCodes_nodeSel (s : State) : (s.zeroCodes).nodeSel = s.nodeSel := rfl
@[simp] theorem State.zeroCodes_symSel (s : State) : (s.zeroCodes).symSel = s.symSel := rfl
@[simp] theorem State.zeroCodes_ibufAddr (s : State) : (s.zeroCodes).ibufAddr = s.ibufAddr := rfl
@[simp] theorem State.zeroCodes_obufAddr (s : State) : (s.zeroCodes).obufAddr = s.obufAddr := rfl
@[simp] theorem State.zeroCodes_ibuf (s : State) : (s.zeroCodes).ibuf = s.ibuf := rfl
@[simp] theorem State.zeroCodes_obuf (s : State) : (s.zeroCodes).obuf = s.obuf := rfl
@[simp] theorem State.zeroCodes_ibufBytes (s : State) : (s.zeroCodes).ibufBytes = s.ibufBytes := rfl
@[simp] theorem State.zeroCodes_obufBytes (s : State) : (s.zeroCodes).obufBytes = s.obufBytes := rfl
@[simp] theorem State.zeroCodes_draws (s : State) : (s.zeroCodes).draws = s.draws := rfl
@[simp] theorem State.zeroCodes_agenda (s : State) : (s.zeroCodes).agenda = s.agenda := rfl
@[simp] theorem State.zeroCodes_rdata (s : State) : (s.zeroCodes).rdata = s.rdata := rfl

/-! ### rewind -/

@[simp] theorem State.rewind_pend (s : State) : (s.rewind).pend = s.pend := rfl
@[simp] theorem State.rewind_done (s : State) : (s.rewind).done = s.done := rfl
@[simp] theorem State.rewind_err (s : State) : (s.rewind).err = s.err := rfl
@[simp] theorem State.rewind_cmdOvr (s : State) : (s.rewind).cmdOvr = s.cmdOvr := rfl
@[simp] theorem State.rewind_cmdRej (s : State) : (s.rewind).cmdRej = s.cmdRej := rfl
@[simp] theorem State.rewind_busErr (s : State) : (s.rewind).busErr = s.busErr := rfl
@[simp] theorem State.rewind_treeState (s : State) : (s.rewind).treeState = s.treeState := rfl
@[simp] theorem State.rewind_codesValid (s : State) : (s.rewind).codesValid = s.codesValid := rfl
@[simp] theorem State.rewind_errCode (s : State) : (s.rewind).errCode = s.errCode := rfl
@[simp] theorem State.rewind_lastOp (s : State) : (s.rewind).lastOp = s.lastOp := rfl
@[simp] theorem State.rewind_errInfo (s : State) : (s.rewind).errInfo = s.errInfo := rfl
@[simp] theorem State.rewind_len (s : State) : (s.rewind).len = s.len := rfl
@[simp] theorem State.rewind_inLen (s : State) : (s.rewind).inLen = s.inLen := rfl
@[simp] theorem State.rewind_ibitpos (s : State) : (s.rewind).ibitpos = 0 := rfl
@[simp] theorem State.rewind_obitpos (s : State) : (s.rewind).obitpos = 0 := rfl
@[simp] theorem State.rewind_oacc (s : State) : (s.rewind).oacc = 0 := rfl
@[simp] theorem State.rewind_root (s : State) : (s.rewind).root = s.root := rfl
@[simp] theorem State.rewind_arena (s : State) : (s.rewind).arena = s.arena := rfl
@[simp] theorem State.rewind_freq (s : State) : (s.rewind).freq = s.freq := rfl
@[simp] theorem State.rewind_codeLen (s : State) : (s.rewind).codeLen = s.codeLen := rfl
@[simp] theorem State.rewind_codeBits (s : State) : (s.rewind).codeBits = s.codeBits := rfl
@[simp] theorem State.rewind_doneIe (s : State) : (s.rewind).doneIe = s.doneIe := rfl
@[simp] theorem State.rewind_errIe (s : State) : (s.rewind).errIe = s.errIe := rfl
@[simp] theorem State.rewind_nodeSel (s : State) : (s.rewind).nodeSel = s.nodeSel := rfl
@[simp] theorem State.rewind_symSel (s : State) : (s.rewind).symSel = s.symSel := rfl
@[simp] theorem State.rewind_ibufAddr (s : State) : (s.rewind).ibufAddr = s.ibufAddr := rfl
@[simp] theorem State.rewind_obufAddr (s : State) : (s.rewind).obufAddr = s.obufAddr := rfl
@[simp] theorem State.rewind_ibuf (s : State) : (s.rewind).ibuf = s.ibuf := rfl
@[simp] theorem State.rewind_obuf (s : State) : (s.rewind).obuf = s.obuf := rfl
@[simp] theorem State.rewind_ibufBytes (s : State) : (s.rewind).ibufBytes = s.ibufBytes := rfl
@[simp] theorem State.rewind_obufBytes (s : State) : (s.rewind).obufBytes = s.obufBytes := rfl
@[simp] theorem State.rewind_draws (s : State) : (s.rewind).draws = s.draws := rfl
@[simp] theorem State.rewind_agenda (s : State) : (s.rewind).agenda = s.agenda := rfl
@[simp] theorem State.rewind_rdata (s : State) : (s.rewind).rdata = s.rdata := rfl

/-! ### clearDatapath -/

@[simp] theorem State.clearDatapath_pend (s : State) : (s.clearDatapath).pend = s.pend := rfl
@[simp] theorem State.clearDatapath_done (s : State) : (s.clearDatapath).done = s.done := rfl
@[simp] theorem State.clearDatapath_err (s : State) : (s.clearDatapath).err = false := rfl
@[simp] theorem State.clearDatapath_cmdOvr (s : State) : (s.clearDatapath).cmdOvr = false := rfl
@[simp] theorem State.clearDatapath_cmdRej (s : State) : (s.clearDatapath).cmdRej = false := rfl
@[simp] theorem State.clearDatapath_busErr (s : State) : (s.clearDatapath).busErr = false := rfl
@[simp] theorem State.clearDatapath_treeState (s : State) : (s.clearDatapath).treeState = .invalid := rfl
@[simp] theorem State.clearDatapath_codesValid (s : State) : (s.clearDatapath).codesValid = false := rfl
@[simp] theorem State.clearDatapath_errCode (s : State) : (s.clearDatapath).errCode = 0 := rfl
@[simp] theorem State.clearDatapath_lastOp (s : State) : (s.clearDatapath).lastOp = s.lastOp := rfl
@[simp] theorem State.clearDatapath_errInfo (s : State) : (s.clearDatapath).errInfo = 0 := rfl
@[simp] theorem State.clearDatapath_len (s : State) : (s.clearDatapath).len = 0 := rfl
@[simp] theorem State.clearDatapath_inLen (s : State) : (s.clearDatapath).inLen = s.inLen := rfl
@[simp] theorem State.clearDatapath_ibitpos (s : State) : (s.clearDatapath).ibitpos = 0 := rfl
@[simp] theorem State.clearDatapath_obitpos (s : State) : (s.clearDatapath).obitpos = 0 := rfl
@[simp] theorem State.clearDatapath_oacc (s : State) : (s.clearDatapath).oacc = 0 := rfl
@[simp] theorem State.clearDatapath_root (s : State) : (s.clearDatapath).root = Config.nil := rfl
@[simp] theorem State.clearDatapath_arena (s : State) : (s.clearDatapath).arena = [] := rfl
@[simp] theorem State.clearDatapath_freq (s : State) : (s.clearDatapath).freq = Vector.replicate 256 0 := rfl
@[simp] theorem State.clearDatapath_codeLen (s : State) : (s.clearDatapath).codeLen = s.codeLen := rfl
@[simp] theorem State.clearDatapath_codeBits (s : State) : (s.clearDatapath).codeBits = s.codeBits := rfl
@[simp] theorem State.clearDatapath_doneIe (s : State) : (s.clearDatapath).doneIe = s.doneIe := rfl
@[simp] theorem State.clearDatapath_errIe (s : State) : (s.clearDatapath).errIe = s.errIe := rfl
@[simp] theorem State.clearDatapath_nodeSel (s : State) : (s.clearDatapath).nodeSel = s.nodeSel := rfl
@[simp] theorem State.clearDatapath_symSel (s : State) : (s.clearDatapath).symSel = s.symSel := rfl
@[simp] theorem State.clearDatapath_ibufAddr (s : State) : (s.clearDatapath).ibufAddr = s.ibufAddr := rfl
@[simp] theorem State.clearDatapath_obufAddr (s : State) : (s.clearDatapath).obufAddr = s.obufAddr := rfl
@[simp] theorem State.clearDatapath_ibuf (s : State) : (s.clearDatapath).ibuf = s.ibuf := rfl
@[simp] theorem State.clearDatapath_obuf (s : State) : (s.clearDatapath).obuf = s.obuf := rfl
@[simp] theorem State.clearDatapath_ibufBytes (s : State) : (s.clearDatapath).ibufBytes = s.ibufBytes := rfl
@[simp] theorem State.clearDatapath_obufBytes (s : State) : (s.clearDatapath).obufBytes = s.obufBytes := rfl
@[simp] theorem State.clearDatapath_draws (s : State) : (s.clearDatapath).draws = s.draws := rfl
@[simp] theorem State.clearDatapath_agenda (s : State) : (s.clearDatapath).agenda = s.agenda := rfl
@[simp] theorem State.clearDatapath_rdata (s : State) : (s.clearDatapath).rdata = s.rdata := rfl

/-! ### consume -/

@[simp] theorem State.consume_pend (s : State) (n : Nat) : (s.consume n).pend = s.pend := rfl
@[simp] theorem State.consume_done (s : State) (n : Nat) : (s.consume n).done = s.done := rfl
@[simp] theorem State.consume_err (s : State) (n : Nat) : (s.consume n).err = s.err := rfl
@[simp] theorem State.consume_cmdOvr (s : State) (n : Nat) : (s.consume n).cmdOvr = s.cmdOvr := rfl
@[simp] theorem State.consume_cmdRej (s : State) (n : Nat) : (s.consume n).cmdRej = s.cmdRej := rfl
@[simp] theorem State.consume_busErr (s : State) (n : Nat) : (s.consume n).busErr = s.busErr := rfl
@[simp] theorem State.consume_treeState (s : State) (n : Nat) : (s.consume n).treeState = s.treeState := rfl
@[simp] theorem State.consume_codesValid (s : State) (n : Nat) : (s.consume n).codesValid = s.codesValid := rfl
@[simp] theorem State.consume_errCode (s : State) (n : Nat) : (s.consume n).errCode = s.errCode := rfl
@[simp] theorem State.consume_lastOp (s : State) (n : Nat) : (s.consume n).lastOp = s.lastOp := rfl
@[simp] theorem State.consume_errInfo (s : State) (n : Nat) : (s.consume n).errInfo = s.errInfo := rfl
@[simp] theorem State.consume_len (s : State) (n : Nat) : (s.consume n).len = s.len := rfl
@[simp] theorem State.consume_inLen (s : State) (n : Nat) : (s.consume n).inLen = s.inLen := rfl
@[simp] theorem State.consume_ibitpos (s : State) (n : Nat) : (s.consume n).ibitpos = BitVec.ofNat 32 (s.ibitpos.toNat + n) := rfl
@[simp] theorem State.consume_obitpos (s : State) (n : Nat) : (s.consume n).obitpos = s.obitpos := rfl
@[simp] theorem State.consume_oacc (s : State) (n : Nat) : (s.consume n).oacc = s.oacc := rfl
@[simp] theorem State.consume_root (s : State) (n : Nat) : (s.consume n).root = s.root := rfl
@[simp] theorem State.consume_arena (s : State) (n : Nat) : (s.consume n).arena = s.arena := rfl
@[simp] theorem State.consume_freq (s : State) (n : Nat) : (s.consume n).freq = s.freq := rfl
@[simp] theorem State.consume_codeLen (s : State) (n : Nat) : (s.consume n).codeLen = s.codeLen := rfl
@[simp] theorem State.consume_codeBits (s : State) (n : Nat) : (s.consume n).codeBits = s.codeBits := rfl
@[simp] theorem State.consume_doneIe (s : State) (n : Nat) : (s.consume n).doneIe = s.doneIe := rfl
@[simp] theorem State.consume_errIe (s : State) (n : Nat) : (s.consume n).errIe = s.errIe := rfl
@[simp] theorem State.consume_nodeSel (s : State) (n : Nat) : (s.consume n).nodeSel = s.nodeSel := rfl
@[simp] theorem State.consume_symSel (s : State) (n : Nat) : (s.consume n).symSel = s.symSel := rfl
@[simp] theorem State.consume_ibufAddr (s : State) (n : Nat) : (s.consume n).ibufAddr = s.ibufAddr := rfl
@[simp] theorem State.consume_obufAddr (s : State) (n : Nat) : (s.consume n).obufAddr = s.obufAddr := rfl
@[simp] theorem State.consume_ibuf (s : State) (n : Nat) : (s.consume n).ibuf = s.ibuf := rfl
@[simp] theorem State.consume_obuf (s : State) (n : Nat) : (s.consume n).obuf = s.obuf := rfl
@[simp] theorem State.consume_ibufBytes (s : State) (n : Nat) : (s.consume n).ibufBytes = s.ibufBytes := rfl
@[simp] theorem State.consume_obufBytes (s : State) (n : Nat) : (s.consume n).obufBytes = s.obufBytes := rfl
@[simp] theorem State.consume_draws (s : State) (n : Nat) : (s.consume n).draws = s.draws := rfl
@[simp] theorem State.consume_agenda (s : State) (n : Nat) : (s.consume n).agenda = s.agenda := rfl
@[simp] theorem State.consume_rdata (s : State) (n : Nat) : (s.consume n).rdata = s.rdata := rfl

/-! ### emitBit and emit: only the output stream changes -/

@[simp] theorem State.emitBit_pend (s : State) (b : Bool) : (s.emitBit b).pend = s.pend := by
  unfold State.emitBit; dsimp only; split <;> rfl
@[simp] theorem State.emitBit_done (s : State) (b : Bool) : (s.emitBit b).done = s.done := by
  unfold State.emitBit; dsimp only; split <;> rfl
@[simp] theorem State.emitBit_err (s : State) (b : Bool) : (s.emitBit b).err = s.err := by
  unfold State.emitBit; dsimp only; split <;> rfl
@[simp] theorem State.emitBit_cmdOvr (s : State) (b : Bool) : (s.emitBit b).cmdOvr = s.cmdOvr := by
  unfold State.emitBit; dsimp only; split <;> rfl
@[simp] theorem State.emitBit_cmdRej (s : State) (b : Bool) : (s.emitBit b).cmdRej = s.cmdRej := by
  unfold State.emitBit; dsimp only; split <;> rfl
@[simp] theorem State.emitBit_busErr (s : State) (b : Bool) : (s.emitBit b).busErr = s.busErr := by
  unfold State.emitBit; dsimp only; split <;> rfl
@[simp] theorem State.emitBit_treeState (s : State) (b : Bool) : (s.emitBit b).treeState = s.treeState := by
  unfold State.emitBit; dsimp only; split <;> rfl
@[simp] theorem State.emitBit_codesValid (s : State) (b : Bool) : (s.emitBit b).codesValid = s.codesValid := by
  unfold State.emitBit; dsimp only; split <;> rfl
@[simp] theorem State.emitBit_errCode (s : State) (b : Bool) : (s.emitBit b).errCode = s.errCode := by
  unfold State.emitBit; dsimp only; split <;> rfl
@[simp] theorem State.emitBit_lastOp (s : State) (b : Bool) : (s.emitBit b).lastOp = s.lastOp := by
  unfold State.emitBit; dsimp only; split <;> rfl
@[simp] theorem State.emitBit_errInfo (s : State) (b : Bool) : (s.emitBit b).errInfo = s.errInfo := by
  unfold State.emitBit; dsimp only; split <;> rfl
@[simp] theorem State.emitBit_len (s : State) (b : Bool) : (s.emitBit b).len = s.len := by
  unfold State.emitBit; dsimp only; split <;> rfl
@[simp] theorem State.emitBit_inLen (s : State) (b : Bool) : (s.emitBit b).inLen = s.inLen := by
  unfold State.emitBit; dsimp only; split <;> rfl
@[simp] theorem State.emitBit_ibitpos (s : State) (b : Bool) : (s.emitBit b).ibitpos = s.ibitpos := by
  unfold State.emitBit; dsimp only; split <;> rfl
@[simp] theorem State.emitBit_root (s : State) (b : Bool) : (s.emitBit b).root = s.root := by
  unfold State.emitBit; dsimp only; split <;> rfl
@[simp] theorem State.emitBit_arena (s : State) (b : Bool) : (s.emitBit b).arena = s.arena := by
  unfold State.emitBit; dsimp only; split <;> rfl
@[simp] theorem State.emitBit_freq (s : State) (b : Bool) : (s.emitBit b).freq = s.freq := by
  unfold State.emitBit; dsimp only; split <;> rfl
@[simp] theorem State.emitBit_codeLen (s : State) (b : Bool) : (s.emitBit b).codeLen = s.codeLen := by
  unfold State.emitBit; dsimp only; split <;> rfl
@[simp] theorem State.emitBit_codeBits (s : State) (b : Bool) : (s.emitBit b).codeBits = s.codeBits := by
  unfold State.emitBit; dsimp only; split <;> rfl
@[simp] theorem State.emitBit_doneIe (s : State) (b : Bool) : (s.emitBit b).doneIe = s.doneIe := by
  unfold State.emitBit; dsimp only; split <;> rfl
@[simp] theorem State.emitBit_errIe (s : State) (b : Bool) : (s.emitBit b).errIe = s.errIe := by
  unfold State.emitBit; dsimp only; split <;> rfl
@[simp] theorem State.emitBit_nodeSel (s : State) (b : Bool) : (s.emitBit b).nodeSel = s.nodeSel := by
  unfold State.emitBit; dsimp only; split <;> rfl
@[simp] theorem State.emitBit_symSel (s : State) (b : Bool) : (s.emitBit b).symSel = s.symSel := by
  unfold State.emitBit; dsimp only; split <;> rfl
@[simp] theorem State.emitBit_ibufAddr (s : State) (b : Bool) : (s.emitBit b).ibufAddr = s.ibufAddr := by
  unfold State.emitBit; dsimp only; split <;> rfl
@[simp] theorem State.emitBit_obufAddr (s : State) (b : Bool) : (s.emitBit b).obufAddr = s.obufAddr := by
  unfold State.emitBit; dsimp only; split <;> rfl
@[simp] theorem State.emitBit_ibuf (s : State) (b : Bool) : (s.emitBit b).ibuf = s.ibuf := by
  unfold State.emitBit; dsimp only; split <;> rfl
@[simp] theorem State.emitBit_ibufBytes (s : State) (b : Bool) : (s.emitBit b).ibufBytes = s.ibufBytes := by
  unfold State.emitBit; dsimp only; split <;> rfl
@[simp] theorem State.emitBit_obufBytes (s : State) (b : Bool) : (s.emitBit b).obufBytes = s.obufBytes := by
  unfold State.emitBit; dsimp only; split <;> rfl
@[simp] theorem State.emitBit_draws (s : State) (b : Bool) : (s.emitBit b).draws = s.draws := by
  unfold State.emitBit; dsimp only; split <;> rfl
@[simp] theorem State.emitBit_agenda (s : State) (b : Bool) : (s.emitBit b).agenda = s.agenda := by
  unfold State.emitBit; dsimp only; split <;> rfl
@[simp] theorem State.emitBit_rdata (s : State) (b : Bool) : (s.emitBit b).rdata = s.rdata := by
  unfold State.emitBit; dsimp only; split <;> rfl

@[simp] theorem State.emit_nil (s : State) : s.emit [] = s := rfl

@[simp] theorem State.emit_cons (s : State) (b : Bool) (bs : List Bool) : s.emit (b :: bs) = (s.emitBit b).emit bs := rfl

theorem State.emit_append (s : State) (as bs : List Bool) : s.emit (as ++ bs) = (s.emit as).emit bs :=
  List.foldl_append ..

@[simp] theorem State.emit_pend (s : State) (bs : List Bool) : (s.emit bs).pend = s.pend := by
  induction bs generalizing s with
  | nil => rfl
  | cons b bs ih => simp [ih]
@[simp] theorem State.emit_done (s : State) (bs : List Bool) : (s.emit bs).done = s.done := by
  induction bs generalizing s with
  | nil => rfl
  | cons b bs ih => simp [ih]
@[simp] theorem State.emit_err (s : State) (bs : List Bool) : (s.emit bs).err = s.err := by
  induction bs generalizing s with
  | nil => rfl
  | cons b bs ih => simp [ih]
@[simp] theorem State.emit_cmdOvr (s : State) (bs : List Bool) : (s.emit bs).cmdOvr = s.cmdOvr := by
  induction bs generalizing s with
  | nil => rfl
  | cons b bs ih => simp [ih]
@[simp] theorem State.emit_cmdRej (s : State) (bs : List Bool) : (s.emit bs).cmdRej = s.cmdRej := by
  induction bs generalizing s with
  | nil => rfl
  | cons b bs ih => simp [ih]
@[simp] theorem State.emit_busErr (s : State) (bs : List Bool) : (s.emit bs).busErr = s.busErr := by
  induction bs generalizing s with
  | nil => rfl
  | cons b bs ih => simp [ih]
@[simp] theorem State.emit_treeState (s : State) (bs : List Bool) : (s.emit bs).treeState = s.treeState := by
  induction bs generalizing s with
  | nil => rfl
  | cons b bs ih => simp [ih]
@[simp] theorem State.emit_codesValid (s : State) (bs : List Bool) : (s.emit bs).codesValid = s.codesValid := by
  induction bs generalizing s with
  | nil => rfl
  | cons b bs ih => simp [ih]
@[simp] theorem State.emit_errCode (s : State) (bs : List Bool) : (s.emit bs).errCode = s.errCode := by
  induction bs generalizing s with
  | nil => rfl
  | cons b bs ih => simp [ih]
@[simp] theorem State.emit_lastOp (s : State) (bs : List Bool) : (s.emit bs).lastOp = s.lastOp := by
  induction bs generalizing s with
  | nil => rfl
  | cons b bs ih => simp [ih]
@[simp] theorem State.emit_errInfo (s : State) (bs : List Bool) : (s.emit bs).errInfo = s.errInfo := by
  induction bs generalizing s with
  | nil => rfl
  | cons b bs ih => simp [ih]
@[simp] theorem State.emit_len (s : State) (bs : List Bool) : (s.emit bs).len = s.len := by
  induction bs generalizing s with
  | nil => rfl
  | cons b bs ih => simp [ih]
@[simp] theorem State.emit_inLen (s : State) (bs : List Bool) : (s.emit bs).inLen = s.inLen := by
  induction bs generalizing s with
  | nil => rfl
  | cons b bs ih => simp [ih]
@[simp] theorem State.emit_ibitpos (s : State) (bs : List Bool) : (s.emit bs).ibitpos = s.ibitpos := by
  induction bs generalizing s with
  | nil => rfl
  | cons b bs ih => simp [ih]
@[simp] theorem State.emit_root (s : State) (bs : List Bool) : (s.emit bs).root = s.root := by
  induction bs generalizing s with
  | nil => rfl
  | cons b bs ih => simp [ih]
@[simp] theorem State.emit_arena (s : State) (bs : List Bool) : (s.emit bs).arena = s.arena := by
  induction bs generalizing s with
  | nil => rfl
  | cons b bs ih => simp [ih]
@[simp] theorem State.emit_freq (s : State) (bs : List Bool) : (s.emit bs).freq = s.freq := by
  induction bs generalizing s with
  | nil => rfl
  | cons b bs ih => simp [ih]
@[simp] theorem State.emit_codeLen (s : State) (bs : List Bool) : (s.emit bs).codeLen = s.codeLen := by
  induction bs generalizing s with
  | nil => rfl
  | cons b bs ih => simp [ih]
@[simp] theorem State.emit_codeBits (s : State) (bs : List Bool) : (s.emit bs).codeBits = s.codeBits := by
  induction bs generalizing s with
  | nil => rfl
  | cons b bs ih => simp [ih]
@[simp] theorem State.emit_doneIe (s : State) (bs : List Bool) : (s.emit bs).doneIe = s.doneIe := by
  induction bs generalizing s with
  | nil => rfl
  | cons b bs ih => simp [ih]
@[simp] theorem State.emit_errIe (s : State) (bs : List Bool) : (s.emit bs).errIe = s.errIe := by
  induction bs generalizing s with
  | nil => rfl
  | cons b bs ih => simp [ih]
@[simp] theorem State.emit_nodeSel (s : State) (bs : List Bool) : (s.emit bs).nodeSel = s.nodeSel := by
  induction bs generalizing s with
  | nil => rfl
  | cons b bs ih => simp [ih]
@[simp] theorem State.emit_symSel (s : State) (bs : List Bool) : (s.emit bs).symSel = s.symSel := by
  induction bs generalizing s with
  | nil => rfl
  | cons b bs ih => simp [ih]
@[simp] theorem State.emit_ibufAddr (s : State) (bs : List Bool) : (s.emit bs).ibufAddr = s.ibufAddr := by
  induction bs generalizing s with
  | nil => rfl
  | cons b bs ih => simp [ih]
@[simp] theorem State.emit_obufAddr (s : State) (bs : List Bool) : (s.emit bs).obufAddr = s.obufAddr := by
  induction bs generalizing s with
  | nil => rfl
  | cons b bs ih => simp [ih]
@[simp] theorem State.emit_ibuf (s : State) (bs : List Bool) : (s.emit bs).ibuf = s.ibuf := by
  induction bs generalizing s with
  | nil => rfl
  | cons b bs ih => simp [ih]
@[simp] theorem State.emit_ibufBytes (s : State) (bs : List Bool) : (s.emit bs).ibufBytes = s.ibufBytes := by
  induction bs generalizing s with
  | nil => rfl
  | cons b bs ih => simp [ih]
@[simp] theorem State.emit_obufBytes (s : State) (bs : List Bool) : (s.emit bs).obufBytes = s.obufBytes := by
  induction bs generalizing s with
  | nil => rfl
  | cons b bs ih => simp [ih]
@[simp] theorem State.emit_draws (s : State) (bs : List Bool) : (s.emit bs).draws = s.draws := by
  induction bs generalizing s with
  | nil => rfl
  | cons b bs ih => simp [ih]
@[simp] theorem State.emit_agenda (s : State) (bs : List Bool) : (s.emit bs).agenda = s.agenda := by
  induction bs generalizing s with
  | nil => rfl
  | cons b bs ih => simp [ih]
@[simp] theorem State.emit_rdata (s : State) (bs : List Bool) : (s.emit bs).rdata = s.rdata := by
  induction bs generalizing s with
  | nil => rfl
  | cons b bs ih => simp [ih]

end Sys2Proof.Machine
end

