-- ==== Sys2Proof/Laws/Run.lean ====
section
/-! SUPPORT. The laws of command bodies: how they compose, what each shared operation can do, and how relations between the state before and after are carried through a body. -/

namespace Sys2Proof.Machine

variable {α β : Type}

@[simp] theorem Run.pure_apply (a : α) (s : State) : (pure a : Run α) s = .ok a s := rfl

@[simp] theorem raise_apply (e : Err) (info : Word) (s : State) : (raise e info : Run α) s = .error (.raise e info) s := rfl

@[simp] theorem halt_apply (f : Fault) (s : State) : (halt f : Run α) s = .error (.stop f) s := rfl

@[simp] theorem view_apply (f : State → α) (s : State) : view f s = .ok (f s) s := rfl

@[simp] theorem update_apply (f : State → State) (s : State) : update f s = .ok () (f s) := rfl

/-- A body that goes on after one that ended with a value. -/
theorem Run.bind_ok {m : Run α} {f : α → Run β} {s t : State} {a : α} (h : m s = .ok a t) : (m >>= f) s = f a t := by
  change EStateM.bind m f s = f a t
  simp only [EStateM.bind, h]

/-- A body after one that aborted. -/
theorem Run.bind_error {m : Run α} {f : α → Run β} {s t : State} {e : Abort} (h : m s = .error e t) :
    (m >>= f) s = .error e t := by
  change EStateM.bind m f s = _
  simp only [EStateM.bind, h]

@[simp] theorem Run.view_bind (g : State → α) (f : α → Run β) (s : State) : (view g >>= f) s = f (g s) s := rfl

@[simp] theorem Run.update_bind (g : State → State) (f : Unit → Run β) (s : State) : (update g >>= f) s = f () (g s) := rfl

@[simp] theorem Run.pure_bind (a : α) (f : α → Run β) (s : State) : ((pure a : Run α) >>= f) s = f a s := rfl

@[simp] theorem Run.raise_bind (e : Err) (info : Word) (f : α → Run β) (s : State) :
    ((raise e info : Run α) >>= f) s = .error (.raise e info) s := rfl

/-- `require` passes where its condition holds, and raises where it does not. -/
theorem require_apply (c : State → Bool) (e : Err) (info : Word) (s : State) :
    require c e info s = if c s then .ok () s else .error (.raise e info) s := rfl

/-- `Alloc` below the capacity (spec R34). -/
theorem alloc_ok (n : Node) (s : State) (h : s.arena.length ≠ Config.maxNodes) :
    alloc n s = .ok (BitVec.ofNat 9 s.arena.length) (s.setArena (s.arena ++ [n])) := by
  simp [alloc, State.nodeCount, h]

/-- `Alloc` at the capacity (spec R34). -/
theorem alloc_full (n : Node) (s : State) (h : s.arena.length = Config.maxNodes) :
    alloc n s = .error (.raise .treeTooBig s.ibitpos) s := by
  simp [alloc, State.nodeCount, h]

/-- An entry in use is read. -/
theorem loadNode_ok (i : NodeIdx) (s : State) (n : Node) (h : s.arena[i.toNat]? = some n) : loadNode i s = .ok n s := by
  simp [loadNode, State.node?, h]

/-! ### What a finished command says about its body -/

/-- A command that ends without an error (spec R221). -/
theorem runCommand_ok {m : Run Unit} {s t : State} (h : m s = .ok () t) : runCommand m s = .next t.complete := by
  simp [runCommand, h]

/-- A command that raises (spec R220). -/
theorem runCommand_raise {m : Run Unit} {s t : State} {e : Err} {info : Word} (h : m s = .error (.raise e info) t) :
    runCommand m s = .next (t.recordFault e info).complete := by
  simp [runCommand, h]

/-- Where a command gives a next state, its body ended with a value, or raised. -/
theorem runCommand_next {m : Run Unit} {s u : State} (h : runCommand m s = .next u) :
    (∃ t, m s = .ok () t ∧ u = t.complete) ∨
      ∃ e info t, m s = .error (.raise e info) t ∧ u = (t.recordFault e info).complete := by
  unfold runCommand at h
  split at h
  · rename_i t heq
    exact .inl ⟨t, heq, by simpa using h.symm⟩
  · rename_i e info t heq
    exact .inr ⟨e, info, t, heq, by simpa using h.symm⟩
  · cases h

/-! ### What holds all through a body -/

/-- From every state that meets `I`: however the body ends, the state it leaves meets `I` and stands in `P` to the one it
started in, and where it aborts, the abort is one of `E`. -/
def Run.Sat (I : State → Prop) (P : State → State → Prop) (E : Abort → Prop) (m : Run α) : Prop :=
  ∀ s, I s → (∀ a t, m s = .ok a t → I t ∧ P s t) ∧ ∀ e t, m s = .error e t → I t ∧ P s t ∧ E e

variable {I : State → Prop} {P : State → State → Prop} {E : Abort → Prop}

theorem Run.Sat.bind (htrans : ∀ a b c, P a b → P b c → P a c) {m : Run α} {f : α → Run β}
    (hm : Run.Sat I P E m) (hf : ∀ a, Run.Sat I P E (f a)) : Run.Sat I P E (m >>= f) := by
  intro s hs
  cases h : m s with
  | ok a t =>
    obtain ⟨ht, hp⟩ := (hm s hs).1 _ _ h
    rw [Run.bind_ok h]
    refine ⟨fun b u hu => ?_, fun e u hu => ?_⟩
    · obtain ⟨hu', hp'⟩ := (hf a t ht).1 _ _ hu
      exact ⟨hu', htrans _ _ _ hp hp'⟩
    · obtain ⟨hu', hp', he⟩ := (hf a t ht).2 _ _ hu
      exact ⟨hu', htrans _ _ _ hp hp', he⟩
  | error e t =>
    rw [Run.bind_error h]
    refine ⟨fun b u hu => by (cases hu), fun e' u hu => ?_⟩
    cases hu
    exact (hm s hs).2 _ _ h

theorem Run.Sat.pure (hrefl : ∀ a, P a a) (a : α) : Run.Sat I P E (pure a : Run α) := fun s hs =>
  ⟨fun b t h => by cases h; exact ⟨hs, hrefl s⟩, fun e t h => by cases h⟩

theorem Run.Sat.raise (hrefl : ∀ a, P a a) (e : Err) (info : Word) (he : E (.raise e info)) :
    Run.Sat I P E (raise e info : Run α) := fun s hs =>
  ⟨fun b t h => by (cases h), fun e t h => by cases h; exact ⟨hs, hrefl s, he⟩⟩

theorem Run.Sat.halt (hrefl : ∀ a, P a a) (f : Fault) (he : E (.stop f)) : Run.Sat I P E (halt f : Run α) := fun s hs =>
  ⟨fun b t h => by (cases h), fun e t h => by cases h; exact ⟨hs, hrefl s, he⟩⟩

theorem Run.Sat.view (hrefl : ∀ a, P a a) (f : State → α) : Run.Sat I P E (view f) := fun s hs =>
  ⟨fun b t h => by (cases h; exact ⟨hs, hrefl s⟩), fun e t h => by cases h⟩

theorem Run.Sat.update {f : State → State} (h : ∀ s, I s → I (f s) ∧ P s (f s)) : Run.Sat I P E (update f) := fun s hs =>
  ⟨fun b t e => by (cases e; exact h s hs), fun e t h => by cases h⟩

theorem Run.Sat.require (hrefl : ∀ a, P a a) (c : State → Bool) (e : Err) (info : Word) (he : E (.raise e info)) :
    Run.Sat I P E (require c e info) := by
  intro s hs
  rw [require_apply]
  split
  · exact ⟨fun b t h => by (cases h; exact ⟨hs, hrefl s⟩), fun e t h => by cases h⟩
  · exact ⟨fun b t h => by (cases h), fun e t h => by cases h; exact ⟨hs, hrefl s, he⟩⟩

theorem Run.Sat.loadNode (hrefl : ∀ a, P a a) (he : E (.stop .deadNode)) (i : NodeIdx) : Run.Sat I P E (loadNode i) := by
  intro s hs
  unfold Machine.loadNode
  split
  · exact ⟨fun b t h => by (cases h; exact ⟨hs, hrefl s⟩), fun e t h => by cases h⟩
  · exact ⟨fun b t h => by (cases h), fun e t h => by cases h; exact ⟨hs, hrefl s, he⟩⟩

theorem Run.Sat.alloc (hrefl : ∀ a, P a a) (he : ∀ info, E (.raise .treeTooBig info)) (n : Node)
    (h : ∀ s : State, I s → s.arena.length ≠ Config.maxNodes →
      I (s.setArena (s.arena ++ [n])) ∧ P s (s.setArena (s.arena ++ [n]))) : Run.Sat I P E (alloc n) := by
  intro s hs
  by_cases hl : s.arena.length = Config.maxNodes
  · rw [alloc_full n s hl]
    exact ⟨fun b t h => by (cases h), fun e t h => by cases h; exact ⟨hs, hrefl s, he _⟩⟩
  · rw [alloc_ok n s hl]
    exact ⟨fun b t e => by (cases e; exact h s hs hl), fun e t h => by cases h⟩

theorem Run.Sat.repeatRun (hrefl : ∀ a, P a a) (htrans : ∀ a b c, P a b → P b c → P a c)
    {m : Run Unit} (hm : Run.Sat I P E m) (n : Nat) : Run.Sat I P E (repeatRun n m) := by
  induction n with
  | zero => exact Run.Sat.pure hrefl ()
  | succ n ih => exact Run.Sat.bind htrans hm fun _ => ih

/-- A weaker conclusion about aborts and about the two states. -/
theorem Run.Sat.mono {P' : State → State → Prop} {E' : Abort → Prop} {m : Run α} (hm : Run.Sat I P E m)
    (hp : ∀ s t, P s t → P' s t) (he : ∀ e, E e → E' e) : Run.Sat I P' E' m := fun s hs =>
  ⟨fun a t h => ⟨((hm s hs).1 a t h).1, hp _ _ ((hm s hs).1 a t h).2⟩,
    fun e t h => ⟨((hm s hs).2 e t h).1, hp _ _ ((hm s hs).2 e t h).2.1, he _ ((hm s hs).2 e t h).2.2⟩⟩

/-- What a finished command inherits from its body. -/
theorem Run.Sat.next {m : Run Unit} (hm : Run.Sat I P E m) {s u : State} (hs : I s) (h : runCommand m s = .next u) :
    (∃ t, I t ∧ P s t ∧ u = t.complete) ∨
      ∃ e info t, I t ∧ P s t ∧ E (.raise e info) ∧ u = (t.recordFault e info).complete := by
  rcases runCommand_next h with ⟨t, ht, rfl⟩ | ⟨e, info, t, ht, rfl⟩
  · exact .inl ⟨t, ((hm s hs).1 _ _ ht).1, ((hm s hs).1 _ _ ht).2, rfl⟩
  · exact .inr ⟨e, info, t, ((hm s hs).2 _ _ ht).1, ((hm s hs).2 _ _ ht).2.1, ((hm s hs).2 _ _ ht).2.2, rfl⟩

/-- A body that stops in no way gives a next state. -/
theorem Run.Sat.completes {m : Run Unit} (hm : Run.Sat I P (fun e => ∀ f, e ≠ .stop f) m) {s : State} (hs : I s) :
    ∃ u, runCommand m s = .next u := by
  cases h : m s with
  | ok a t => exact ⟨_, runCommand_ok h⟩
  | error e t =>
    cases e with
    | raise e info => exact ⟨_, runCommand_raise h⟩
    | stop f => exact absurd rfl (((hm s hs).2 _ _ h).2.2 f)

end Sys2Proof.Machine
end

