-- ==== Sys2Proof/Laws/Streams.lean ====
section
/-! SUPPORT. The laws of the input port and the output port: what each read and each write does to the whole state (spec R74 to R83). -/

namespace Sys2Proof.Machine

/-! ### Bit strings -/

@[simp] theorem bitsOf_length {w : Nat} (v : BitVec w) (n : Nat) : (bitsOf v n).length = n := by simp [bitsOf]

@[simp] theorem bitsOf_zero {w : Nat} (v : BitVec w) : bitsOf v 0 = [] := rfl

/-- The first of `n + 1` bits is bit `n`. -/
theorem bitsOf_succ {w : Nat} (v : BitVec w) (n : Nat) : bitsOf v (n + 1) = v.getLsbD n :: bitsOf v n := by
  simp only [bitsOf, List.range_succ_eq_map, List.map_cons, List.map_map]
  congr 1
  apply List.map_congr_left
  intro j hj
  simp only [List.mem_range] at hj
  simp only [Function.comp_apply]
  congr 1
  omega

@[simp] theorem symbolBits_nil : symbolBits [] = [] := rfl

@[simp] theorem symbolBits_cons (x : Byte) (l : List Byte) : symbolBits (x :: l) = bitsOf x 8 ++ symbolBits l := rfl

@[simp] theorem symbolBits_append (l m : List Byte) : symbolBits (l ++ m) = symbolBits l ++ symbolBits m := by
  simp [symbolBits]

@[simp] theorem symbolBits_length (l : List Byte) : (symbolBits l).length = 8 * l.length := by
  induction l with
  | nil => rfl
  | cons x l ih => simp [ih]; omega

/-! ### The output port -/

/-- Producing a bit changes the three fields of the output stream only. -/
theorem State.emitBit_frame (s : State) (b : Bool) :
    s.emitBit b = { s with
      obitpos := (s.emitBit b).obitpos, oacc := (s.emitBit b).oacc, obuf := (s.emitBit b).obuf } := by
  unfold State.emitBit
  dsimp only
  split <;> rfl

theorem State.emitBit_obitpos (s : State) (b : Bool) : (s.emitBit b).obitpos = BitVec.ofNat 32 (s.obitpos.toNat + 1) := by
  unfold State.emitBit
  dsimp only
  split <;> rfl

/-- Producing bits changes the three fields of the output stream only. -/
theorem State.emit_frame (s : State) (bits : List Bool) :
    s.emit bits = { s with
      obitpos := (s.emit bits).obitpos, oacc := (s.emit bits).oacc, obuf := (s.emit bits).obuf } := by
  induction bits generalizing s with
  | nil => rfl
  | cons b bits ih =>
    rw [State.emit_cons, ih (s.emitBit b), State.emitBit_frame s b]

/-- The output cursor never gets past the sum; it is the sum where that fits in 32 bits. -/
theorem State.emit_obitpos_le (s : State) (bits : List Bool) :
    (s.emit bits).obitpos.toNat ≤ s.obitpos.toNat + bits.length := by
  induction bits generalizing s with
  | nil => simp
  | cons b bits ih =>
    have h := ih (s.emitBit b)
    rw [State.emitBit_obitpos, BitVec.toNat_ofNat] at h
    have := Nat.mod_le (s.obitpos.toNat + 1) (2 ^ 32)
    simp only [State.emit_cons, List.length_cons]
    omega

theorem State.emit_obitpos (s : State) (bits : List Bool) :
    (s.emit bits).obitpos = BitVec.ofNat 32 (s.obitpos.toNat + bits.length) := by
  induction bits generalizing s with
  | nil => simp
  | cons b bits ih =>
    rw [State.emit_cons, ih, State.emitBit_obitpos]
    apply BitVec.eq_of_toNat_eq
    simp only [BitVec.toNat_ofNat, List.length_cons]
    omega

/-- The bit that `setBit` leaves at each place. -/
theorem setBit_getLsbD (v : Byte) (i j : Nat) (b : Bool) (hj : j < 8) :
    (setBit v i b).getLsbD j = if j = i then b else v.getLsbD j := by
  unfold setBit
  have hp : (BitVec.ofNat 8 (2 ^ i)).getLsbD j = decide (i = j) := by
    rw [BitVec.getLsbD_ofNat, Nat.testBit_two_pow]
    simp [hj]
  cases b
  · simp only [Bool.false_eq_true, if_false, BitVec.getLsbD_and, BitVec.getLsbD_not, hp, hj, decide_true, Bool.true_and]
    by_cases h : j = i
    · simp [h]
    · simp [h, Ne.symm h]
  · simp only [if_true, BitVec.getLsbD_or, hp]
    by_cases h : j = i
    · simp [h]
    · simp [h, Ne.symm h]

/-- The byte a bit completes goes to OBUF, and no other byte changes (spec R80). -/
theorem State.emitBit_memLookup (s : State) (b : Bool) (a : Nat) :
    memLookup (s.emitBit b).obuf a =
      if (s.obitpos.toNat + 1) % 8 = 0 ∧ a = (s.obitpos.toNat + 1) / 8 - 1
      then some (setBit s.oacc (7 - s.obitpos.toNat % 8) b) else memLookup s.obuf a := by
  unfold State.emitBit
  dsimp only
  split
  · rename_i h
    simp only [memLookup_memWrite, h, true_and]
  · rename_i h
    simp only [h, false_and, if_false]

/-- What a bit leaves in the accumulator (spec R80). -/
theorem State.emitBit_oacc (s : State) (b : Bool) :
    (s.emitBit b).oacc = if (s.obitpos.toNat + 1) % 8 = 0 then 0 else setBit s.oacc (7 - s.obitpos.toNat % 8) b := by
  unfold State.emitBit
  dsimp only
  split <;> rfl

theorem storesOnlyOutput_refl (s : State) : storesOnlyOutput s s := fun _ _ => rfl

/-- Stores of one stretch of the output after another. -/
theorem storesOnlyOutput_trans {s t u : State} (h1 : storesOnlyOutput s t) (h2 : storesOnlyOutput t u)
    (hst : s.obitpos.toNat ≤ t.obitpos.toNat) (htu : t.obitpos.toNat ≤ u.obitpos.toNat) : storesOnlyOutput s u := by
  have e1 := Nat.div_le_div_right (c := 8) hst
  have e2 := Nat.div_le_div_right (c := 8) htu
  intro a ha
  rw [h2 a (by omega), h1 a (by omega)]

/-- A bit stores nothing but the byte it completes (spec R79, R80). -/
theorem State.emitBit_stores (s : State) (b : Bool) (h : s.obitpos.toNat + 1 < 2 ^ 32) : storesOnlyOutput s (s.emitBit b) := by
  intro a ha
  rw [State.emitBit_memLookup, if_neg]
  rw [State.emitBit_obitpos, BitVec.toNat_ofNat, Nat.mod_eq_of_lt h] at ha
  omega

/-- `WriteBit` with room (spec R80). -/
theorem writeBit_ok (b : Bool) (s : State) (h : s.obitpos.toNat < 8 * s.obufBytes) : writeBit b s = .ok () (s.emitBit b) := by
  simp [writeBit, Nat.not_le.2 h]

/-- `WriteBit` without room (spec R80). -/
theorem writeBit_full (b : Bool) (s : State) (h : 8 * s.obufBytes ≤ s.obitpos.toNat) :
    writeBit b s = .error (.raise .outFull s.obitpos) s := by
  simp [writeBit, h]

/-- Bits of a value with room for all of them. -/
theorem writeBits_ok {w : Nat} (v : BitVec w) (n : Nat) (s : State) (h : s.obitpos.toNat + n ≤ 8 * s.obufBytes) :
    writeBits v n s = .ok () (s.emit (bitsOf v n)) := by
  induction n generalizing s with
  | zero => rfl
  | succ n ih =>
    have hb : writeBit (v.getLsbD n) s = .ok () (s.emitBit (v.getLsbD n)) := writeBit_ok _ s (by omega)
    rw [writeBits, Run.bind_ok hb, bitsOf_succ, State.emit_cons]
    apply ih
    have := State.emit_obitpos_le s [v.getLsbD n]
    have h8 := State.emit_obufBytes s [v.getLsbD n]
    simp only [State.emit_cons, State.emit_nil, List.length_cons, List.length_nil] at this h8
    omega

theorem requireRoom_ok (n : Nat) (s : State) (h : s.obitpos.toNat + n ≤ 8 * s.obufBytes) : requireRoom n s = .ok () s := by
  simp [requireRoom, State.outRoom, h]

theorem requireRoom_full (n : Nat) (s : State) (h : 8 * s.obufBytes < s.obitpos.toNat + n) :
    requireRoom n s = .error (.raise .outFull s.obitpos) s := by
  simp [requireRoom, State.outRoom, Nat.not_le.2 h]

/-- `WriteWord8` with room (spec R81). -/
theorem writeWord8_ok (v : Byte) (s : State) (h : s.obitpos.toNat + 8 ≤ 8 * s.obufBytes) :
    writeWord8 v s = .ok () (s.emit (bitsOf v 8)) := by
  rw [writeWord8, Run.bind_ok (requireRoom_ok 8 s h)]
  exact writeBits_ok v 8 s h

/-- `WriteWord8` without room for the whole symbol writes nothing (spec R81). -/
theorem writeWord8_full (v : Byte) (s : State) (h : 8 * s.obufBytes < s.obitpos.toNat + 8) :
    writeWord8 v s = .error (.raise .outFull s.obitpos) s := by
  rw [writeWord8, Run.bind_error (requireRoom_full 8 s h)]

/-- `WriteInt32` with room (spec R82). -/
theorem writeInt32_ok (v : Word) (s : State) (h : s.obitpos.toNat + 32 ≤ 8 * s.obufBytes) :
    writeInt32 v s = .ok () (s.emit (bitsOf v 32)) := by
  rw [writeInt32, Run.bind_ok (requireRoom_ok 32 s h)]
  exact writeBits_ok v 32 s h

/-- `WriteInt32` without room for the whole word writes nothing (spec R82). -/
theorem writeInt32_full (v : Word) (s : State) (h : 8 * s.obufBytes < s.obitpos.toNat + 32) :
    writeInt32 v s = .error (.raise .outFull s.obitpos) s := by
  rw [writeInt32, Run.bind_error (requireRoom_full 32 s h)]

/-- The pad loop, with turns enough to complete the byte. -/
theorem padLoop_ok (n : Nat) (s : State) (hn : (8 - s.obitpos.toNat % 8) % 8 ≤ n)
    (h : s.obitpos.toNat ≤ 8 * s.obufBytes) : padLoop n s = .ok () (s.emit (padBits s.obitpos.toNat)) := by
  induction n generalizing s with
  | zero =>
    have : (8 - s.obitpos.toNat % 8) % 8 = 0 := by omega
    simp [padLoop, padBits, this]
  | succ n ih =>
    by_cases hz : s.obitpos.toNat % 8 = 0
    · simp [padLoop, padBits, hz]
    · rw [padLoop]
      simp only [hz, if_false]
      have hlt := s.obitpos.isLt
      have hb : writeBit false s = .ok () (s.emitBit false) := writeBit_ok _ s (by omega)
      have ho : (s.emitBit false).obufBytes = s.obufBytes := State.emit_obufBytes s [false]
      have hq := State.emitBit_obitpos s false
      have hq' : (s.emitBit false).obitpos.toNat = (s.obitpos.toNat + 1) % 2 ^ 32 := by rw [hq, BitVec.toNat_ofNat]
      rw [Run.bind_ok hb, ih (s.emitBit false) (by omega) (by omega), hq']
      have : (8 - s.obitpos.toNat % 8) % 8 = (8 - (s.obitpos.toNat + 1) % 2 ^ 32 % 8) % 8 + 1 := by omega
      simp only [padBits, this, List.replicate_succ, State.emit_cons]

/-- `PadToByte` (spec R83): with the cursor inside OBUF it cannot fail. -/
theorem padToByte_ok (s : State) (h : s.obitpos.toNat ≤ 8 * s.obufBytes) :
    padToByte s = .ok () (s.emit (padBits s.obitpos.toNat)) := padLoop_ok 7 s (by omega) h

/-! ### The input port -/

@[simp] theorem State.consume_zero (s : State) : s.consume 0 = s := by simp [State.consume]

theorem State.consume_consume (s : State) (m n : Nat) (h : s.ibitpos.toNat + m < 2 ^ 32) :
    (s.consume m).consume n = s.consume (m + n) := by
  simp only [State.consume, BitVec.toNat_ofNat, Nat.mod_eq_of_lt h, Nat.add_assoc]

/-- Inside an input that IBUF holds, the cursor does not wrap. -/
theorem State.hasInput.lt {s : State} {bits : List Bool} (h : s.hasInput bits) (hb : s.inputInBuffer) :
    s.ibitpos.toNat + bits.length < 2 ^ 32 := by
  have h1 := h.1
  have h2 := hb.1
  have h3 : s.ibufBytes ≤ 2 ^ 28 := hb.2
  omega

/-- The first part of the input, and what is left after it. -/
theorem State.hasInput_append {s : State} {l m : List Bool} (hb : s.inputInBuffer) (h : s.hasInput (l ++ m)) :
    s.hasInput l ∧ (s.consume l.length).hasInput m := by
  have hlt := h.lt hb
  obtain ⟨h1, h2⟩ := h
  simp only [List.length_append] at h1 h2 hlt
  refine ⟨⟨by omega, fun j hj => ?_⟩, ⟨?_, fun j hj => ?_⟩⟩
  · rw [h2 j (by omega), List.getElem?_append_left hj]
  · simp only [State.consume, BitVec.toNat_ofNat]
    rw [Nat.mod_eq_of_lt (by omega)]
    omega
  · have := h2 (l.length + j) (by omega)
    rw [List.getElem?_append_right (by omega)] at this
    simp only [State.consume, BitVec.toNat_ofNat, State.inputBit?] at this ⊢
    rw [Nat.mod_eq_of_lt (by omega)]
    rw [show s.ibitpos.toNat + l.length + j = s.ibitpos.toNat + (l.length + j) by omega, this]
    congr 1
    omega

/-- Input depends on IBUF, IN_LEN and the input cursor only. -/
theorem State.hasInput_congr {s t : State} (h1 : t.ibuf = s.ibuf) (h2 : t.inLen = s.inLen) (h3 : t.ibitpos = s.ibitpos)
    (bits : List Bool) : t.hasInput bits ↔ s.hasInput bits := by
  simp [State.hasInput, State.inputBit?, h1, h2, h3]

theorem readIbuf_ok (k : Nat) (s : State) (v : Byte) (hk : k < s.ibufBytes) (h : memLookup s.ibuf k = some v) :
    readIbuf k s = .ok v s := by
  simp [readIbuf, hk, State.fetchByte, h]

/-- A byte that nothing has written is a free draw (spec R50). -/
theorem readIbuf_free (k : Nat) (s : State) (hk : k < s.ibufBytes) (h : memLookup s.ibuf k = none) :
    readIbuf k s = .ok (Config.freeByte s.draws) { s with draws := s.draws + 1 } := by
  simp [readIbuf, hk, State.fetchByte, h]

/-- `ReadBit` at the end of the input (spec R76). -/
theorem readBit_end (s : State) (h : 8 * s.inLen.toNat < s.ibitpos.toNat + 1) :
    readBit s = .error (.raise .inExhausted s.ibitpos) s := by
  simp [readBit, State.inAvail, Nat.not_le.2 h]

/-- `ReadBit` of an input whose next bit is `b` (spec R76). -/
theorem readBit_ok (s : State) (b : Bool) (hb : s.inputInBuffer) (h : s.hasInput [b]) :
    readBit s = .ok b (s.consume 1) := by
  obtain ⟨h1, h2⟩ := h
  have h0 := h2 0 (by simp)
  simp only [List.length_cons, List.length_nil, Nat.zero_add] at h1
  simp only [Nat.add_zero, State.inputBit?, List.getElem?_cons_zero, Option.map_eq_some_iff] at h0
  obtain ⟨v, hv, hbit⟩ := h0
  have hk : s.ibitpos.toNat / 8 < s.ibufBytes := by have := hb.1; omega
  have ha : s.inAvail 1 = true := by simp [State.inAvail, h1]
  simp [readBit, ha, readIbuf_ok _ s v hk hv, hbit, State.consume]

/-- The number a bit string stands for, most significant bit first (spec R9). -/
theorem readBits_ok (bits : List Bool) (v : Nat) (s : State) (hb : s.inputInBuffer) (h : s.hasInput bits) :
    readBits bits.length v s = .ok (bits.foldl (fun a b => 2 * a + b.toNat) v) (s.consume bits.length) := by
  induction bits generalizing s v with
  | nil => simp [readBits]
  | cons b bits ih =>
    have hs := State.hasInput_append (l := [b]) hb h
    have hlt := hs.1.lt hb
    have hr : readBit s = .ok b (s.consume 1) := readBit_ok s b hb hs.1
    rw [List.length_cons, readBits, Run.bind_ok hr, ih (2 * v + b.toNat) (s.consume 1) hb hs.2,
      State.consume_consume s 1 _ (by simpa using hlt), Nat.add_comm 1]
    rfl

/-- The bits of a value stand for the value. -/
theorem foldl_bitsOf {w : Nat} (v : BitVec w) (n a : Nat) :
    (bitsOf v n).foldl (fun a b => 2 * a + b.toNat) a = 2 ^ n * a + v.toNat % 2 ^ n := by
  induction n generalizing a with
  | zero => simp [Nat.mod_one]
  | succ n ih =>
    rw [bitsOf_succ, List.foldl_cons, ih]
    have hbit : v.toNat % 2 ^ (n + 1) = v.toNat % 2 ^ n + 2 ^ n * (v.getLsbD n).toNat := by
      rw [Nat.mod_pow_succ, BitVec.getLsbD, Nat.testBit_eq_decide_div_mod_eq]
      rcases Nat.mod_two_eq_zero_or_one (v.toNat / 2 ^ n) with h | h <;> simp [h]
    rw [hbit, Nat.pow_succ]
    ring

theorem requireInput_ok (n : Nat) (s : State) (h : s.ibitpos.toNat + n ≤ 8 * s.inLen.toNat) : requireInput n s = .ok () s := by
  simp [requireInput, State.inAvail, h]

/-- Too little input for the whole width: nothing is consumed (spec R77, R78). -/
theorem requireInput_end (n : Nat) (s : State) (h : 8 * s.inLen.toNat < s.ibitpos.toNat + n) :
    requireInput n s = .error (.raise .inExhausted s.ibitpos) s := by
  simp [requireInput, State.inAvail, Nat.not_le.2 h]

/-- `ReadWord8` of an input that goes on with the bits of `v` (spec R77). -/
theorem readWord8_ok (v : Byte) (s : State) (hb : s.inputInBuffer) (h : s.hasInput (bitsOf v 8)) :
    readWord8 s = .ok v (s.consume 8) := by
  have hr := readBits_ok (bitsOf v 8) 0 s hb h
  rw [bitsOf_length, foldl_bitsOf] at hr
  have h1 := h.1
  rw [bitsOf_length] at h1
  rw [readWord8, Run.bind_ok (requireInput_ok 8 s h1), Run.bind_ok hr]
  simp [Nat.mod_eq_of_lt v.isLt]

theorem readWord8_end (s : State) (h : 8 * s.inLen.toNat < s.ibitpos.toNat + 8) :
    readWord8 s = .error (.raise .inExhausted s.ibitpos) s := by
  rw [readWord8, Run.bind_error (requireInput_end 8 s h)]

/-- `ReadInt32` of an input that goes on with the bits of `v` (spec R78). -/
theorem readInt32_ok (v : Word) (s : State) (hb : s.inputInBuffer) (h : s.hasInput (bitsOf v 32)) :
    readInt32 s = .ok v (s.consume 32) := by
  have hr := readBits_ok (bitsOf v 32) 0 s hb h
  rw [bitsOf_length, foldl_bitsOf] at hr
  have h1 := h.1
  rw [bitsOf_length] at h1
  rw [readInt32, Run.bind_ok (requireInput_ok 32 s h1), Run.bind_ok hr]
  simp [Nat.mod_eq_of_lt v.isLt]

theorem readInt32_end (s : State) (h : 8 * s.inLen.toNat < s.ibitpos.toNat + 32) :
    readInt32 s = .error (.raise .inExhausted s.ibitpos) s := by
  rw [readInt32, Run.bind_error (requireInput_end 32 s h)]

end Sys2Proof.Machine
end

