-- ==== Sys2Proof/Laws/Trees.lean ====
section
/-! SUPPORT. The laws of the traversals: what each walk over the node arena does, in terms of the tree it goes over (spec R149, R161, R163, R195). -/

namespace Sys2Proof.Machine

/-! ### Trees as data -/

theorem CodeTree.size_pos (t : CodeTree) : 1 ≤ t.size := by cases t <;> simp [CodeTree.size]

theorem CodeTree.leaves_ne_nil (t : CodeTree) : t.leaves ≠ [] := by
  induction t with
  | leaf x => simp [CodeTree.leaves]
  | node l r hl hr => simp [CodeTree.leaves, hl]

/-- A full binary tree with `m` leaves has `2m - 1` nodes (spec R14). -/
theorem CodeTree.size_eq (t : CodeTree) : t.size + 1 = 2 * t.leaves.length := by
  induction t with
  | leaf x => rfl
  | node l r hl hr =>
    simp only [CodeTree.size, CodeTree.leaves, List.length_append]
    omega

/-- The serialized tree has a bit a node and 8 more a leaf (spec R111). -/
theorem CodeTree.preorder_length (t : CodeTree) : t.preorder.length = t.size + 8 * t.leaves.length := by
  induction t with
  | leaf x => simp [CodeTree.preorder, CodeTree.size, CodeTree.leaves]
  | node l r hl hr =>
    simp only [CodeTree.preorder, CodeTree.size, CodeTree.leaves, List.length_cons, List.length_append, hl, hr]
    omega

@[simp] theorem CodeTree.layout_length (t : CodeTree) (i : Nat) : (t.layout i).length = t.size := by
  induction t generalizing i with
  | leaf x => rfl
  | node l r hl hr => simp [CodeTree.layout, CodeTree.size, hl, hr]

/-- The symbols of the codes are the leaves, left to right. -/
theorem CodeTree.codes_fst (t : CodeTree) : t.codes.map Prod.fst = t.leaves := by
  induction t with
  | leaf x => rfl
  | node l r hl hr =>
    simp only [CodeTree.codes, CodeTree.leaves, List.map_append, List.map_map, ← hl, ← hr]
    rfl

/-- No code is longer than the tree has leaves beside its own. -/
theorem CodeTree.code_length (t : CodeTree) (p : Byte × List Bool) (h : p ∈ t.codes) : p.2.length + 1 ≤ t.leaves.length := by
  induction t generalizing p with
  | leaf x =>
    simp only [CodeTree.codes, List.mem_singleton] at h
    simp [h, CodeTree.leaves]
  | node l r hl hr =>
    have h1 := List.length_pos_of_ne_nil l.leaves_ne_nil
    have h2 := List.length_pos_of_ne_nil r.leaves_ne_nil
    simp only [CodeTree.codes, List.mem_append, List.mem_map] at h
    simp only [CodeTree.leaves, List.length_append]
    rcases h with ⟨q, hq, rfl⟩ | ⟨q, hq, rfl⟩
    · have := hl q hq
      simp only [List.length_cons]
      omega
    · have := hr q hq
      simp only [List.length_cons]
      omega

/-- A serialized tree is the bits of its nodes in pre-order (spec R111). -/
theorem CodeTree.preorder_eq (t : CodeTree) : t.preorder = t.nodes.flatMap nodeBits := by
  induction t with
  | leaf x => simp [CodeTree.preorder, CodeTree.nodes, nodeBits]
  | node l r hl hr => simp [CodeTree.preorder, CodeTree.nodes, nodeBits, hl, hr]

/-- The serializer's writes hold the serialized tree (spec R161). -/
theorem CodeTree.items_flatten (t : CodeTree) : t.items.flatten = t.preorder := by
  have h : ∀ ns : List (Option Byte), (ns.flatMap nodeItems).flatten = ns.flatMap nodeBits := fun ns => by
    induction ns with
    | nil => rfl
    | cons n ns ih => cases n <;> simp [nodeItems, nodeBits, ih]
  rw [CodeTree.items, h, CodeTree.preorder_eq]

@[simp] theorem CodeTree.nodes_length (t : CodeTree) : t.nodes.length = t.size := by
  induction t with
  | leaf x => rfl
  | node l r hl hr => simp [CodeTree.nodes, CodeTree.size, hl, hr]

@[simp] theorem leafSymbols_append (a b : List (Option Byte)) : leafSymbols (a ++ b) = leafSymbols a ++ leafSymbols b := by
  simp [leafSymbols]

@[simp] theorem leafSymbols_none (ns : List (Option Byte)) : leafSymbols (none :: ns) = leafSymbols ns := rfl

/-- The leaves among a tree's nodes are its leaves. -/
@[simp] theorem CodeTree.leafSymbols_nodes (t : CodeTree) : leafSymbols t.nodes = t.leaves := by
  induction t with
  | leaf x => rfl
  | node l r hl hr => simp [CodeTree.nodes, CodeTree.leaves, hl, hr]

/-! ### Trees in the arena -/

/-- A leaf of the arena is a tree. -/
theorem treeAt_leaf {arena : List Node} {f : Nat} {i : NodeIdx} {n : Node} (h : arena[i.toNat]? = some n) (hl : n.leaf = true) :
    treeAt arena (f + 1) i = some (.leaf n.sym) := by
  simp [treeAt, h, hl]

/-- An internal node of the arena over two trees is a tree. -/
theorem treeAt_node {arena : List Node} {f : Nat} {i : NodeIdx} {n : Node} {l r : CodeTree} (h : arena[i.toNat]? = some n)
    (hl : n.leaf = false) (h1 : treeAt arena f n.left = some l) (h2 : treeAt arena f n.right = some r) :
    treeAt arena (f + 1) i = some (.node l r) := by
  simp [treeAt, h, hl, h1, h2]

/-- A tree in the arena is a leaf, or an internal node over two trees. -/
theorem treeAt_cases {arena : List Node} {f : Nat} {i : NodeIdx} {t : CodeTree} (h : treeAt arena f i = some t) :
    ∃ g n, f = g + 1 ∧ arena[i.toNat]? = some n ∧
      ((n.leaf = true ∧ t = .leaf n.sym) ∨
        (n.leaf = false ∧ ∃ l r, treeAt arena g n.left = some l ∧ treeAt arena g n.right = some r ∧ t = .node l r)) := by
  cases f with
  | zero => simp [treeAt] at h
  | succ g =>
    simp only [treeAt] at h
    split at h
    · cases h
    · rename_i n hn
      refine ⟨g, n, rfl, hn, ?_⟩
      split at h
      · rename_i hl
        exact .inl ⟨hl, by simpa using h.symm⟩
      · rename_i hl
        split at h
        · rename_i l r h1 h2
          exact .inr ⟨by simpa using hl, l, r, h1, h2, by simpa using h.symm⟩
        · cases h

/-- More nesting allowed, or more entries behind, leave a tree as it is. -/
theorem treeAt_mono {arena more : List Node} {f g : Nat} {i : NodeIdx} {t : CodeTree} (h : treeAt arena f i = some t)
    (hfg : f ≤ g) : treeAt (arena ++ more) g i = some t := by
  induction f generalizing g i t with
  | zero => simp [treeAt] at h
  | succ f ih =>
    obtain ⟨f', n, hf, hn, hc⟩ := treeAt_cases h
    obtain ⟨g, rfl⟩ : ∃ k, g = k + 1 := ⟨g - 1, by omega⟩
    have hf' : f' = f := by omega
    subst hf'
    have hn' : (arena ++ more)[i.toNat]? = some n := by
      rw [List.getElem?_append_left (List.getElem?_eq_some_iff.1 hn).1]
      exact hn
    rcases hc with ⟨hl, rfl⟩ | ⟨hl, l, r, h1, h2, rfl⟩
    · exact treeAt_leaf hn' hl
    · exact treeAt_node hn' hl (ih h1 (by omega)) (ih h2 (by omega))

/-! ### The traversals -/

/-- `WriteNode` with room for the whole tree produces its pre-order bits (spec R161). -/
theorem writeNode_ok (f : Nat) (i : NodeIdx) (t : CodeTree) (s : State) (h : treeAt s.arena f i = some t)
    (hr : s.obitpos.toNat + t.preorder.length ≤ 8 * s.obufBytes) : writeNode f i s = .ok () (s.emit t.preorder) := by
  induction f generalizing i t s with
  | zero => simp [treeAt] at h
  | succ f ih =>
    obtain ⟨g, n, hf, hn, hc⟩ := treeAt_cases h
    have hg : g = f := by omega
    subst hg
    rw [writeNode, Run.bind_ok (loadNode_ok i s n hn)]
    rcases hc with ⟨hl, rfl⟩ | ⟨hl, l, r, h1, h2, rfl⟩
    · simp only [CodeTree.preorder, List.length_cons, bitsOf_length] at hr
      simp only [hl, if_true, writeLeaf]
      rw [Run.bind_ok (writeBit_ok true s (by omega)), writeWord8_ok]
      · simp only [CodeTree.preorder, State.emit_cons]
      · have h1 := State.emit_obitpos_le s [true]
        have h2 := State.emit_obufBytes s [true]
        simp only [State.emit_cons, State.emit_nil, List.length_cons, List.length_nil] at h1 h2
        omega
    · simp only [CodeTree.preorder, List.length_cons, List.length_append] at hr
      have e1 := State.emit_obitpos_le s [false]
      have e2 := State.emit_obitpos_le (s.emitBit false) l.preorder
      simp only [State.emit_cons, State.emit_nil, List.length_cons, List.length_nil] at e1
      have hw : writeBit false s = .ok () (s.emitBit false) := writeBit_ok false s (by omega)
      have hwl := ih n.left l (s.emitBit false) (by simpa using h1) (by simp; omega)
      have hwr := ih n.right r ((s.emitBit false).emit l.preorder) (by simpa using h2) (by simp; omega)
      simp only [hl, Bool.false_eq_true, if_false]
      rw [Run.bind_ok hw, Run.bind_ok hwl, hwr]
      simp [CodeTree.preorder, State.emit_append]

/-- What `Visit` leaves: the code of each leaf below, left to right (spec R149). -/
def State.setCodes (s : State) (d v : Nat) (cs : List (Byte × List Bool)) : State :=
  cs.foldl (fun t p => t.setCode p.1 (d + p.2.length) (p.2.foldl (fun a b => 2 * a + b.toNat) v)) s

theorem State.setCodes_append (s : State) (d v : Nat) (a b : List (Byte × List Bool)) :
    s.setCodes d v (a ++ b) = (s.setCodes d v a).setCodes d v b := List.foldl_append

theorem State.setCodes_map (s : State) (d v : Nat) (x : Bool) (cs : List (Byte × List Bool)) :
    s.setCodes d v (cs.map (fun p => (p.1, x :: p.2))) = s.setCodes (d + 1) (2 * v + x.toNat) cs := by
  induction cs generalizing s with
  | nil => rfl
  | cons p cs ih =>
    simp only [State.setCodes, List.map_cons, List.foldl_cons, List.length_cons] at ih ⊢
    rw [ih, show d + (p.2.length + 1) = d + 1 + p.2.length by omega]

theorem State.setCodes_arena (s : State) (d v : Nat) (cs : List (Byte × List Bool)) : (s.setCodes d v cs).arena = s.arena := by
  induction cs generalizing s with
  | nil => rfl
  | cons p cs ih => exact (ih _).trans rfl

/-- `Visit` gives every leaf below its path as its code (spec R149, R150). -/
theorem visit_ok (f : Nat) (i : NodeIdx) (d v : Nat) (t : CodeTree) (s : State) (h : treeAt s.arena f i = some t) :
    visit f i d v s = .ok () (s.setCodes d v t.codes) := by
  induction f generalizing i d v t s with
  | zero => simp [treeAt] at h
  | succ f ih =>
    obtain ⟨g, n, hf, hn, hc⟩ := treeAt_cases h
    have hg : g = f := by omega
    subst hg
    rw [visit, Run.bind_ok (loadNode_ok i s n hn)]
    rcases hc with ⟨hl, rfl⟩ | ⟨hl, l, r, h1, h2, rfl⟩
    · simp [hl, CodeTree.codes, State.setCodes]
    · simp only [hl, Bool.false_eq_true, if_false]
      rw [Run.bind_ok (ih n.left (d + 1) (2 * v) l s h1),
        ih n.right (d + 1) (2 * v + 1) r _ (by rw [State.setCodes_arena]; exact h2)]
      simp only [CodeTree.codes, State.setCodes_append, State.setCodes_map]
      rfl

/-- A walk over the path of a leaf reaches it and consumes the path (spec R195, R196). -/
theorem walk_ok (f : Nat) (i : NodeIdx) (g : Nat) (t : CodeTree) (p : Byte × List Bool) (s : State)
    (h : treeAt s.arena g i = some t) (hp : p ∈ t.codes) (hf : p.2.length ≤ f) (hb : s.inputInBuffer) (hi : s.hasInput p.2) :
    walk f i s = .ok p.1 (s.consume p.2.length) := by
  induction t generalizing f i g p s with
  | leaf x =>
    obtain ⟨g', n, -, hn, hc⟩ := treeAt_cases h
    have hx : n.leaf = true ∧ n.sym = x := by
      rcases hc with ⟨hl, ht⟩ | ⟨-, l, r, -, -, ht⟩
      · exact ⟨hl, by simpa using ht.symm⟩
      · cases ht
    simp only [CodeTree.codes, List.mem_singleton] at hp
    subst hp
    cases f <;> rw [walk, Run.bind_ok (loadNode_ok i s n hn)] <;> simp [hx]
  | node l r hl hr =>
    obtain ⟨g', n, -, hn, hc⟩ := treeAt_cases h
    obtain ⟨hx, h1, h2⟩ : n.leaf = false ∧ treeAt s.arena g' n.left = some l ∧ treeAt s.arena g' n.right = some r := by
      rcases hc with ⟨-, ht⟩ | ⟨hl, l', r', h1, h2, ht⟩
      · cases ht
      · cases ht
        exact ⟨hl, h1, h2⟩
    have step : ∀ (b : Bool) (q : Byte × List Bool) (j : NodeIdx), p = (q.1, b :: q.2) →
        (∀ (f : Nat) (s' : State), s' = s.consume 1 → q.2.length ≤ f → s'.hasInput q.2 →
          walk f j s' = .ok q.1 (s'.consume q.2.length)) →
        (if b then n.right else n.left) = j → walk f i s = .ok p.1 (s.consume p.2.length) := by
      rintro b q j rfl hq hj
      obtain ⟨f, rfl⟩ : ∃ k, f = k + 1 := ⟨f - 1, by simp at hf; omega⟩
      have hs := State.hasInput_append (l := [b]) hb hi
      have hlt := hs.1.lt hb
      rw [walk, Run.bind_ok (loadNode_ok i s n hn)]
      simp only [hx, Bool.false_eq_true, if_false]
      rw [Run.bind_ok (readBit_ok s b hb hs.1), hj, hq f _ rfl (by simpa using hf) hs.2,
        State.consume_consume s 1 _ (by simpa using hlt), Nat.add_comm 1]
      rfl
    simp only [CodeTree.codes, List.mem_append, List.mem_map] at hp
    rcases hp with ⟨q, hq, rfl⟩ | ⟨q, hq, rfl⟩
    · exact step false q n.left rfl (fun f s' e hf hi => by subst e; exact hl f n.left g' q _ h1 hq hf hb hi) rfl
    · exact step true q n.right rfl (fun f s' e hf hi => by subst e; exact hr f n.right g' q _ h2 hq hf hb hi) rfl

/-! ### Reading a tree -/

@[simp] theorem State.setArena_setArena (s : State) (a b : List Node) : (s.setArena a).setArena b = s.setArena b := rfl

@[simp] theorem State.setArena_self (s : State) : s.setArena s.arena = s := rfl

theorem setLinks_last (a rest : List Node) (n : Node) (l r : NodeIdx) :
    (a ++ n :: rest).modify a.length (fun m => { m with left := l, right := r }) =
      a ++ { n with left := l, right := r } :: rest := by
  induction a with
  | nil => rfl
  | cons x a ih => simp [ih]

/-- `ReadNode` of the pre-order bits of a tree without a repeated symbol lays its nodes out in pre-order (spec R164). -/
theorem readNode_ok (f : Nat) (seen : List Byte) (t : CodeTree) (s : State) (hb : s.inputInBuffer)
    (hi : s.hasInput t.preorder) (hd : t.leaves.Nodup) (hs : ∀ x ∈ t.leaves, x ∉ seen) (hf : t.size ≤ f)
    (ha : s.arena.length + t.size ≤ Config.maxNodes) :
    readNode f seen s = .ok (BitVec.ofNat 9 s.arena.length, t.leaves.reverse ++ seen)
      ((s.consume t.preorder.length).setArena (s.arena ++ t.layout s.arena.length)) := by
  induction t generalizing f seen s with
  | leaf x =>
    obtain ⟨f, rfl⟩ : ∃ k, f = k + 1 := ⟨f - 1, by simp [CodeTree.size] at hf; omega⟩
    have h1 := State.hasInput_append (l := [true]) (m := bitsOf x 8) hb hi
    have hlt := h1.1.lt hb
    have hseen : x ∉ seen := hs x (by simp [CodeTree.leaves])
    simp only [CodeTree.size] at ha
    have e1 : readBit s = .ok true (s.consume 1) := readBit_ok s true hb h1.1
    have e2 : readWord8 (s.consume 1) = .ok x (s.consume 9) := by
      rw [readWord8_ok x (s.consume 1) hb h1.2, State.consume_consume s 1 8 (by simpa using hlt)]
    rw [readNode, Run.bind_ok e1]
    simp only [if_true, readLeaf]
    rw [Run.bind_ok e2]
    simp only [hseen, if_false]
    rw [Run.bind_ok (alloc_ok _ _ (by simp; omega))]
    simp [CodeTree.leaves, CodeTree.preorder, CodeTree.layout]
  | node l r hl hr =>
    obtain ⟨f, rfl⟩ : ∃ k, f = k + 1 := ⟨f - 1, by simp [CodeTree.size] at hf; omega⟩
    have hlt := hi.lt hb
    simp only [CodeTree.size] at ha hf
    simp only [CodeTree.preorder, List.length_cons, List.length_append] at hlt
    have h1 := State.hasInput_append (l := [false]) (m := l.preorder ++ r.preorder) hb hi
    have h2 := State.hasInput_append (s := s.consume 1) hb h1.2
    rw [State.consume_consume s 1 _ (by omega)] at h2
    simp only [CodeTree.leaves, List.nodup_append] at hd
    have hsl : ∀ x ∈ l.leaves, x ∉ seen := fun x hx => hs x (by simp [CodeTree.leaves, hx])
    have hsr : ∀ x ∈ r.leaves, x ∉ l.leaves.reverse ++ seen := fun x hx => by
      simp only [List.mem_append, List.mem_reverse, not_or]
      exact ⟨fun hl' => hd.2.2 x hl' x hx rfl, hs x (by simp [CodeTree.leaves, hx])⟩
    have e0 : readBit s = .ok false (s.consume 1) := readBit_ok s false hb h1.1
    let top := internalNode Config.wUnknown Config.nil Config.nil
    have e1 : alloc top (s.consume 1) = .ok (BitVec.ofNat 9 s.arena.length) ((s.consume 1).setArena (s.arena ++ [top])) :=
      alloc_ok top (s.consume 1) (by simp; omega)
    have e2 := hl f seen ((s.consume 1).setArena (s.arena ++ [top])) hb
      ((State.hasInput_congr rfl rfl rfl _).2 h2.1) hd.1 hsl (by omega) (by simp; omega)
    have e3 := hr f (l.leaves.reverse ++ seen)
      ((s.consume (1 + l.preorder.length)).setArena (s.arena ++ [top] ++ l.layout (s.arena.length + 1))) hb
      ((State.hasInput_congr rfl rfl rfl _).2 h2.2) hd.2.1 hsr (by omega) (by simp; omega)
    have c1 : ((s.consume 1).setArena (s.arena ++ [top])).consume l.preorder.length =
        (s.consume (1 + l.preorder.length)).setArena (s.arena ++ [top]) := by
      rw [← State.consume_consume s 1 _ (by omega)]
      rfl
    have c2 : ∀ a, ((s.consume (1 + l.preorder.length)).setArena a).consume r.preorder.length =
        (s.consume (CodeTree.node l r).preorder.length).setArena a := fun a => by
      rw [show (CodeTree.node l r).preorder.length = 1 + l.preorder.length + r.preorder.length by
        simp [CodeTree.preorder]; omega, ← State.consume_consume s (1 + l.preorder.length) _ (by omega)]
      rfl
    rw [c1] at e2
    rw [c2] at e3
    simp only [State.setArena_arena, List.length_append, List.length_cons, List.length_nil, State.setArena_setArena] at e2 e3
    rw [readNode, Run.bind_ok e0]
    simp only [Bool.false_eq_true, if_false]
    rw [Run.bind_ok e1, Run.bind_ok e2, Run.bind_ok e3]
    have hk : (BitVec.ofNat 9 s.arena.length).toNat = s.arena.length := by
      have : Config.maxNodes = 511 := rfl
      rw [BitVec.toNat_ofNat, Nat.mod_eq_of_lt (by omega)]
    simp only [Run.update_bind, Run.pure_apply, State.setLinks, State.setArena_arena, State.setArena_setArena, hk,
      List.append_assoc, List.cons_append, List.nil_append, setLinks_last]
    simp [CodeTree.leaves, CodeTree.layout, top, internalNode, Nat.add_assoc, Nat.add_comm 1]

/-- `ReadNode` fails where node `k` of its tree fails, after the nodes before it were read and allocated (spec R164, R166):
`e` is how the node fails, whatever those nodes hold, and `post` what it leaves beside them. -/
theorem readNode_fails (e : Abort) (post : List Node → State) (f : Nat) (seen : List Byte) (t : CodeTree) (k : Nat)
    (s : State) (hb : s.inputInBuffer) (hk : k < t.size) (hd : (leafSymbols (t.nodes.take k)).Nodup)
    (hs : ∀ x ∈ leafSymbols (t.nodes.take k), x ∉ seen) (hi : k = 0 ∨ s.hasInput ((t.nodes.take k).flatMap nodeBits))
    (ha : s.arena.length + k ≤ Config.maxNodes) (hf : k < f)
    (h : ∀ g arena seen', arena.length = s.arena.length + k →
      (∀ x, x ∈ seen' ↔ x ∈ leafSymbols (t.nodes.take k) ∨ x ∈ seen) →
      readNode (g + 1) seen' ((s.consume ((t.nodes.take k).flatMap nodeBits).length).setArena arena) =
        .error e (post arena)) :
    ∃ arena, arena.length = s.arena.length + k ∧ readNode f seen s = .error e (post arena) := by
  induction t generalizing f seen k s with
  | leaf x =>
    obtain ⟨f, rfl⟩ : ∃ g, f = g + 1 := ⟨f - 1, by omega⟩
    simp only [CodeTree.size] at hk
    obtain rfl : k = 0 := by omega
    exact ⟨s.arena, by simp, by simpa [leafSymbols] using h f s.arena seen (by simp) (by simp [leafSymbols])⟩
  | node l r hl hr =>
    obtain ⟨f, rfl⟩ : ∃ g, f = g + 1 := ⟨f - 1, by omega⟩
    cases k with
    | zero => exact ⟨s.arena, by simp, by simpa [leafSymbols] using h f s.arena seen (by simp) (by simp [leafSymbols])⟩
    | succ k =>
      replace hi := hi.resolve_left (by simp)
      simp only [CodeTree.nodes, CodeTree.size, List.take_succ_cons, List.flatMap_cons, nodeBits, leafSymbols_none,
        List.length_append, List.length_cons, List.length_nil, Nat.zero_add] at hk hd hs hi h
      have hlt := hi.lt hb
      obtain ⟨i1, i2⟩ := State.hasInput_append (l := [false]) hb hi
      simp only [List.length_append, List.length_cons, List.length_nil] at hlt i2
      let top := internalNode Config.wUnknown Config.nil Config.nil
      let s1 := (s.consume 1).setArena (s.arena ++ [top])
      have e0 : readBit s = .ok false (s.consume 1) := readBit_ok s false hb i1
      have e1 : alloc top (s.consume 1) = .ok (BitVec.ofNat 9 s.arena.length) s1 :=
        alloc_ok top (s.consume 1) (by simp; omega)
      have c1 : ∀ n arena, 1 + n < 2 ^ 32 - s.ibitpos.toNat →
          (s1.consume n).setArena arena = (s.consume (1 + n)).setArena arena := fun n arena hn => by
        rw [← State.consume_consume s 1 n (by omega)]
        rfl
      have l1 : s1.arena.length = s.arena.length + 1 := by simp [s1]
      by_cases hkl : k < l.size
      · rw [List.take_append_of_le_length (by simp; omega)] at hd hs h i2 hlt
        obtain ⟨arena, h1, h2⟩ := hl f seen k s1 hb hkl hd hs (.inr ((State.hasInput_congr rfl rfl rfl _).2 i2))
          (by omega) (by omega) (fun g arena seen' h1 h2 => by
            rw [c1 _ _ (by omega)]
            exact h g arena seen' (by omega) h2)
        refine ⟨arena, by omega, ?_⟩
        rw [readNode, Run.bind_ok e0]
        simp only [Bool.false_eq_true, if_false]
        rw [Run.bind_ok e1, Run.bind_error h2]
      · rw [List.take_append, List.take_of_length_le (l := l.nodes) (by simp; omega)] at hd hs h i2 hlt
        simp only [CodeTree.nodes_length, leafSymbols_append, CodeTree.leafSymbols_nodes, List.flatMap_append,
          ← CodeTree.preorder_eq, List.length_append] at hd hs h i2 hlt
        obtain ⟨i3, i4⟩ := State.hasInput_append (s := s.consume 1) hb i2
        obtain ⟨d1, d2, d3⟩ := List.nodup_append.1 hd
        have e2 := readNode_ok f seen l s1 hb ((State.hasInput_congr rfl rfl rfl _).2 i3) d1
          (fun x hx => hs x (by simp [hx])) (by omega) (by omega)
        let s2 := (s1.consume l.preorder.length).setArena (s1.arena ++ l.layout s1.arena.length)
        have l2 : s2.arena.length = s.arena.length + 1 + l.size := by simp [s2, l1]
        have c2 : ∀ n arena, 1 + l.preorder.length + n < 2 ^ 32 - s.ibitpos.toNat →
            (s2.consume n).setArena arena = (s.consume (1 + (l.preorder.length + n))).setArena arena := fun n arena hn => by
          have hp : s1.ibitpos.toNat + l.preorder.length < 2 ^ 32 := by
            have : s1.ibitpos = BitVec.ofNat 32 (s.ibitpos.toNat + 1) := rfl
            rw [this, BitVec.toNat_ofNat, Nat.mod_eq_of_lt (by omega)]
            omega
          rw [← c1 _ _ (by omega), ← State.consume_consume s1 _ n hp]
          rfl
        obtain ⟨arena, h1, h2⟩ := hr f (l.leaves.reverse ++ seen) (k - l.size) s2 hb (by omega) d2
          (fun x hx => by
            simp only [List.mem_append, List.mem_reverse, not_or]
            exact ⟨fun hx' => d3 x hx' x hx rfl, hs x (by simp [hx])⟩)
          (.inr ((State.hasInput_congr rfl rfl rfl _).2 i4)) (by omega) (by omega) (fun g arena seen' h1 h2 => by
            rw [c2 _ _ (by omega)]
            exact h g arena seen' (by omega) (fun x => by rw [h2]; simp; tauto))
        refine ⟨arena, by omega, ?_⟩
        rw [readNode, Run.bind_ok e0]
        simp only [Bool.false_eq_true, if_false]
        rw [Run.bind_ok e1, Run.bind_ok e2]
        exact Run.bind_error h2

/-- After the root's node bit, a tree fails where `ReadNode` of the same bits fails (spec R163). -/
theorem readTree_fails {s s' t : State} {e : Abort} (hb : readBit s = .ok false s')
    (h : readNode (Config.maxNodes + 1) [] s = .error e t) : readTree s' = .error e t := by
  rw [readNode, Run.bind_ok hb] at h
  simp only [Bool.false_eq_true, if_false] at h
  unfold readTree
  generalize hx : alloc (internalNode Config.wUnknown Config.nil Config.nil) s' = x at h
  cases x with
  | error e1 t1 =>
    rw [Run.bind_error hx] at h ⊢
    cases h
    rfl
  | ok i s1 =>
    rw [Run.bind_ok hx] at h ⊢
    generalize hy : readNode Config.maxNodes [] s1 = y at h
    cases y with
    | error e1 t1 =>
      rw [Run.bind_error hy] at h ⊢
      cases h
      rfl
    | ok l s2 =>
      rw [Run.bind_ok hy] at h ⊢
      generalize hz : readNode Config.maxNodes l.2 s2 = z at h
      cases z with
      | error e1 t1 =>
        rw [Run.bind_error hz] at h ⊢
        cases h
        rfl
      | ok q s3 =>
        rw [Run.bind_ok hz] at h
        simp at h

/-- The nodes a tree is laid out as are that tree, wherever they stand in the arena. -/
theorem treeAt_layout (f : Nat) (t : CodeTree) (a rest : List Node) (hf : t.size ≤ f)
    (ha : a.length + t.size ≤ Config.maxNodes) :
    treeAt (a ++ t.layout a.length ++ rest) f (BitVec.ofNat 9 a.length) = some t := by
  have h511 : Config.maxNodes = 511 := rfl
  induction t generalizing f a rest with
  | leaf x =>
    obtain ⟨f, rfl⟩ : ∃ k, f = k + 1 := ⟨f - 1, by simp [CodeTree.size] at hf; omega⟩
    simp only [CodeTree.size] at ha
    have hk : (BitVec.ofNat 9 a.length).toNat = a.length := by
      rw [BitVec.toNat_ofNat, Nat.mod_eq_of_lt (by omega)]
    exact treeAt_leaf (n := leafNode x Config.wUnknown) (by simp [hk, CodeTree.layout]) rfl
  | node l r hl hr =>
    obtain ⟨f, rfl⟩ : ∃ k, f = k + 1 := ⟨f - 1, by simp [CodeTree.size] at hf; omega⟩
    simp only [CodeTree.size] at ha hf
    have hk : (BitVec.ofNat 9 a.length).toNat = a.length := by
      rw [BitVec.toNat_ofNat, Nat.mod_eq_of_lt (by omega)]
    let top := internalNode Config.wUnknown (BitVec.ofNat 9 (a.length + 1)) (BitVec.ofNat 9 (a.length + 1 + l.size))
    have e1 := hl f (a ++ [top]) (r.layout (a.length + 1 + l.size) ++ rest) (by omega) (by simp; omega)
    have e2 := hr f (a ++ [top] ++ l.layout (a.length + 1)) rest (by omega) (by simp; omega)
    simp only [List.length_append, List.length_cons, List.length_nil, CodeTree.layout_length, List.append_assoc,
      List.cons_append, List.nil_append] at e1 e2
    refine treeAt_node (n := top) (by simp [hk, CodeTree.layout, top]) rfl ?_ ?_
    · simpa [CodeTree.layout, top, internalNode] using e1
    · have e : a.length + (l.size + 1) = a.length + 1 + l.size := by omega
      simpa [CodeTree.layout, top, internalNode, e] using e2

end Sys2Proof.Machine
end

