-- ==== Sys2Proof/Laws/Frames.lean ====
section
/-! SUPPORT. What holds all through each shared operation and each traversal: a property of states the operation keeps, a relation between the states before and after, and the ways it can abort. -/

namespace Sys2Proof.Machine

variable {I : State → Prop} {P : State → State → Prop} {E : Abort → Prop}

/-! ### The input port -/

/-- `ReadBit` moves the input cursor by one, or draws a free value besides, or fails (spec R50, R76). -/
theorem readBit_cases (s : State) :
    (∃ b, readBit s = .ok b (s.consume 1)) ∨ (∃ b, readBit s = .ok b { s.consume 1 with draws := s.draws + 1 }) ∨
      readBit s = .error (.raise .inExhausted s.ibitpos) s ∨
      (readBit s = .error (.stop .noSuchByte) s ∧ s.ibufBytes ≤ s.ibitpos.toNat / 8 ∧ s.inAvail 1 = true) := by
  unfold readBit readIbuf State.fetchByte
  by_cases h : s.inAvail 1
  · by_cases hk : s.ibitpos.toNat / 8 < s.ibufBytes
    · cases hm : memLookup s.ibuf (s.ibitpos.toNat / 8) with
      | none => exact .inr (.inl ⟨_, by simp [h, hk, State.consume]; rfl⟩)
      | some v => exact .inl ⟨_, by simp [h, hk, State.consume]; rfl⟩
    · exact .inr (.inr (.inr ⟨by simp [h, hk], by omega, h⟩))
  · exact .inr (.inr (.inl (by simp [h])))

theorem Run.Sat.readBit (hrefl : ∀ a, P a a)
    (h : ∀ s : State, I s → s.inAvail 1 = true → ∀ d, I { s.consume 1 with draws := d } ∧ P s { s.consume 1 with draws := d })
    (he : ∀ info, E (.raise .inExhausted info))
    (hf : ∀ s : State, I s → s.ibufBytes ≤ s.ibitpos.toNat / 8 → s.inAvail 1 = true → E (.stop .noSuchByte)) :
    Run.Sat I P E Machine.readBit := by
  intro s hs
  by_cases ha : s.inAvail 1 = true
  · rcases readBit_cases s with ⟨b, e⟩ | ⟨b, e⟩ | e | ⟨e, h1, h2⟩ <;> rw [e]
    · exact ⟨fun b t e => by (cases e; exact h s hs ha s.draws), fun e t h => by cases h⟩
    · exact ⟨fun b t e => by (cases e; exact h s hs ha _), fun e t h => by cases h⟩
    · exact ⟨fun b t h => by (cases h), fun e t h => by cases h; exact ⟨hs, hrefl s, he _⟩⟩
    · exact ⟨fun b t h => by (cases h), fun e t h => by cases h; exact ⟨hs, hrefl s, hf s hs h1 h2⟩⟩
  · have e : Machine.readBit s = .error (.raise .inExhausted s.ibitpos) s := by simp [Machine.readBit, ha]
    rw [e]
    exact ⟨fun b t h => by (cases h), fun e t h => by cases h; exact ⟨hs, hrefl s, he _⟩⟩

theorem Run.Sat.readBits (hrefl : ∀ a, P a a) (htrans : ∀ a b c, P a b → P b c → P a c)
    (h : Run.Sat I P E Machine.readBit) (n v : Nat) : Run.Sat I P E (readBits n v) := by
  induction n generalizing v with
  | zero => exact Run.Sat.pure hrefl v
  | succ n ih => exact Run.Sat.bind htrans h fun b => ih _

theorem Run.Sat.requireInput (hrefl : ∀ a, P a a) (he : ∀ info, E (.raise .inExhausted info)) (n : Nat) :
    Run.Sat I P E (requireInput n) := by
  intro s hs
  unfold Machine.requireInput
  split
  · exact ⟨fun b t h => by (cases h; exact ⟨hs, hrefl s⟩), fun e t h => by cases h⟩
  · exact ⟨fun b t h => by (cases h), fun e t h => by cases h; exact ⟨hs, hrefl s, he _⟩⟩

theorem Run.Sat.readWord8 (hrefl : ∀ a, P a a) (htrans : ∀ a b c, P a b → P b c → P a c)
    (h : Run.Sat I P E Machine.readBit) (he : ∀ info, E (.raise .inExhausted info)) : Run.Sat I P E readWord8 :=
  Run.Sat.bind htrans (Run.Sat.requireInput hrefl he 8) fun _ =>
    Run.Sat.bind htrans (Run.Sat.readBits hrefl htrans h 8 0) fun _ => Run.Sat.pure hrefl _

theorem Run.Sat.readInt32 (hrefl : ∀ a, P a a) (htrans : ∀ a b c, P a b → P b c → P a c)
    (h : Run.Sat I P E Machine.readBit) (he : ∀ info, E (.raise .inExhausted info)) : Run.Sat I P E readInt32 :=
  Run.Sat.bind htrans (Run.Sat.requireInput hrefl he 32) fun _ =>
    Run.Sat.bind htrans (Run.Sat.readBits hrefl htrans h 32 0) fun _ => Run.Sat.pure hrefl _

/-! ### The output port -/

theorem Run.Sat.writeBit (hrefl : ∀ a, P a a) (b : Bool)
    (h : ∀ s : State, I s → s.obitpos.toNat < 8 * s.obufBytes → I (s.emitBit b) ∧ P s (s.emitBit b))
    (he : ∀ info, E (.raise .outFull info)) : Run.Sat I P E (writeBit b) := by
  intro s hs
  by_cases hr : s.obitpos.toNat < 8 * s.obufBytes
  · rw [writeBit_ok b s hr]
    exact ⟨fun b t e => by (cases e; exact h s hs hr), fun e t h => by cases h⟩
  · rw [writeBit_full b s (by omega)]
    exact ⟨fun b t h => by (cases h), fun e t h => by cases h; exact ⟨hs, hrefl s, he _⟩⟩

theorem Run.Sat.writeBits (hrefl : ∀ a, P a a) (htrans : ∀ a b c, P a b → P b c → P a c)
    (h : ∀ b, Run.Sat I P E (Machine.writeBit b)) {w : Nat} (v : BitVec w) (n : Nat) : Run.Sat I P E (writeBits v n) := by
  induction n with
  | zero => exact Run.Sat.pure hrefl ()
  | succ n ih => exact Run.Sat.bind htrans (h _) fun _ => ih

theorem Run.Sat.requireRoom (hrefl : ∀ a, P a a) (he : ∀ info, E (.raise .outFull info)) (n : Nat) :
    Run.Sat I P E (requireRoom n) := by
  intro s hs
  unfold Machine.requireRoom
  split
  · exact ⟨fun b t h => by (cases h; exact ⟨hs, hrefl s⟩), fun e t h => by cases h⟩
  · exact ⟨fun b t h => by (cases h), fun e t h => by cases h; exact ⟨hs, hrefl s, he _⟩⟩

theorem Run.Sat.writeWord8 (hrefl : ∀ a, P a a) (htrans : ∀ a b c, P a b → P b c → P a c)
    (h : ∀ b, Run.Sat I P E (Machine.writeBit b)) (he : ∀ info, E (.raise .outFull info)) (v : Byte) :
    Run.Sat I P E (writeWord8 v) :=
  Run.Sat.bind htrans (Run.Sat.requireRoom hrefl he 8) fun _ => Run.Sat.writeBits hrefl htrans h v 8

theorem Run.Sat.writeInt32 (hrefl : ∀ a, P a a) (htrans : ∀ a b c, P a b → P b c → P a c)
    (h : ∀ b, Run.Sat I P E (Machine.writeBit b)) (he : ∀ info, E (.raise .outFull info)) (v : Word) :
    Run.Sat I P E (writeInt32 v) :=
  Run.Sat.bind htrans (Run.Sat.requireRoom hrefl he 32) fun _ => Run.Sat.writeBits hrefl htrans h v 32

theorem Run.Sat.padLoop (hrefl : ∀ a, P a a) (htrans : ∀ a b c, P a b → P b c → P a c)
    (h : Run.Sat I P E (Machine.writeBit false)) (n : Nat) : Run.Sat I P E (padLoop n) := by
  induction n with
  | zero => exact Run.Sat.pure hrefl ()
  | succ n ih =>
    intro s hs
    rw [Machine.padLoop]
    by_cases hz : s.obitpos.toNat % 8 = 0
    · simp only [hz, if_true]
      exact ⟨fun b t h => by (cases h; exact ⟨hs, hrefl s⟩), fun e t h => by cases h⟩
    · simp only [hz, if_false]
      exact Run.Sat.bind htrans h (fun _ => ih) s hs

/-- `PadToByte` with the cursor inside OBUF: it cannot fail (spec R83). -/
theorem Run.Sat.padToByte (hin : ∀ s, I s → s.obitpos.toNat ≤ 8 * s.obufBytes)
    (h : ∀ s, I s → I (s.emit (padBits s.obitpos.toNat)) ∧ P s (s.emit (padBits s.obitpos.toNat))) :
    Run.Sat I P E padToByte := by
  intro s hs
  rw [padToByte_ok s (hin s hs)]
  exact ⟨fun b t e => by (cases e; exact h s hs), fun e t h => by cases h⟩

/-! ### The traversals -/

theorem Run.Sat.visit (hrefl : ∀ a, P a a) (htrans : ∀ a b c, P a b → P b c → P a c)
    (h : ∀ (s : State) (sym : Byte) (d v : Nat), I s → I (s.setCode sym d v) ∧ P s (s.setCode sym d v))
    (h1 : E (.stop .deadNode)) (h2 : E (.stop .endlessTraversal)) (f : Nat) (i : NodeIdx) (d v : Nat) :
    Run.Sat I P E (visit f i d v) := by
  induction f generalizing i d v with
  | zero => exact Run.Sat.halt hrefl _ h2
  | succ f ih =>
    refine Run.Sat.bind htrans (Run.Sat.loadNode hrefl h1 i) fun n => ?_
    split
    · exact Run.Sat.update fun s hs => h s _ _ _ hs
    · exact Run.Sat.bind htrans (ih _ _ _) fun _ => ih _ _ _

theorem Run.Sat.writeNode (hrefl : ∀ a, P a a) (htrans : ∀ a b c, P a b → P b c → P a c)
    (h : ∀ b, Run.Sat I P E (Machine.writeBit b)) (he : ∀ info, E (.raise .outFull info))
    (h1 : E (.stop .deadNode)) (h2 : E (.stop .endlessTraversal)) (f : Nat) (i : NodeIdx) :
    Run.Sat I P E (writeNode f i) := by
  induction f generalizing i with
  | zero => exact Run.Sat.halt hrefl _ h2
  | succ f ih =>
    refine Run.Sat.bind htrans (Run.Sat.loadNode hrefl h1 i) fun n => ?_
    split
    · exact Run.Sat.bind htrans (h true) fun _ => Run.Sat.writeWord8 hrefl htrans h he _
    · exact Run.Sat.bind htrans (h false) fun _ => Run.Sat.bind htrans (ih _) fun _ => ih _

theorem Run.Sat.walk (hrefl : ∀ a, P a a) (htrans : ∀ a b c, P a b → P b c → P a c) (h : Run.Sat I P E Machine.readBit)
    (h1 : E (.stop .deadNode)) (h2 : E (.stop .endlessTraversal)) (f : Nat) (i : NodeIdx) : Run.Sat I P E (walk f i) := by
  induction f generalizing i with
  | zero =>
    refine Run.Sat.bind htrans (Run.Sat.loadNode hrefl h1 i) fun n => ?_
    split
    · exact Run.Sat.pure hrefl _
    · exact Run.Sat.bind htrans h fun _ => Run.Sat.halt hrefl _ h2
  | succ f ih =>
    refine Run.Sat.bind htrans (Run.Sat.loadNode hrefl h1 i) fun n => ?_
    split
    · exact Run.Sat.pure hrefl _
    · exact Run.Sat.bind htrans h fun _ => ih _

theorem Run.Sat.readNode (hrefl : ∀ a, P a a) (htrans : ∀ a b c, P a b → P b c → P a c) (h : Run.Sat I P E Machine.readBit)
    (he : ∀ info, E (.raise .inExhausted info)) (hd : ∀ info, E (.raise .dupSymbol info))
    (ha : ∀ n, (n.leaf = true → n.left = Config.nil ∧ n.right = Config.nil) → (n.leaf = false → n.sym = 0) →
      Run.Sat I P E (Machine.alloc n))
    (hl : ∀ (s : State) (i l r : NodeIdx), I s → I (s.setLinks i l r) ∧ P s (s.setLinks i l r))
    (h2 : E (.stop .endlessTraversal)) (f : Nat) (seen : List Byte) : Run.Sat I P E (readNode f seen) := by
  induction f generalizing seen with
  | zero => exact Run.Sat.halt hrefl _ h2
  | succ f ih =>
    refine Run.Sat.bind htrans h fun b => ?_
    split
    · refine Run.Sat.bind htrans (Run.Sat.readWord8 hrefl htrans h he) fun x => ?_
      split
      · exact Run.Sat.raise hrefl _ _ (hd _)
      · exact Run.Sat.bind htrans (ha _ (fun _ => ⟨rfl, rfl⟩) (fun h => by cases h)) fun i => Run.Sat.pure hrefl _
    · refine Run.Sat.bind htrans (ha _ (fun h => by cases h) (fun _ => rfl)) fun i => ?_
      refine Run.Sat.bind htrans (ih _) fun l => ?_
      refine Run.Sat.bind htrans (ih _) fun q => ?_
      exact Run.Sat.bind htrans (Run.Sat.update fun s hs => hl s _ _ _ hs) fun _ => Run.Sat.pure hrefl _

theorem Run.Sat.mergeLoop (hrefl : ∀ a, P a a) (htrans : ∀ a b c, P a b → P b c → P a c)
    (ha : ∀ w l r, Run.Sat I P E (Machine.alloc (internalNode w l r))) (n : Nat) (pq : List Key) :
    Run.Sat I P E (mergeLoop n pq) := by
  induction n generalizing pq with
  | zero => exact Run.Sat.pure hrefl _
  | succ n ih =>
    rw [Machine.mergeLoop]
    split
    · exact Run.Sat.pure hrefl _
    · split
      · exact Run.Sat.pure hrefl _
      · exact Run.Sat.bind htrans (Run.Sat.bind htrans (ha _ _ _) fun _ => Run.Sat.pure hrefl _) fun _ => ih _

theorem Run.Sat.allocLeaves (hrefl : ∀ a, P a a) (htrans : ∀ a b c, P a b → P b c → P a c)
    (ha : ∀ x w, Run.Sat I P E (Machine.alloc (leafNode x w))) (l : List (Byte × Word)) : Run.Sat I P E (allocLeaves l) := by
  induction l with
  | nil => exact Run.Sat.pure hrefl _
  | cons p l ih => exact Run.Sat.bind htrans (ha _ _) fun _ => ih

end Sys2Proof.Machine
end

