-- ==== Sys2Proof/Laws/Merge.lean ====
section
/-! SUPPORT. The laws of BUILD's parts: the present symbols, the allocation of leaves, the smallest key, and one merge (spec R141 to R144). -/

namespace Sys2Proof.Machine

/-- The key order compares weight first, then index (spec R143). -/
theorem Key.lt_iff (a b : Key) :
    a.lt b = true ↔ a.weight.toNat < b.weight.toNat ∨ (a.weight = b.weight ∧ a.idx.toNat < b.idx.toNat) := by
  simp [Key.lt]

theorem Key.lt_trans {a b c : Key} (h1 : a.lt b = true) (h2 : b.lt c = true) : a.lt c = true := by
  rw [Key.lt_iff] at *
  have e : ∀ x y : Key, x.weight = y.weight → x.weight.toNat = y.weight.toNat := fun x y h => by rw [h]
  rcases h1 with h1 | ⟨h1, h1'⟩ <;> rcases h2 with h2 | ⟨h2, h2'⟩
  · exact .inl (h1.trans h2)
  · have := e _ _ h2
    exact .inl (by omega)
  · have := e _ _ h1
    exact .inl (by omega)
  · exact .inr ⟨h1.trans h2, h1'.trans h2'⟩

/-- Of two keys neither of which comes before the other, both are the same. -/
theorem Key.eq_of_not_lt {a b : Key} (h1 : a.lt b = false) (h2 : b.lt a = false) : a = b := by
  have n1 := fun h => Bool.false_ne_true (h1.symm.trans ((Key.lt_iff a b).2 h))
  have n2 := fun h => Bool.false_ne_true (h2.symm.trans ((Key.lt_iff b a).2 h))
  have hw : a.weight = b.weight := BitVec.eq_of_toNat_eq (by
    by_contra hne
    rcases Nat.lt_or_gt_of_ne hne with h | h
    · exact n1 (.inl h)
    · exact n2 (.inl h))
  have hi : a.idx = b.idx := BitVec.eq_of_toNat_eq (by
    by_contra hne
    rcases Nat.lt_or_gt_of_ne hne with h | h
    · exact n1 (.inr ⟨hw, h⟩)
    · exact n2 (.inr ⟨hw.symm, h⟩))
  cases a
  cases b
  simp_all

/-- `ExtractMin` fails on the empty collection only (spec R143). -/
theorem extractMin_none {pq : List Key} : extractMin pq = none ↔ pq = [] := by
  cases pq with
  | nil => simp [extractMin]
  | cons k ks =>
    simp only [extractMin, reduceCtorEq, iff_false]
    split
    · simp
    · split <;> simp

/-- `ExtractMin` takes one key out and leaves the others (spec R143). -/
theorem extractMin_perm {pq rest : List Key} {m : Key} (h : extractMin pq = some (m, rest)) : pq.Perm (m :: rest) := by
  induction pq generalizing m rest with
  | nil => simp [extractMin] at h
  | cons k ks ih =>
    simp only [extractMin] at h
    split at h
    · simp only [Option.some.injEq, Prod.mk.injEq] at h
      obtain ⟨rfl, rfl⟩ := h
      exact List.Perm.refl _
    · rename_i m' rest' hm
      split at h <;> simp only [Option.some.injEq, Prod.mk.injEq] at h <;> obtain ⟨rfl, rfl⟩ := h
      · exact List.Perm.refl _
      · exact ((ih hm).cons k).trans (List.Perm.swap _ _ _)

/-- No key that is left comes before the one `ExtractMin` took (spec R143). -/
theorem extractMin_least {pq rest : List Key} {m : Key} (h : extractMin pq = some (m, rest)) : ∀ k ∈ rest, k.lt m = false := by
  induction pq generalizing m rest with
  | nil => simp [extractMin] at h
  | cons k ks ih =>
    simp only [extractMin] at h
    split at h
    · rename_i hn
      simp only [Option.some.injEq, Prod.mk.injEq] at h
      obtain ⟨rfl, rfl⟩ := h
      rw [extractMin_none] at hn
      simp [hn]
    · rename_i m' rest' hm
      have hmin := ih hm
      split at h <;> rename_i hlt <;> simp only [Option.some.injEq, Prod.mk.injEq] at h <;> obtain ⟨rfl, rfl⟩ := h
      · intro x hx
        have hx' := (extractMin_perm hm).subset hx
        by_contra hxk
        have hxk' : x.lt k = true := by simpa using hxk
        rcases List.mem_cons.1 hx' with rfl | hx''
        · rw [Key.lt_iff] at hlt hxk'
          have e : ∀ x y : Key, x.weight = y.weight → x.weight.toNat = y.weight.toNat := fun x y h => by rw [h]
          rcases hlt with h1 | ⟨h1, h1'⟩ <;> rcases hxk' with h2 | ⟨h2, h2'⟩
          · omega
          · have := e _ _ h2
            omega
          · have := e _ _ h1
            omega
          · omega
        · have := hmin x hx''
          rw [Key.lt_trans hxk' hlt] at this
          cases this
      · intro x hx
        rcases List.mem_cons.1 hx with rfl | hx'
        · simpa using hlt
        · exact hmin x hx'

/-- Allocating leaves with room for all of them (spec R141). -/
theorem allocLeaves_ok (l : List (Byte × Word)) (s : State) (h : s.arena.length + l.length ≤ Config.maxNodes) :
    allocLeaves l s = .ok () (s.setArena (s.arena ++ l.map (fun p => leafNode p.1 p.2))) := by
  induction l generalizing s with
  | nil => simp [allocLeaves, State.setArena]
  | cons p l ih =>
    simp only [List.length_cons] at h
    rw [allocLeaves, Run.bind_ok (alloc_ok _ s (by omega)), ih _ (by simp; omega)]
    simp [State.setArena]

/-- One merge with room for the new node (spec R144). -/
theorem mergeTwo_ok (x y : Key) (s : State) (h : s.arena.length ≠ Config.maxNodes) :
    mergeTwo x y s = .ok ⟨x.weight + y.weight, BitVec.ofNat 9 s.arena.length⟩
      (s.setArena (s.arena ++ [internalNode (x.weight + y.weight) x.idx y.idx])) := by
  rw [mergeTwo, Run.bind_ok (alloc_ok _ s h)]
  rfl

/-- The present symbols of a table that starts at symbol `i` (spec R141). -/
theorem mem_presentFrom (fs : List Word) (i : Nat) (p : Byte × Word) :
    p ∈ presentFrom i fs ↔ ∃ k f, fs[k]? = some f ∧ f ≠ 0 ∧ p = (BitVec.ofNat 8 (i + k), f) := by
  induction fs generalizing i with
  | nil => simp [presentFrom]
  | cons g fs ih =>
    have shift : (∃ k f, (g :: fs)[k]? = some f ∧ f ≠ 0 ∧ p = (BitVec.ofNat 8 (i + k), f)) ↔
        (g ≠ 0 ∧ p = (BitVec.ofNat 8 i, g)) ∨ ∃ k f, fs[k]? = some f ∧ f ≠ 0 ∧ p = (BitVec.ofNat 8 (i + 1 + k), f) := by
      constructor
      · rintro ⟨k, f, hk, hf, rfl⟩
        cases k with
        | zero =>
          simp only [List.getElem?_cons_zero, Option.some.injEq] at hk
          subst hk
          exact .inl ⟨hf, rfl⟩
        | succ k => exact .inr ⟨k, f, by simpa using hk, hf, by rw [show i + 1 + k = i + (k + 1) by omega]⟩
      · rintro (⟨hg, rfl⟩ | ⟨k, f, hk, hf, rfl⟩)
        · exact ⟨0, g, rfl, hg, rfl⟩
        · exact ⟨k + 1, f, by simpa using hk, hf, by rw [show i + 1 + k = i + (k + 1) by omega]⟩
    rw [shift, presentFrom]
    split
    · rename_i hg
      simp [ih, hg]
    · rename_i hg
      rw [List.mem_cons, ih]
      exact or_congr ⟨fun h => ⟨hg, h⟩, And.right⟩ Iff.rfl

end Sys2Proof.Machine
end

