-- ==== Sys2Proof/Laws/PerInstr.lean ====
section
/-! SUPPORT. The statements made per command: its row of the opcode map, and its word is well formed (spec R100 to R103). -/

namespace Sys2Proof.Laws

/-- The command's opcode stands in the opcode map beside the command, and its word passes both checks (spec R102, R103). -/
def MapRow.Statement (i : Instr) : Prop :=
  (⟨i.opcode, i⟩ : OpRow) ∈ opcodeMap ∧ i.wellFormed = true ∧ CommandWord.wellFormed (encode i) = true

theorem MapRow.nop : MapRow.Statement .nop := by unfold MapRow.Statement; decide

theorem MapRow.clear : MapRow.Statement .clear := by unfold MapRow.Statement; decide

theorem MapRow.rstio : MapRow.Statement .rstio := by unfold MapRow.Statement; decide

theorem MapRow.build : MapRow.Statement .build := by unfold MapRow.Statement; decide

theorem MapRow.gencodes : MapRow.Statement .gencodes := by unfold MapRow.Statement; decide

theorem MapRow.serialize : MapRow.Statement .serialize := by unfold MapRow.Statement; decide

theorem MapRow.deserialize : MapRow.Statement .deserialize := by unfold MapRow.Statement; decide

theorem MapRow.putlen : MapRow.Statement .putlen := by unfold MapRow.Statement; decide

theorem MapRow.getlen : MapRow.Statement .getlen := by unfold MapRow.Statement; decide

theorem MapRow.encsyms : MapRow.Statement .encsyms := by unfold MapRow.Statement; decide

theorem MapRow.decsyms : MapRow.Statement .decsyms := by unfold MapRow.Statement; decide

theorem MapRow.flush : MapRow.Statement .flush := by unfold MapRow.Statement; decide

theorem MapRow.encode : MapRow.Statement .encode := by unfold MapRow.Statement; decide

theorem MapRow.decode : MapRow.Statement .decode := by unfold MapRow.Statement; decide

end Sys2Proof.Laws
end

