-- ==== Sys2Proof/Laws/Port.lean ====
section
/-! SUPPORT. The laws of the host port: an access to a register goes to that register (spec R23, R85, R87). -/

namespace Sys2Proof.Machine

/-- A host write reaches its register, but for the guarded registers while BUSY (spec R87). -/
theorem State.hostWrite_reg (s : State) (off : Offset) (r : Reg) (v : Word) (ha : off.toNat % 4 = 0)
    (hr : Reg.ofOffset off = some r) :
    s.hostWrite off .word v = if s.busy && r.guardedWhileBusy then s.setBusErr else s.writeReg v r := by
  simp [State.hostWrite, wholeAligned, ha, hr]

/-- A host read reaches its register, but for the registers that read a free value while BUSY (spec R87). -/
theorem State.hostRead_reg (s : State) (off : Offset) (r : Reg) (ha : off.toNat % 4 = 0) (hr : Reg.ofOffset off = some r) :
    s.hostRead off .word =
      if s.busy && !r.exactWhileBusy then (Config.freeWord s.draws, { s with draws := s.draws + 1 }) else s.readReg r := by
  simp [State.hostRead, wholeAligned, ha, hr]

/-- The offset of a FREQ entry names that entry (spec R30). -/
theorem Reg.ofOffset_freq (sym : Byte) : Reg.ofOffset (Script.freqOffset sym) = some (.freq sym) := by
  revert sym
  decide +kernel

/-- The FREQ offsets are aligned (spec R30). -/
theorem Script.freqOffset_aligned (sym : Byte) : (Script.freqOffset sym).toNat % 4 = 0 := by
  revert sym
  decide +kernel

/-- An entry of the frequency table reads as written, and the others as before (spec R30). -/
theorem State.setFreq_freqOf (s : State) (sym sym' : Byte) (v : Word) :
    (s.setFreq sym v).freqOf sym' = if sym' = sym then v else s.freqOf sym' := by
  unfold State.setFreq State.freqOf
  simp only [Vector.getElem_set]
  by_cases h : sym' = sym
  · simp [h]
  · have : sym.toNat ≠ sym'.toNat := fun e => h (BitVec.eq_of_toNat_eq e.symm)
    simp [h, this]

/-- The code of a symbol reads as written, and the others as before (spec R35, R149). -/
theorem State.setCode_codeLenOf (s : State) (sym sym' : Byte) (d v : Nat) :
    (s.setCode sym d v).codeLenOf sym' = if sym' = sym then BitVec.ofNat 8 d else s.codeLenOf sym' := by
  unfold State.setCode State.codeLenOf
  simp only [Vector.getElem_set]
  by_cases h : sym' = sym
  · simp [h]
  · have : sym.toNat ≠ sym'.toNat := fun e => h (BitVec.eq_of_toNat_eq e.symm)
    simp [h, this]

theorem State.setCode_codeBitsOf (s : State) (sym sym' : Byte) (d v : Nat) :
    (s.setCode sym d v).codeBitsOf sym' = if sym' = sym then BitVec.ofNat 256 v else s.codeBitsOf sym' := by
  unfold State.setCode State.codeBitsOf
  simp only [Vector.getElem_set]
  by_cases h : sym' = sym
  · simp [h]
  · have : sym.toNat ≠ sym'.toNat := fun e => h (BitVec.eq_of_toNat_eq e.symm)
    simp [h, this]

end Sys2Proof.Machine
end

