-- ==== Sys2Proof/Laws/Steps.lean ====
section
/-! SUPPORT. The laws of a step: which event is next, and what a placed command word does (spec R249 to R251). -/

namespace Sys2Proof.Machine

/-- With nothing in `agenda`, the core's own step is next. -/
theorem step_idle (s : State) (h : s.agenda = []) : step s = coreStep s := by
  simp [step, advance, h]

/-- The first event of `agenda` is next. -/
theorem step_event (s : State) (e : Event) (rest : List Event) (h : s.agenda = e :: rest) :
    step s = runEvent e { s with agenda := rest } := by
  simp [step, advance, h]

/-- With PEND empty the core waits (spec R251). -/
theorem coreStep_empty (s : State) (h : s.pend = none) : coreStep s = .next s := by
  simp [coreStep, h]

/-- The core executes the command in PEND (spec R250). -/
theorem coreStep_command (s : State) (w : Word) (i : Instr) (h : s.pend = some w) (hw : decodeWord w = .ok i) :
    coreStep s = exec i s := by
  simp [coreStep, h, hw]

/-- The core executes an illegal word in PEND (spec R103, R133). -/
theorem coreStep_illegal (s : State) (w : Word) (r : Reject) (h : s.pend = some w) (hw : decodeWord w = .error r) :
    coreStep s = execIllegal w s := by
  simp [coreStep, h, hw]

/-- A placed command word runs in the next step. -/
theorem step_withFetchWord (s : State) (nbits w : Nat) (i : Instr) (h : decodeTableWord nbits w = some i) :
    step (s.withFetchWord nbits w) = exec i (s.accept (tableWord nbits w)) := by
  unfold decodeTableWord at h
  split at h
  · split at h
    · rename_i j hj
      cases h
      rw [step_event _ .core s.agenda rfl]
      exact coreStep_command (s.accept (tableWord nbits w)) _ i rfl hj
    · cases h
  · cases h

end Sys2Proof.Machine
end

