-- ==== Sys2Proof/Tests/Slice0.lean ====
section
/-! SUPPORT. The model's own tests: ill-formed words, the decoding of every word written out from the spec, steps with the results of spec/95_test_vectors.md, and a witness for the hypotheses of every statement. -/

namespace Sys2Proof.Tests

set_option Elab.async false


open Sys2Proof.Machine

/-! ### Small states -/

/-- IBUF holds `bs` from address 0, and IN_LEN is their number. -/
def withInput (s : State) (bs : List Byte) : State :=
  { s with ibuf := bs.zipIdx.map (fun p => (p.2, p.1)), inLen := BitVec.ofNat 32 bs.length }

/-- OBUF holds `bs` from address 0. -/
def withOutput (s : State) (bs : List Byte) : State := { s with obuf := bs.zipIdx.map (fun p => (p.2, p.1)) }

/-- The host wrote these FREQ entries. -/
def withFreq (s : State) (l : List (Byte × Word)) : State := l.foldl (fun t p => t.setFreq p.1 p.2) s

/-- Bytes in OBUF; a byte without a value reads as none. -/
def outBytes (s : State) (n : Nat) : List (Option Byte) := (List.range n).map (memLookup s.obuf)

/-- One field after the step that runs a command word; none where the machine stops. -/
def afterWord {α : Type} (s : State) (w : Word) (f : State → α) : Option α :=
  match step (s.withFetchWord 32 w.toNat) with
  | .next t => some (f t)
  | _ => none

/-- The setup of fixture ABC of spec/95 before BUILD. -/
def abcBase : State :=
  { withFreq (withInput State.reset [0x41, 0x41, 0x41, 0x42, 0x42, 0x43]) [(0x41, 3), (0x42, 2), (0x43, 1)] with len := 6 }

/-- The arena of fixture ABC (spec/95, section 0). -/
def abcArena : List Node :=
  [⟨true, 0x41, 3, 0x1FF, 0x1FF⟩, ⟨true, 0x42, 2, 0x1FF, 0x1FF⟩, ⟨true, 0x43, 1, 0x1FF, 0x1FF⟩,
   ⟨false, 0x00, 3, 2, 1⟩, ⟨false, 0x00, 6, 0, 3⟩]

/-- Fixture ABC without GENCODES (spec/95, section 0). -/
def abcBuilt : State := { abcBase with arena := abcArena, root := 4, treeState := .built }

/-- Fixture ABC (spec/95, section 0): codes 41 = 0, 43 = 10, 42 = 11. -/
def abc : State :=
  { ((abcBuilt.setCode 0x41 1 0).setCode 0x43 2 2).setCode 0x42 2 3 with codesValid := true }

/-- The compressed file of spec/95, 1.1. -/
def abcFile : List Byte := [0x50, 0x54, 0x3A, 0x10, 0x00, 0x00, 0x00, 0x30, 0xF8]

/-- The tree of fixture ABC. -/
def abcTree : CodeTree := .node (.leaf 0x41) (.node (.leaf 0x43) (.leaf 0x42))

/-- The arena of the tree of spec/95, 1.1, after DECODE. -/
def loadedArena : List Node :=
  [⟨false, 0x00, 0xFFFFFFFF, 1, 2⟩, ⟨true, 0x41, 0xFFFFFFFF, 0x1FF, 0x1FF⟩, ⟨false, 0x00, 0xFFFFFFFF, 3, 4⟩,
   ⟨true, 0x43, 0xFFFFFFFF, 0x1FF, 0x1FF⟩, ⟨true, 0x42, 0xFFFFFFFF, 0x1FF, 0x1FF⟩]

/-- After reset, with the file of spec/95, 1.1, in IBUF. -/
def fileIn : State := withInput State.reset abcFile

/-- The same with its tree loaded and its length read, as DESERIALIZE and GETLEN leave it (spec/95, 2.5, DECSYMS row 4). -/
def loaded : State :=
  { fileIn with arena := loadedArena, root := 0, treeState := .loaded, ibitpos := 61, len := 6 }

/-- After BUILD of an all-zero table and GENCODES (spec/95, 1.3). -/
def emptyCoded : State := { State.reset with treeState := .empty, codesValid := true }

/-- A command is pending and its step has not come. -/
def busyState : State := State.reset.accept 0x10

/-- The error state of spec/95, 2.1, row 2. -/
def errState : State :=
  { State.reset with err := true, errCode := 0x01, errInfo := 0x03, lastOp := 0x03, done := true }

/-- Fixture ABC with the codes of 41 41 42 in IBUF, and LEN their number. -/
def coded : State := { withInput abc [0x30] with len := 3 }

/-! ### Well-formedness -/

/-- Check 1 refuses a word with a bit of RSVD set (spec R103). -/
theorem test_wf_reserved :
    CommandWord.rsvdZero 0x00000100 = false ∧ CommandWord.opAssigned 0x00000100 = true ∧
      CommandWord.wellFormed 0x00000100 = false := by decide

theorem test_wf_reserved_top :
    CommandWord.rsvdZero 0x80000010 = false ∧ CommandWord.wellFormed 0x80000010 = false := by decide

/-- Check 2 refuses both ends of each range of illegal opcodes (spec R103). -/
theorem test_wf_opcode :
    ([0x03, 0x0F, 0x12, 0x1F, 0x24, 0x2F, 0x33, 0x3F, 0x42, 0xFF] : List Word).map
        (fun w => (CommandWord.rsvdZero w, CommandWord.opAssigned w, CommandWord.wellFormed w)) =
      List.replicate 10 (true, false, false) := by decide +kernel

theorem test_wf_commands :
    ([0x00, 0x01, 0x02, 0x10, 0x11, 0x20, 0x21, 0x22, 0x23, 0x30, 0x31, 0x32, 0x40, 0x41] : List Word).map
        CommandWord.wellFormed = List.replicate 14 true := by decide +kernel

/-! ### Decoding: each word written bit by bit from spec R100 and R102 -/

theorem test_decode_nop :
    decodeWord 0b000000000000000000000000_0000_0000 = .ok .nop ∧ decodeTableWord 32 0x00 = some .nop := by decide

theorem test_decode_clear :
    decodeWord 0b000000000000000000000000_0000_0001 = .ok .clear ∧ decodeTableWord 32 0x01 = some .clear := by decide

theorem test_decode_rstio :
    decodeWord 0b000000000000000000000000_0000_0010 = .ok .rstio ∧ decodeTableWord 32 0x02 = some .rstio := by decide

theorem test_decode_build :
    decodeWord 0b000000000000000000000000_0001_0000 = .ok .build ∧ decodeTableWord 32 0x10 = some .build := by decide

theorem test_decode_gencodes :
    decodeWord 0b000000000000000000000000_0001_0001 = .ok .gencodes ∧ decodeTableWord 32 0x11 = some .gencodes := by decide

theorem test_decode_serialize :
    decodeWord 0b000000000000000000000000_0010_0000 = .ok .serialize ∧ decodeTableWord 32 0x20 = some .serialize := by decide

theorem test_decode_deserialize :
    decodeWord 0b000000000000000000000000_0010_0001 = .ok .deserialize ∧ decodeTableWord 32 0x21 = some .deserialize := by decide

theorem test_decode_putlen :
    decodeWord 0b000000000000000000000000_0010_0010 = .ok .putlen ∧ decodeTableWord 32 0x22 = some .putlen := by decide

theorem test_decode_getlen :
    decodeWord 0b000000000000000000000000_0010_0011 = .ok .getlen ∧ decodeTableWord 32 0x23 = some .getlen := by decide

theorem test_decode_encsyms :
    decodeWord 0b000000000000000000000000_0011_0000 = .ok .encsyms ∧ decodeTableWord 32 0x30 = some .encsyms := by decide

theorem test_decode_decsyms :
    decodeWord 0b000000000000000000000000_0011_0001 = .ok .decsyms ∧ decodeTableWord 32 0x31 = some .decsyms := by decide

theorem test_decode_flush :
    decodeWord 0b000000000000000000000000_0011_0010 = .ok .flush ∧ decodeTableWord 32 0x32 = some .flush := by decide

theorem test_decode_encode :
    decodeWord 0b000000000000000000000000_0100_0000 = .ok .encode ∧ decodeTableWord 32 0x40 = some .encode := by decide

theorem test_decode_decode :
    decodeWord 0b000000000000000000000000_0100_0001 = .ok .decode ∧ decodeTableWord 32 0x41 = some .decode := by decide

theorem test_decode_rejects :
    decodeWord 0x00000100 = .error .reservedBits ∧ decodeWord 0x00000003 = .error .unassignedOpcode ∧
      decodeWord 0x000000FF = .error .unassignedOpcode ∧ decodeWord 0x00000141 = .error .reservedBits := by decide

theorem test_decode_table_width :
    decodeTableWord 8 0x41 = some .decode ∧ decodeTableWord 40 0x41 = none := by decide

/-! ### Single steps, with the results of spec/95 -/

/-- spec/95, 2.1, row 1. -/
theorem test_nop :
    afterWord State.reset 0x00 State.statusWord = some 0x00000002 := by decide +kernel

/-- spec/95, 2.1, row 4. -/
theorem test_nop_in_error :
    afterWord errState 0x00 (fun t => (t.statusWord, t.errInfo)) = some (0x00010006, 0x03) := by decide +kernel

/-- spec/95, 2.1, row 2. -/
theorem test_illegal_opcode :
    afterWord State.reset 0x03 (fun t => (t.statusWord, t.errInfo)) = some (0x03010006, 0x03) := by decide +kernel

/-- spec/95, 2.1, row 3. -/
theorem test_illegal_reserved :
    afterWord State.reset 0x100 (fun t => (t.statusWord, t.errInfo)) = some (0x00010006, 0x100) := by decide +kernel

/-- spec/95, 2.1, row 7. -/
theorem test_clear :
    afterWord { abcBase with inLen := 6 } 0x01 (fun t => (t.freqOf 0x41, t.len, t.inLen, t.statusWord)) =
      some (0, 0, 6, 0x01000002) := by decide +kernel

/-- spec/95, 2.1, row 6. -/
theorem test_clear_error :
    afterWord { errState with cmdRej := true } 0x01 (fun t => (t.statusWord, t.errInfo)) = some (0x01000002, 0) := by decide +kernel

/-- spec/95, 2.1, row 8. -/
theorem test_rstio :
    afterWord { loaded with ibitpos := 70, obitpos := 48 } 0x02
      (fun t => (t.ibitpos, t.obitpos, t.oacc, t.len, t.statusWord)) = some (0, 0, 0, 6, 0x020000C2) := by decide +kernel

/-- spec/95, section 0: the fixture. -/
theorem test_build :
    afterWord abcBase 0x10 (fun t => (t.arena, t.root, t.statusWord)) = some (abcArena, 4, 0x10000082) := by decide +kernel

/-- spec/95, 2.2.2, last row. -/
theorem test_build_placeholder :
    afterWord (withFreq State.reset [(0x00, 0xFFFFFFFE)]) 0x10 State.arena =
      some [⟨true, 0x00, 0xFFFFFFFE, 0x1FF, 0x1FF⟩, ⟨true, 0x01, 0, 0x1FF, 0x1FF⟩, ⟨false, 0x00, 0xFFFFFFFE, 1, 0⟩] := by decide +kernel

/-- spec/95, section 0 and 2.2.1, row 2. -/
theorem test_gencodes :
    afterWord abcBuilt 0x11 (fun t => (t.statusWord, t.codeOf 0x41, t.codeOf 0x43, t.codeOf 0x42, t.codeOf 0x44)) =
      some (0x11000182, [false], [true, false], [true, true], []) := by decide +kernel

/-- spec/95, 2.2.1, row 5. -/
theorem test_gencodes_no_tree :
    afterWord State.reset 0x11 (fun t => (t.statusWord, t.errInfo)) = some (0x11020006, 0x11) := by decide +kernel

/-- spec/95, 2.3, SERIALIZE row 1. -/
theorem test_serialize :
    afterWord abc 0x20 (fun t => (t.statusWord, t.obitpos, t.oacc, outBytes t 4)) =
      some (0x20000182, 29, 0x10, [some 0x50, some 0x54, some 0x3A, none]) := by decide +kernel

/-- spec/95, 2.3, SERIALIZE row 4. -/
theorem test_serialize_full :
    afterWord { abc with obufBytes := 2 } 0x20 (fun t => (t.statusWord, t.errInfo, t.obitpos, t.oacc)) =
      some (0x20070186, 12, 12, 0x50) := by decide +kernel

/-- spec/95, 2.3, DESERIALIZE row 2. -/
theorem test_deserialize :
    afterWord fileIn 0x21 (fun t => (t.statusWord, t.ibitpos, t.arena, t.root)) =
      some (0x210000C2, 29, loadedArena, 0) := by decide +kernel

/-- spec/95, 2.3, DESERIALIZE row 5. -/
theorem test_deserialize_dup :
    afterWord (withInput State.reset [0x50, 0x68, 0x20]) 0x21
      (fun t => (t.statusWord, t.ibitpos, t.errInfo, t.nodeCount)) = some (0x21090006, 19, 0x41, 2) := by decide +kernel

/-- spec/95, 2.3, PUTLEN row 1. -/
theorem test_putlen :
    afterWord { State.reset with len := 0x12345678 } 0x22 (fun t => (t.statusWord, t.obitpos, outBytes t 4)) =
      some (0x22000002, 32, [some 0x12, some 0x34, some 0x56, some 0x78]) := by decide +kernel

/-- spec/95, 2.3, PUTLEN row 3. -/
theorem test_putlen_full :
    afterWord { State.reset with obufBytes := 4, obitpos := 1, oacc := 0x80 } 0x22
      (fun t => (t.errCode, t.errInfo, t.obitpos)) = some (0x07, 1, 1) := by decide +kernel

/-- spec/95, 2.3, GETLEN row 5. -/
theorem test_getlen :
    afterWord { withInput State.reset [0x12, 0x34, 0x56, 0x78, 0x9A] with ibitpos := 4, len := 77 } 0x23
      (fun t => (t.statusWord, t.len, t.ibitpos)) = some (0x23000002, 0x23456789, 36) := by decide +kernel

/-- spec/95, 2.3, GETLEN row 6. -/
theorem test_getlen_exhausted :
    afterWord { withInput State.reset [0x12, 0x34, 0x56, 0x78] with ibitpos := 4, len := 77 } 0x23
      (fun t => (t.statusWord, t.errInfo, t.len, t.ibitpos)) = some (0x23060006, 4, 77, 4) := by decide +kernel

/-- spec/95, 2.4, row 1. -/
theorem test_encsyms :
    afterWord abc 0x30 (fun t => (t.statusWord, t.obitpos, t.oacc, t.ibitpos, outBytes t 2)) =
      some (0x30000182, 9, 0x00, 48, [some 0x1F, none]) := by decide +kernel

/-- spec/95, 2.4, row 6. -/
theorem test_encsyms_no_code :
    afterWord { withInput abc [0x41, 0x44, 0x42] with len := 3 } 0x30
      (fun t => (t.statusWord, t.errInfo, t.obitpos, t.ibitpos)) = some (0x30040186, 0x44, 1, 16) := by decide +kernel

/-- spec/95, 2.5, DECSYMS row 7. -/
theorem test_decsyms :
    afterWord (withInput abc [0x1E, 0xF0]) 0x31 (fun t => (t.statusWord, t.ibitpos, outBytes t 6)) =
      some (0x31000182, 8, [some 0x41, some 0x41, some 0x41, some 0x42, some 0x42, some 0x41]) := by decide +kernel

/-- spec/95, 2.5, DECSYMS row 8. -/
theorem test_decsyms_mid_walk :
    afterWord { withInput abc [0x01] with len := 8 } 0x31 (fun t => (t.statusWord, t.errInfo, t.ibitpos, t.obitpos)) =
      some (0x31060186, 8, 8, 56) := by decide +kernel

/-- spec/95, 2.4, row 2. -/
theorem test_flush :
    afterWord { withOutput abc [0x1F] with obitpos := 9 } 0x32 (fun t => (t.statusWord, t.obitpos, outBytes t 2)) =
      some (0x32000182, 16, [some 0x1F, some 0x00]) := by decide +kernel

/-- spec/95, 2.4, row 4. -/
theorem test_flush_aligned :
    afterWord State.reset 0x32 (fun t => (t.statusWord, t.obitpos)) = some (0x32000002, 0) := by decide +kernel

/-- spec/95, 2.4, row 12. -/
theorem test_encode :
    afterWord abc 0x40 (fun t => (t.statusWord, t.obitpos, t.ibitpos, outBytes t 9)) =
      some (0x40000182, 72, 48, abcFile.map some) := by decide +kernel

/-- spec/95, 2.4, row 20. -/
theorem test_encode_full :
    afterWord { abc with obufBytes := 5 } 0x40 (fun t => (t.errInfo, t.obitpos, t.oacc, t.ibitpos, outBytes t 3)) =
      some (29, 29, 0x10, 0, [some 0x50, some 0x54, some 0x3A]) := by decide +kernel

/-- spec/95, 2.5, DECODE row 1. -/
theorem test_decode :
    afterWord fileIn 0x41 (fun t => (t.statusWord, t.len, t.ibitpos, outBytes t 6)) =
      some (0x410000C2, 6, 70, [some 0x41, some 0x41, some 0x41, some 0x42, some 0x42, some 0x43]) := by decide +kernel

/-- spec/95, 2.5, DECODE row 4. -/
theorem test_decode_marker :
    afterWord (withInput State.reset [0x80, 0, 0, 0, 0, 0x80]) 0x41
      (fun t => (t.statusWord, t.errInfo, t.ibitpos)) = some (0x410B0046, 1, 41) := by decide +kernel

/-! ### The host port, with the results of spec/95, 2.6 -/

/-- Rows 3 and 4. -/
theorem test_ibuf_data :
    let s := { State.reset with ibufBytes := 4, ibufAddr := 3 }.hostWrite 0x084 .word 0x1AB
    (memLookup s.ibuf 3, s.ibufAddr, s.busErr) = (some 0xAB, 4, false) ∧
      ((s.hostWrite 0x084 .word 0x55).ibuf, (s.hostWrite 0x084 .word 0x55).statusWord) = (s.ibuf, 0x20) := by decide +kernel

/-- Row 5. -/
theorem test_in_len_clamp :
    ({ State.reset with ibufBytes := 4 }.hostWrite 0x00C .word 100).inLen = 4 := by decide +kernel

/-- Row 7. -/
theorem test_narrow :
    (State.reset.hostWrite 0x006 .word 5).statusWord = 0x20 := by decide +kernel

/-- Row 9. -/
theorem test_overrun :
    ((abcBuilt.hostWrite 0x000 .word 0x11).hostWrite 0x000 .word 0x40).statusWord = 0x11000089 := by decide +kernel

/-- Row 12, without the overrun of row 10. -/
theorem test_busy_write :
    (busyState.hostWrite 0x008 .word 5).statusWord = 0x10000021 ∧ (busyState.hostWrite 0x008 .word 5).len = 0 := by decide +kernel

/-- Row 14. -/
theorem test_node_window :
    ({ abc with nodeSel := 3 }.hostRead 0x044 .word).1 = 0 ∧ ({ abc with nodeSel := 3 }.hostRead 0x048 .word).1 = 0x00010002 ∧
      (abc.hostRead 0x044 .word).1 = 0x141 ∧ (abc.hostRead 0x048 .word).1 = 0x01FF01FF ∧
      ({ abc with nodeSel := 5 }.hostRead 0x04C .word).1 = 0 := by decide +kernel

/-- Row 19. -/
theorem test_irq :
    afterWord { State.reset with doneIe := true, errIe := true } 0x77 (fun t => (t.irq, t.statusWord)) = some (true, 0x77010006) := by decide +kernel

/-- Row 23, with one complete output byte. -/
theorem test_reset_busy :
    let s := { withOutput (abc.accept 0x40) [0x50, 0x54] with obitpos := 12 }.resetEvent
    (s.statusWord, s.root, s.nodeCount, outBytes s 2, memLookup s.ibuf 5) = (0, 0x1FF, 0, [some 0x50, none], some 0x43) := by decide +kernel

/-! ### The invariant on the small states -/

theorem abc_tree : abc.tree? = some (.node (.leaf 0x41) (.node (.leaf 0x43) (.leaf 0x42))) := by decide +kernel

theorem loaded_tree : loaded.tree? = some (.node (.leaf 0x41) (.node (.leaf 0x43) (.leaf 0x42))) := by decide +kernel

theorem abc_inv : abc.Inv where
  sizes := by decide
  memory := by decide +kernel
  cursor := by decide +kernel
  flags := ⟨fun w hw => (by cases hw), by decide +kernel, by decide +kernel⟩
  arena := by decide +kernel
  tree := by
    refine ⟨?_, by decide +kernel, ?_⟩
    · unfold State.TreeShapeInv
      rw [abc_tree]
      exact ⟨by decide, by decide⟩
    · change ∀ n ∈ abcArena, n.weight.toNat ≤ Config.wMax ∧ weightIsSum abcArena n
      simp [abcArena, weightIsSum, Config.wMax]
  codes := by
    intro _
    change match abc.tree? with
      | some t => (∀ p ∈ t.codes, abc.codeOf p.1 = p.2 ∧ (abc.codeBitsOf p.1).toNat = numOf p.2) ∧
          ∀ sym : Byte, sym ∉ t.leaves → abc.codeLenOf sym = 0 ∧ abc.codeBitsOf sym = 0
      | none => False
    rw [abc_tree]
    exact ⟨by decide +kernel, by decide +kernel⟩

theorem abcBuilt_inv : abcBuilt.Inv where
  sizes := by decide
  memory := by decide +kernel
  cursor := by decide +kernel
  flags := ⟨fun w hw => (by cases hw), by decide +kernel, by decide +kernel⟩
  arena := by decide +kernel
  tree := abc_inv.tree
  codes := fun h => nomatch h

theorem loaded_inv : loaded.Inv where
  sizes := by decide
  memory := by decide +kernel
  cursor := by decide +kernel
  flags := ⟨fun w hw => (by cases hw), by decide +kernel, by decide +kernel⟩
  arena := by decide +kernel
  tree := by
    refine ⟨?_, by decide +kernel, ?_⟩
    · unfold State.TreeShapeInv
      rw [loaded_tree]
      exact ⟨by decide, by decide⟩
    · change ∀ n ∈ loadedArena, n.weight = Config.wUnknown
      simp [loadedArena, Config.wUnknown]
  codes := fun h => nomatch h

theorem emptyCoded_inv : emptyCoded.Inv where
  sizes := by decide
  memory := by decide +kernel
  cursor := by decide +kernel
  flags := ⟨fun w hw => (by cases hw), by decide +kernel, by decide +kernel⟩
  arena := by decide +kernel
  tree := by exact ⟨rfl, rfl⟩
  codes := by
    intro _
    change ∀ sym : Byte, emptyCoded.codeLenOf sym = 0 ∧ emptyCoded.codeBitsOf sym = 0
    decide +kernel

theorem busy_inv : busyState.Inv where
  sizes := by decide
  memory := by decide +kernel
  cursor := by decide +kernel
  flags := ⟨fun w hw => (by cases hw; decide), by decide +kernel, by decide +kernel⟩
  arena := by decide +kernel
  tree := rfl
  codes := fun h => nomatch h

theorem fileIn_inv : fileIn.Inv where
  sizes := by decide
  memory := by decide +kernel
  cursor := by decide +kernel
  flags := ⟨fun w hw => (by cases hw), by decide +kernel, by decide +kernel⟩
  arena := by decide +kernel
  tree := rfl
  codes := fun h => nomatch h

theorem abcBase_inv : abcBase.Inv where
  sizes := by decide
  memory := by decide +kernel
  cursor := by decide +kernel
  flags := ⟨fun w hw => (by cases hw), by decide +kernel, by decide +kernel⟩
  arena := by decide +kernel
  tree := rfl
  codes := fun h => nomatch h

theorem marker_inv : (withInput State.reset [0x80, 0, 0, 0, 0, 0]).Inv where
  sizes := by decide
  memory := by decide +kernel
  cursor := by decide +kernel
  flags := ⟨fun w hw => (by cases hw), by decide +kernel, by decide +kernel⟩
  arena := by decide +kernel
  tree := rfl
  codes := fun h => nomatch h

theorem longMarker_inv : (withInput State.reset [0x80, 0, 0, 0, 0, 0x80]).Inv where
  sizes := by decide
  memory := by decide +kernel
  cursor := by decide +kernel
  flags := ⟨fun w hw => (by cases hw), by decide +kernel, by decide +kernel⟩
  arena := by decide +kernel
  tree := rfl
  codes := fun h => nomatch h

theorem coded_inv : coded.Inv where
  sizes := by decide
  memory := by decide +kernel
  cursor := by decide +kernel
  flags := ⟨fun w hw => (by cases hw), by decide +kernel, by decide +kernel⟩
  arena := by decide +kernel
  tree := abc_inv.tree
  codes := abc_inv.codes

/-! ### Witnesses: for every statement with hypotheses, states and operands that meet them -/

/-- A state a step completes from, and one field of the state after it. -/
def afterExec {α : Type} (i : Instr) (s : State) (f : State → α) : Option α :=
  match exec i s with
  | .next t => some (f t)
  | _ => none

theorem witness_EncodingRoundTrip : Instr.wellFormed .decode = true ∧ decodeWord 0x00000041 = .ok .decode := by decide

theorem witness_IllegalWordsAreExactlyListed :
    CommandWord.wellFormed 0x00000041 = true ∧ CommandWord.rsvdZero 0x00000100 = false ∧
      CommandWord.rsvdZero 0x00000042 = true ∧ CommandWord.opAssigned 0x00000042 = false := by decide

theorem witness_StepRunsDecodedCommand :
    (State.reset.placeWord 0x10).coreNext ∧ (State.reset.placeWord 0x10).pend = some 0x10 ∧ busyState.coreNext ∧
      busyState.pend = some 0x10 ∧ decodeWord 0x10 = .ok .build := by decide +kernel

theorem witness_IllegalWordRaisesIllegalCmd :
    (State.reset.placeWord 0x03).coreNext ∧ (State.reset.placeWord 0x03).pend = some 0x03 ∧
      decodeWord 0x03 = .error .unassignedOpcode := by decide +kernel

theorem witness_EventsTakeEffect :
    (State.reset.coreNext ∧ State.reset.pend = none) ∧
    ({ State.reset with agenda := [.core] }.coreNext ∧ { State.reset with agenda := [.core] }.pend = none) ∧
    { State.reset with agenda := [.read 0x004 .word] }.agenda = .read 0x004 .word :: [] ∧
    { State.reset with agenda := [.write 0x008 .word 5, .core] }.agenda = .write 0x008 .word 5 :: [.core] ∧
    { State.reset with agenda := [.reset] }.agenda = .reset :: [] := by decide +kernel

theorem witness_ResetEventResult : State.reset.busy = false ∧ busyState.busy = true := by decide

theorem witness_CommandPort :
    (State.reset.busy = false ∧ State.reset.err = false) ∧ (errState.busy = false ∧ errState.err = true) ∧
      (0x10 : Word) ≠ 0x00000000 ∧ (0x10 : Word) ≠ 0x00000001 ∧ busyState.busy = true := by decide

theorem witness_NarrowAccessRefused : AccessSize.byte ≠ .word ∧ AccessSize.half ≠ .word ∧ (0x006 : Offset).toNat % 4 ≠ 0 := by decide

/-- One offset for each clause, and both ends of the FREQ range and of the code window. -/
theorem witness_BusyPort :
    busyState.busy = true ∧ Reg.ofOffset 0x090 = none ∧ (0x090 : Offset).toNat % 4 = 0 ∧
    ([0x000, 0x004, 0x02C, 0x030, 0x034, 0x038, 0x008, 0x00C, 0x010, 0x040, 0x050, 0x080, 0x084, 0x088, 0x400, 0x7FC,
      0x014, 0x018, 0x01C, 0x020, 0x024, 0x028, 0x044, 0x048, 0x04C, 0x054, 0x060, 0x07C, 0x08C] : List Offset).map
        (fun off => (off.toNat % 4, Reg.ofOffset off)) =
      ([.cmd, .status, .irqEn, .id, .ibufSize, .obufSize, .len, .inLen, .ibitpos, .nodeSel, .symSel, .ibufAddr, .ibufData,
        .obufAddr, .freq 0x00, .freq 0xFF, .obitpos, .outLen, .oacc, .root, .nodeCount, .errInfo, .nodeInfo, .nodeLink,
        .nodeWeight, .symClen, .symCode 0, .symCode 7, .obufData] : List Reg).map (fun r => (0, some r)) := by decide +kernel

theorem witness_RegisterWrites : State.reset.busy = false := rfl

theorem witness_RegisterReads : abc.busy = false := rfl

/-- Offsets outside the table of spec R23, next to its entries and at the ends of its gaps. -/
theorem witness_IgnoredAccesses :
    ([0x03C, 0x058, 0x05C, 0x090, 0x094, 0x200, 0x3FC] : List Offset).map
        (fun off => (off.toNat % 4, decide (off.toNat < 0x400), Reg.ofOffset off)) =
      List.replicate 7 (0, true, none) := by decide +kernel

/-- The last entry in use, the first that is not, and a symbol with and one without valid codes. -/
theorem witness_WindowReads :
    { abc with nodeSel := 4 }.busy = false ∧
      { abc with nodeSel := 4 }.arena[{ abc with nodeSel := 4 }.nodeSel.toNat]? = some ⟨false, 0x00, 6, 0, 3⟩ ∧
      { abc with nodeSel := 5 }.arena.length ≤ { abc with nodeSel := 5 }.nodeSel.toNat ∧
      abc.codesValid = true ∧ abcBuilt.codesValid = false ∧ abcBuilt.busy = false := by decide +kernel

/-- The last byte of a buffer and the first past it, a byte with a value and one without. -/
theorem witness_BufferDataPorts :
    let s := { abc with ibufBytes := 6, ibufAddr := 5, obuf := [(0, 0x1F)], obufBytes := 1 }
    s.busy = false ∧ s.ibufAddr.toNat < s.ibufBytes ∧ memLookup s.ibuf s.ibufAddr.toNat = some 0x43 ∧
      s.ibufBytes ≤ { s with ibufAddr := 6 }.ibufAddr.toNat ∧
      memLookup State.reset.ibuf State.reset.ibufAddr.toNat = none ∧ State.reset.ibufAddr.toNat < State.reset.ibufBytes ∧
      s.obufAddr.toNat < s.obufBytes ∧ memLookup s.obuf s.obufAddr.toNat = some 0x1F ∧
      s.obufBytes ≤ { s with obufAddr := 1 }.obufAddr.toNat ∧
      memLookup State.reset.obuf State.reset.obufAddr.toNat = none ∧
      State.reset.obufAddr.toNat < State.reset.obufBytes := by decide +kernel

theorem witness_InterruptOutput : ∃ t, exec .clear State.reset = .next t := ⟨_, rfl⟩

/-- The last bit of the input, the end, and a byte without a value. -/
theorem witness_ReadBitRule :
    let s := { abc with ibitpos := 47 }
    s.inputInBuffer ∧ s.ibitpos.toNat + 1 ≤ 8 * s.inLen.toNat ∧ memLookup s.ibuf (s.ibitpos.toNat / 8) = some 0x43 ∧
      { abc with ibitpos := 48 }.inputInBuffer ∧ 8 * abc.inLen.toNat < { abc with ibitpos := 48 }.ibitpos.toNat + 1 ∧
      { State.reset with inLen := 1 }.inputInBuffer ∧
      { State.reset with inLen := 1 }.ibitpos.toNat + 1 ≤ 8 * { State.reset with inLen := 1 }.inLen.toNat ∧
      memLookup State.reset.ibuf (State.reset.ibitpos.toNat / 8) = none := by decide +kernel

/-- Without room; the last bit of a byte with room; a bit inside a byte. -/
theorem witness_WriteBitRule :
    let s := { State.reset with obufBytes := 1 }
    8 * s.obufBytes ≤ { s with obitpos := 8 }.obitpos.toNat ∧ { s with obitpos := 7 }.obitpos.toNat < 8 * s.obufBytes ∧
      ({ s with obitpos := 7 }.obitpos.toNat + 1) % 8 = 0 ∧ ({ s with obitpos := 6 }.obitpos.toNat + 1) % 8 ≠ 0 := by
  decide +kernel

theorem witness_ProducedBitsLand :
    { State.reset with obitpos := 3 }.obitpos.toNat + [true, false, true, true, false, true].length < 2 ^ 32 := by decide

theorem witness_MissingTreeOrCodes :
    State.reset.treeState = .invalid ∧ State.reset.codesValid = false ∧ abcBuilt.treeState ≠ .invalid ∧
      abcBuilt.codesValid = false := by decide

/-- One that ends normally and one that raises. -/
theorem witness_ErrorsPerCommand :
    State.reset.SizesInv ∧ State.reset.CursorInv ∧ State.reset.err = false ∧ State.reset.errCode = 0 ∧
      State.reset.errInfo = 0 ∧ (∃ t, exec .nop State.reset = .next t) ∧ ∃ t, exec .encode State.reset = .next t :=
  ⟨by decide, by decide +kernel, rfl, rfl, rfl, ⟨_, rfl⟩, ⟨_, rfl⟩⟩

/-- The smallest sum that is refused (spec/95, 2.2.4, row 2). -/
theorem witness_BuildOverflow :
    0xFFFFFFFE < ((withFreq State.reset [(0x00, 0xFFFFFFFF)]).freq.toList.map BitVec.toNat).sum := by decide +kernel

theorem witness_BuildEmptyTable : ∀ sym, State.reset.freqOf sym = 0 := by decide +kernel

/-- The largest sum that is accepted, in a table of one symbol (spec/95, 2.2.4, row 3). -/
theorem witness_BuildCounts :
    let s := withFreq State.reset [(0x00, 0xFFFFFFFE)]
    s.totalWeight ≤ Config.wMax ∧ s.freqOf 0x00 ≠ 0 ∧ s.presentSymbols = [(0x00, 0xFFFFFFFE)] := by decide +kernel

theorem witness_BuildLeaves :
    abcBase.totalWeight ≤ Config.wMax ∧ abcBase.freqOf 0x41 ≠ 0 ∧ abcBase.presentSymbols[2]? = some (0x43, 1) := by
  decide +kernel

/-- The second merge of fixture ABC, the root. -/
theorem witness_BuildMergesSmallestTwo :
    abcBase.totalWeight ≤ Config.wMax ∧ abcBase.freqOf 0x43 ≠ 0 ∧ abcBase.builtLeaves ≤ 4 ∧ 4 < abcArena.length := by
  decide +kernel

theorem witness_FrequenciesDetermineTreeAndCodes :
    (abcBase.freq = { abcBase with len := 0 }.freq ∧ abcBase.totalWeight ≤ Config.wMax ∧
      (afterExec .build abcBase (fun _ => ())).isSome = true ∧
      (afterExec .build { abcBase with len := 0 } (fun _ => ())).isSome = true) ∧
    (abcBuilt.treeState ≠ .invalid ∧ abcBuilt.arena = abc.arena ∧ abcBuilt.root = abc.root ∧
      abcBuilt.treeState = abc.treeState ∧ (afterExec .gencodes abcBuilt (fun _ => ())).isSome = true ∧
      (afterExec .gencodes abc (fun _ => ())).isSome = true) := by decide +kernel

theorem witness_GencodesResult :
    abcBuilt.Inv ∧ abcBuilt.hasTree ∧
      abcBuilt.tree? = some (.node (.leaf 0x41) (.node (.leaf 0x43) (.leaf 0x42))) ∧ emptyCoded.treeState = .empty :=
  ⟨abcBuilt_inv, .inl rfl, by decide +kernel, rfl⟩

/-- All hypotheses of the statement but the two that name the symbols it speaks of. -/
theorem witness_CodesArePrefixFree :
    abc.Inv ∧ abc.hasTree ∧ abc.codesValid = true ∧
      abc.tree? = some (.node (.leaf 0x41) (.node (.leaf 0x43) (.leaf 0x42))) ∧ (0x41 : Byte) ≠ 0x43 :=
  ⟨abc_inv, .inl rfl, rfl, abc_tree, by decide⟩

theorem witness_FrequentSymbolsHaveShortCodes :
    abcBase.totalWeight ≤ Config.wMax ∧ 1 ≤ (abcBase.freqOf 0x43).toNat ∧
      (abcBase.freqOf 0x43).toNat < (abcBase.freqOf 0x42).toNat := by decide +kernel

/-- With exactly enough room: the tree of fixture ABC takes 29 bits, the marker 9. -/
theorem witness_SerializeResult :
    let s := { abc with obufBytes := 4, obitpos := 3 }
    s.hasTree ∧ s.tree? = some abcTree ∧ s.obitpos.toNat + abcTree.preorder.length ≤ 8 * s.obufBytes ∧
      emptyCoded.treeState = .empty ∧
      { emptyCoded with obufBytes := 2, obitpos := 7 }.obitpos.toNat + 9 ≤ 8 * { emptyCoded with obufBytes := 2 }.obufBytes := by
  decide +kernel

/-- One bit short of the room a tree needs, and without room for the symbol of the marker. -/
theorem witness_SerializeOutFull :
    (let s := { abc with obufBytes := 4, obitpos := 4 }
     s.hasTree ∧ s.tree? = some abcTree ∧ s.obitpos.toNat ≤ 8 * s.obufBytes ∧
      8 * s.obufBytes < s.obitpos.toNat + abcTree.items.flatten.length ∧ s.obufBytes ≤ Config.maxBufBytes) ∧
    (let s := { emptyCoded with obufBytes := 1 }
     s.treeState = .empty ∧ s.obitpos.toNat ≤ 8 * s.obufBytes ∧
      8 * s.obufBytes < s.obitpos.toNat + markerItems.flatten.length ∧ s.obufBytes ≤ Config.maxBufBytes) := by decide +kernel

theorem witness_DeserializeResult :
    fileIn.inputInBuffer ∧ abcTree.leaves.Nodup ∧ fileIn.hasInput abcTree.preorder ∧
      abcTree = .node (.leaf 0x41) (.node (.leaf 0x43) (.leaf 0x42)) := by decide +kernel

/-- The marker (spec/95, 2.3, DESERIALIZE row 3), and a root leaf with the symbol 0x05 (row 4). -/
theorem witness_DeserializeMarker :
    (withInput State.reset [0x80, 0x00]).inputInBuffer ∧
      (withInput State.reset [0x80, 0x00]).hasInput (true :: bitsOf (0x00 : Byte) 8) ∧
      (withInput State.reset [0x82, 0x80]).hasInput (true :: bitsOf (0x05 : Byte) 8) ∧
      (withInput State.reset [0x82, 0x80]).inputInBuffer ∧ (0x05 : Byte) ≠ 0x00 := by decide +kernel

/-- A tree that nests `n` internal nodes to the left. -/
def leftComb : Nat → CodeTree
  | 0 => .leaf 0x41
  | n + 1 => .node (leftComb n) (.leaf 0x41)

/-- The first clause: spec/95, 2.3, DESERIALIZE row 5, where the third node repeats a symbol. -/
theorem witness_DeserializeMalformed_dup :
    let s := withInput State.reset [0x50, 0x68, 0x20]
    let ns := (CodeTree.node (.leaf 0x41) (.leaf 0x41)).nodes
    s.inputInBuffer ∧ ns[2]? = some (some 0x41) ∧ 0x41 ∈ leafSymbols (ns.take 2) ∧ (leafSymbols (ns.take 2)).Nodup ∧
      s.hasInput ((ns.take 3).flatMap nodeBits) := by decide +kernel

/-- The second clause: row 8, where the 512th node is internal, and a stream whose 512th node is a leaf. -/
theorem witness_DeserializeMalformed_big :
    (let s := withInput State.reset (List.replicate 64 0x00)
     let ns := (leftComb 512).nodes
     s.inputInBuffer ∧ ns[511]? = some none ∧ (leafSymbols (ns.take 511)).Nodup ∧
      s.hasInput ((ns.take 512).flatMap nodeBits)) ∧
    (let s := withInput State.reset (List.replicate 63 0x00 ++ [0x01, 0x41])
     let ns := (leftComb 511).nodes
     s.inputInBuffer ∧ ns[511]? = some (some 0x41) ∧ 0x41 ∉ leafSymbols (ns.take 511) ∧
      (leafSymbols (ns.take 511)).Nodup ∧ s.hasInput ((ns.take 512).flatMap nodeBits)) := by decide +kernel

/-- The last two clauses: no input at all; a stream that ends after its second node; one that ends inside the third's symbol. -/
theorem witness_DeserializeMalformed_exhausted :
    let ns := (CodeTree.node (.leaf 0x41) (.leaf 0x42)).nodes
    (leafSymbols (ns.take 2)).Nodup ∧
    (State.reset.inputInBuffer ∧
      8 * State.reset.inLen.toNat < State.reset.ibitpos.toNat + ((ns.take 0).flatMap nodeBits).length + 1) ∧
    (let s := { withInput State.reset [0x01, 0x41] with ibitpos := 6 }
     s.inputInBuffer ∧ 2 < ns.length ∧ s.hasInput ((ns.take 2).flatMap nodeBits) ∧
      8 * s.inLen.toNat < s.ibitpos.toNat + ((ns.take 2).flatMap nodeBits).length + 1) ∧
    (let s := withInput State.reset [0x50, 0x68]
     s.inputInBuffer ∧ ns[2]? = some (some 0x42) ∧ s.hasInput ((ns.take 2).flatMap nodeBits ++ [true]) ∧
      8 * s.inLen.toNat < s.ibitpos.toNat + ((ns.take 2).flatMap nodeBits).length + 9) := by decide +kernel

/-- Spec/95, 2.3, DESERIALIZE row 9. -/
theorem witness_DeserializeFaultLeavesNoTree :
    State.reset.err = false ∧ ∃ t, exec .deserialize State.reset = .next t ∧ t.err = true := ⟨rfl, _, rfl, rfl⟩

theorem witness_PutlenResult :
    let s := { State.reset with obufBytes := 4 }
    s.obitpos.toNat + 32 ≤ 8 * s.obufBytes ∧ 8 * s.obufBytes < { s with obitpos := 1 }.obitpos.toNat + 32 := by
  decide +kernel

theorem witness_GetlenResult :
    let s := { withInput State.reset [0x12, 0x34, 0x56, 0x78, 0x9A] with ibitpos := 4 }
    s.inputInBuffer ∧ s.hasInput (bitsOf (0x23456789 : Word) 32) ∧ { s with ibitpos := 9 }.inputInBuffer ∧
      8 * s.inLen.toNat < { s with ibitpos := 9 }.ibitpos.toNat + 32 := by decide +kernel

/-- With exactly enough room for the 9 bits; one symbol short of LEN; without room for the ninth bit (spec/95, 2.4, rows 7, 9). -/
theorem witness_EncsymsResult :
    let syms : List Byte := [0x41, 0x41, 0x41, 0x42, 0x42, 0x43]
    (let s := { abc with obufBytes := 2, obitpos := 7 }
     s.inputInBuffer ∧ s.codesValid = true ∧ syms.length = s.len.toNat ∧ s.hasInput (symbolBits syms) ∧
      syms.all (fun sym => s.codeLenOf sym ≠ 0) = true ∧
      s.obitpos.toNat + (s.codeBitsFor syms).length ≤ 8 * s.obufBytes) ∧
    (let s := { abc with len := 7 }
     s.inputInBuffer ∧ s.codesValid = true ∧ syms.length < s.len.toNat ∧ s.hasInput (symbolBits syms) ∧
      syms.all (fun sym => s.codeLenOf sym ≠ 0) = true ∧
      8 * s.inLen.toNat < s.ibitpos.toNat + 8 * (syms.length + 1) ∧
      s.obitpos.toNat + (s.codeBitsFor syms).length ≤ 8 * s.obufBytes) ∧
    (let s := { abc with obufBytes := 1 }
     s.inputInBuffer ∧ s.obufBytes ≤ Config.maxBufBytes ∧ s.codesValid = true ∧ (syms.take 5).length < s.len.toNat ∧
      s.hasInput (symbolBits (syms.take 5 ++ [0x43])) ∧ (syms.take 5 ++ [0x43]).all (fun sym => s.codeLenOf sym ≠ 0) = true ∧
      s.obitpos.toNat + (s.codeBitsFor (syms.take 5)).length ≤ 8 * s.obufBytes ∧
      8 * s.obufBytes < s.obitpos.toNat + (s.codeBitsFor (syms.take 5 ++ [0x43])).length) := by decide +kernel

/-- Spec/95, 2.4, row 6. -/
theorem witness_EncsymsNoCode :
    let s := { withInput abc [0x41, 0x44, 0x42] with len := 3 }
    s.inputInBuffer ∧ s.codesValid = true ∧ ([0x41] : List Byte).length < s.len.toNat ∧
      s.hasInput (symbolBits ([0x41] ++ [0x44])) ∧ s.codeLenOf 0x41 ≠ 0 ∧ s.codeLenOf 0x44 = 0 ∧
      s.obitpos.toNat + (s.codeBitsFor [0x41]).length ≤ 8 * s.obufBytes := by decide +kernel

/-- The walks of the file of spec/95, 1.1, with exactly enough room. -/
def abcWalks : List (Byte × List Bool) :=
  [(0x41, [false]), (0x41, [false]), (0x41, [false]), (0x42, [true, true]), (0x42, [true, true]), (0x43, [true, false])]

theorem witness_DecsymsResult :
    let s := { loaded with obufBytes := 6 }
    s.inputInBuffer ∧ s.hasTree ∧ s.tree? = some abcTree ∧ (∀ p ∈ abcWalks, p ∈ abcTree.codes) ∧
      abcWalks.length = s.len.toNat ∧ s.hasInput (abcWalks.flatMap Prod.snd) ∧
      s.obitpos.toNat + 8 * abcWalks.length ≤ 8 * s.obufBytes := by decide +kernel

/-- The input ends inside a walk (spec/95, 2.5, DECSYMS row 8), and before the first one. -/
theorem witness_DecsymsResult_exhausted :
    (let s := { withInput abc [0x01] with len := 8 }
     let cs := List.replicate 7 ((0x41 : Byte), [false])
     s.inputInBuffer ∧ s.hasTree ∧ s.tree? = some abcTree ∧ (∀ c ∈ cs, c ∈ abcTree.codes) ∧
      (0x42, [true, true]) ∈ abcTree.codes ∧ [true] <+: [true, true] ∧ [true] ≠ [true, true] ∧ cs.length < s.len.toNat ∧
      s.hasInput (cs.flatMap Prod.snd ++ [true]) ∧
      8 * s.inLen.toNat < s.ibitpos.toNat + (cs.flatMap Prod.snd ++ [true]).length + 1 ∧
      s.obitpos.toNat + 8 * cs.length ≤ 8 * s.obufBytes) ∧
    (let s := { abc with ibitpos := 48 }
     s.inputInBuffer ∧ s.hasTree ∧ s.tree? = some abcTree ∧ 0 < s.len.toNat ∧ ([] : List Bool) <+: [false] ∧
      8 * s.inLen.toNat < s.ibitpos.toNat + 1) := by decide +kernel

/-- Room for two symbols of the six (spec/95, 2.5, DECSYMS row 6). -/
theorem witness_DecsymsResult_full :
    let s := { loaded with obufBytes := 2 }
    s.inputInBuffer ∧ s.obufBytes ≤ Config.maxBufBytes ∧ s.hasTree ∧ s.tree? = some abcTree ∧
      (∀ c ∈ abcWalks.take 2, c ∈ abcTree.codes) ∧ (0x41, [false]) ∈ abcTree.codes ∧ (abcWalks.take 2).length < s.len.toNat ∧
      s.hasInput ((abcWalks.take 2 ++ [(0x41, [false])]).flatMap Prod.snd) ∧
      s.obitpos.toNat + 8 * (abcWalks.take 2).length ≤ 8 * s.obufBytes ∧
      8 * s.obufBytes < s.obitpos.toNat + 8 * ((abcWalks.take 2).length + 1) := by decide +kernel

/-- The cursor at the end of OBUF, and inside its last byte. -/
theorem witness_FlushResult :
    let s := { State.reset with obufBytes := 2, obitpos := 16 }
    s.obitpos.toNat ≤ 8 * s.obufBytes ∧ s.obitpos.toNat % 8 = 0 ∧ s.obufBytes ≤ Config.maxBufBytes ∧
      { s with obitpos := 9 }.obitpos.toNat ≤ 8 * s.obufBytes := by decide +kernel

theorem witness_EncodeResult :
    let syms : List Byte := [0x41, 0x41, 0x41, 0x42, 0x42, 0x43]
    abc.Inv ∧ abc.treeState ≠ .invalid ∧ abc.codesValid = true ∧ syms.length = abc.len.toNat ∧
      abc.hasInput (symbolBits syms) ∧ syms.all (fun sym => abc.codeLenOf sym ≠ 0) = true ∧
      abc.obitpos.toNat + (abc.fileBits syms).length ≤ 8 * abc.obufBytes :=
  ⟨abc_inv, by decide, rfl, by decide +kernel, by decide +kernel, by decide +kernel, by decide +kernel⟩

/-- The second clauses of ENCODE and DECODE need no error, and for ENCODE a tree and codes. -/
theorem witness_EncodeResult_parts :
    abc.err = false ∧ abc.treeState ≠ .invalid ∧ abc.codesValid = true ∧ fileIn.err = false := by decide

/-- The empty file too: an EMPTY tree, no symbol. -/
theorem witness_EncodeResult_empty :
    emptyCoded.Inv ∧ emptyCoded.treeState ≠ .invalid ∧ emptyCoded.codesValid = true ∧
      ([] : List Byte).length = emptyCoded.len.toNat ∧ emptyCoded.hasInput (symbolBits []) ∧
      emptyCoded.obitpos.toNat + (emptyCoded.fileBits []).length ≤ 8 * emptyCoded.obufBytes :=
  ⟨emptyCoded_inv, by decide, rfl, by decide +kernel, by decide +kernel, by decide +kernel⟩

theorem witness_DecodeResult :
    fileIn.Inv ∧ abcTree.leaves.Nodup ∧ (∀ p ∈ abcWalks, p ∈ abcTree.codes) ∧ abcWalks.length = (6 : Word).toNat ∧
      fileIn.hasInput (abcTree.preorder ++ bitsOf (6 : Word) 32 ++ abcWalks.flatMap Prod.snd) ∧
      fileIn.obitpos.toNat + 8 * abcWalks.length ≤ 8 * fileIn.obufBytes :=
  ⟨fileIn_inv, by decide +kernel, by decide +kernel, by decide +kernel, by decide +kernel, by decide +kernel⟩

/-- Spec/95, 2.5, DECODE rows 2 and 4: the marker before the length 0 and before the length 1. -/
theorem witness_EmptyTreeDecoding :
    emptyCoded.treeState = .empty ∧ emptyCoded.len = 0 ∧ { emptyCoded with len := 3 }.len ≠ 0 ∧
      (withInput State.reset [0x80, 0, 0, 0, 0, 0]).Inv ∧
      (withInput State.reset [0x80, 0, 0, 0, 0, 0]).hasInput (markerBits ++ bitsOf (0 : Word) 32) ∧
      (withInput State.reset [0x80, 0, 0, 0, 0, 0x80]).Inv ∧
      (withInput State.reset [0x80, 0, 0, 0, 0, 0x80]).hasInput (markerBits ++ bitsOf (1 : Word) 32) :=
  ⟨rfl, rfl, by decide, marker_inv, by decide +kernel, longMarker_inv, by decide +kernel⟩

/-- With room for the tree and for the marker, on both machines. -/
theorem witness_TreeRoundTrip :
    (abc.Inv ∧ abc.hasTree ∧ abc.tree? = some abcTree ∧ abc.obitpos.toNat + abcTree.preorder.length ≤ 8 * abc.obufBytes ∧
      fileIn.Inv ∧ fileIn.hasInput abcTree.preorder ∧
      fileIn.obitpos.toNat + abcTree.preorder.length ≤ 8 * fileIn.obufBytes) ∧
    emptyCoded.Inv ∧ emptyCoded.treeState = .empty ∧ emptyCoded.obitpos.toNat + 9 ≤ 8 * emptyCoded.obufBytes ∧
      (withInput State.reset [0x80, 0, 0, 0, 0, 0]).Inv ∧ (withInput State.reset [0x80, 0, 0, 0, 0, 0]).hasInput markerBits :=
  ⟨⟨abc_inv, .inl rfl, abc_tree, by decide +kernel, fileIn_inv, by decide +kernel, by decide +kernel⟩,
    emptyCoded_inv, rfl, by decide +kernel, marker_inv, by decide +kernel⟩

/-- Spec/95, 2.5, DECSYMS row 7, up to its third symbol: the codes of 41 41 42 are 0 0 11. -/
theorem witness_DecodingInvertsEncoding :
    let syms : List Byte := [0x41, 0x41, 0x42]
    coded.Inv ∧ coded.hasTree ∧ coded.codesValid = true ∧ syms.all (fun sym => coded.codeLenOf sym ≠ 0) = true ∧
      syms.length = coded.len.toNat ∧ coded.hasInput (coded.codeBitsFor syms) ∧
      coded.obitpos.toNat + 8 * syms.length ≤ 8 * coded.obufBytes :=
  ⟨coded_inv, .inl rfl, rfl, by decide +kernel, by decide +kernel, by decide +kernel, by decide +kernel⟩

/-- The compressing machine is the fixture before BUILD; the decoding one holds the file of spec/95, 1.1. -/
theorem witness_CompressDecompress :
    let syms : List Byte := [0x41, 0x41, 0x41, 0x42, 0x42, 0x43]
    abcBase.Inv ∧ abcBase.len.toNat = syms.length ∧ abcBase.hasInput (symbolBits syms) ∧
      (∀ sym, (abcBase.freqOf sym).toNat = syms.count sym) ∧ abcBase.obitpos = 0 ∧
      (abc.fileBits syms).length ≤ 8 * abcBase.obufBytes ∧ fileIn.Inv ∧
      fileIn.hasInput (abc.fileBits syms ++ padBits (abc.fileBits syms).length) ∧
      fileIn.obitpos.toNat + 8 * syms.length ≤ 8 * fileIn.obufBytes ∧ fileIn.obitpos = 0 :=
  ⟨abcBase_inv, by decide +kernel, by decide +kernel, by decide +kernel, rfl, by decide +kernel, fileIn_inv,
    by decide +kernel, by decide +kernel, rfl⟩

theorem witness_TreeCommandsFrame :
    (afterExec .build abcBase (fun _ => ())).isSome = true ∧ (afterExec .gencodes abcBuilt (fun _ => ())).isSome = true := by
  decide +kernel

theorem witness_OutputCommandsFrame :
    abc.SizesInv ∧ [Instr.serialize, .putlen, .flush].map (fun i => (afterExec i abc (fun _ => ())).isSome) = [true, true, true] := by
  decide +kernel

theorem witness_InputCommandsFrame :
    (afterExec .deserialize fileIn (fun _ => ())).isSome = true ∧ (afterExec .getlen fileIn (fun _ => ())).isSome = true := by
  decide +kernel

theorem witness_StreamCommandsFrame :
    abc.SizesInv ∧ fileIn.SizesInv ∧
      [Instr.encsyms, .decsyms, .encode].map (fun i => (afterExec i abc (fun _ => ())).isSome) = [true, true, true] ∧
      (afterExec .decode fileIn (fun _ => ())).isSome = true := by decide +kernel

theorem witness_StepKeepsInvariant : busyState.Inv ∧ ∃ t, step busyState = .next t :=
  ⟨busy_inv, by
    have h : (match step busyState with | .next _ => true | _ => false) = true := by decide +kernel
    cases hs : step busyState with
    | next t => exact ⟨t, rfl⟩
    | fault f => rw [hs] at h; cases h
    | refused f => rw [hs] at h; cases h⟩

theorem witness_EveryCommandCompletes : busyState.Inv ∧ busyState.coreNext ∧ busyState.pend = some 0x10 :=
  ⟨busy_inv, .inl rfl, rfl⟩

end Sys2Proof.Tests
end

section
/-! PROOFS. What a command body keeps: the invariant without the flags of the pending word, the host accesses, and
the bodies that leave the tree and the code table alone (spec R12, R220, R221). An update of fields that a part of the
invariant does not speak of keeps that part as it is: `{ h with … }` names the other parts only. -/

namespace Sys2Proof.Machine

variable {α : Type}

/-! ### The invariant inside a command body -/

/-- The error flags agree with each other: the part of `State.FlagsInv` that does not speak of the pending word. -/
abbrev State.ErrorsInv (s : State) : Prop :=
  (s.err = false → s.errCode = 0 ∧ s.errInfo = 0) ∧ (s.err = true → 1 ≤ s.errCode.toNat ∧ s.errCode.toNat ≤ 0x0B)

/-- The invariant as a command body keeps it: `State.Inv` without what it says of the pending word. -/
structure State.BodyInv (s : State) : Prop where
  sizes : s.SizesInv
  memory : s.MemoryInv
  cursor : s.CursorInv
  errors : s.ErrorsInv
  arena : s.ArenaInv
  tree : s.TreeInv
  codes : s.CodesInv

theorem State.Inv.bodyInv {s : State} (h : s.Inv) : s.BodyInv := { h with errors := h.flags.2 }

/-- With PEND empty the flags say nothing of a pending word. -/
theorem State.BodyInv.complete {s : State} (h : s.BodyInv) : s.complete.Inv :=
  { h with flags := ⟨fun w hw => by simp at hw, h.errors⟩ }

/-- The codes of the error table lie in its range (spec R210). -/
theorem Err.code_range (e : Err) : 1 ≤ e.code.toNat ∧ e.code.toNat ≤ 0x0B := by cases e <;> decide

theorem State.BodyInv.recordFault {s : State} (h : s.BodyInv) (e : Err) (info : Word) : (s.recordFault e info).BodyInv :=
  { h with errors := ⟨fun he => by simp at he, fun _ => e.code_range⟩ }

/-! ### How one run of a body may end -/

/-- Run on `s`, the body ends with a value and a state in `Q`, or aborts and leaves a state in `R`. -/
def Run.Ends (m : Run α) (s : State) (Q : α → State → Prop) (R : State → Prop) : Prop :=
  (∀ a t, m s = .ok a t → Q a t) ∧ ∀ e t, m s = .error e t → R t

section Ends

variable {m : Run α} {s t : State} {Q : α → State → Prop} {R : State → Prop}

theorem Run.Ends.of_ok {a : α} (h : m s = .ok a t) (hq : Q a t) : Run.Ends m s Q R := by
  refine ⟨fun b u hu => ?_, fun e u hu => ?_⟩
  · cases h.symm.trans hu
    exact hq
  · cases h.symm.trans hu

theorem Run.Ends.of_error {e : Abort} (h : m s = .error e t) (hr : R t) : Run.Ends m s Q R := by
  refine ⟨fun b u hu => ?_, fun e u hu => ?_⟩
  · cases h.symm.trans hu
  · cases h.symm.trans hu
    exact hr

theorem Run.Ends.mono {Q' : α → State → Prop} {R' : State → Prop} (h : Run.Ends m s Q R) (hq : ∀ a t, Q a t → Q' a t)
    (hr : ∀ t, R t → R' t) : Run.Ends m s Q' R' :=
  ⟨fun a t e => hq a t (h.1 a t e), fun e t he => hr t (h.2 e t he)⟩

/-- A weaker conclusion about how the body aborts. -/
theorem Run.Ends.mono_abort {R' : State → Prop} (h : Run.Ends m s Q R) (hr : ∀ t, R t → R' t) : Run.Ends m s Q R' :=
  h.mono (fun _ _ hq => hq) hr

/-- A body that goes on after another: each state the first may end in is one the second may start in. -/
theorem Run.Ends.bind {β : Type} {f : α → Run β} {Q' : β → State → Prop} (hm : Run.Ends m s Q R)
    (hf : ∀ a t, Q a t → Run.Ends (f a) t Q' R) : Run.Ends (m >>= f) s Q' R := by
  cases h : m s with
  | ok a t =>
    simp only [Run.Ends, Run.bind_ok h]
    exact hf a t (hm.1 a t h)
  | error e t => exact .of_error (Run.bind_error h) (hm.2 e t h)

/-- What holds all through a body holds at its end. -/
theorem Run.Sat.ends {I : State → Prop} {P : State → State → Prop} {E : Abort → Prop} (h : Run.Sat I P E m) (hs : I s) :
    Run.Ends m s (fun _ t => I t ∧ P s t) (fun t => I t ∧ P s t) :=
  ⟨(h s hs).1, fun e t he => ⟨((h s hs).2 e t he).1, ((h s hs).2 e t he).2.1⟩⟩

end Ends

/-! ### Bodies that keep the invariant -/

/-- A body that keeps the invariant however it ends. -/
abbrev Run.Keeps (m : Run α) : Prop := Run.Sat State.BodyInv (fun _ _ => True) (fun _ => True) m

theorem Run.Keeps.of_ends {m : Run α}
    (h : ∀ s, State.BodyInv s → Run.Ends m s (fun _ => State.BodyInv) State.BodyInv) : Run.Keeps m := fun s hs =>
  ⟨fun a t e => ⟨(h s hs).1 a t e, trivial⟩, fun e t he => ⟨(h s hs).2 e t he, trivial, trivial⟩⟩

/-- A command whose body keeps the invariant leaves a state that meets the whole of it. -/
theorem Run.Keeps.command {m : Run Unit} (hm : Run.Keeps m) {s t : State} (hs : s.Inv) (h : runCommand m s = .next t) :
    t.Inv := by
  rcases hm.next hs.bodyInv h with ⟨u, hu, -, rfl⟩ | ⟨e, info, u, hu, -, -, rfl⟩
  · exact hu.complete
  · exact (hu.recordFault e info).complete

theorem Run.Keeps.bind {β : Type} {m : Run α} {f : α → Run β} (hm : Run.Keeps m) (hf : ∀ a, Run.Keeps (f a)) :
    Run.Keeps (m >>= f) := Run.Sat.bind (fun _ _ _ _ _ => trivial) hm hf

theorem Run.Keeps.pure (a : α) : Run.Keeps (pure a : Run α) := Run.Sat.pure (fun _ => trivial) a

theorem Run.Keeps.raise (e : Err) (info : Word) : Run.Keeps (raise e info : Run α) :=
  Run.Sat.raise (fun _ => trivial) e info trivial

theorem Run.Keeps.view (f : State → α) : Run.Keeps (view f) := Run.Sat.view (fun _ => trivial) f

theorem Run.Keeps.update {f : State → State} (h : ∀ s, State.BodyInv s → State.BodyInv (f s)) : Run.Keeps (update f) :=
  Run.Sat.update fun s hs => ⟨h s hs, trivial⟩

theorem Run.Keeps.require (c : State → Bool) (e : Err) (info : Word) : Run.Keeps (require c e info) :=
  Run.Sat.require (fun _ => trivial) c e info trivial

/-! ### The streams -/

theorem Run.Keeps.readBit : Run.Keeps readBit :=
  Run.Sat.readBit (fun _ => trivial) (fun _ hs _ _ => ⟨{ hs with }, trivial⟩) (fun _ => trivial) fun _ _ _ _ => trivial

theorem Run.Keeps.readWord8 : Run.Keeps readWord8 :=
  Run.Sat.readWord8 (fun _ => trivial) (fun _ _ _ _ _ => trivial) Run.Keeps.readBit fun _ => trivial

theorem Run.Keeps.readInt32 : Run.Keeps readInt32 :=
  Run.Sat.readInt32 (fun _ => trivial) (fun _ _ _ _ _ => trivial) Run.Keeps.readBit fun _ => trivial

/-- Where there is room for a bit, the output cursor is far from wrapping (spec R6, R10). -/
theorem State.emitBit_obitpos_toNat {s : State} (b : Bool) (hs : s.SizesInv) (hr : s.obitpos.toNat < 8 * s.obufBytes) :
    (s.emitBit b).obitpos.toNat = s.obitpos.toNat + 1 := by
  have hmax : s.obufBytes ≤ 2 ^ 28 := hs.2.2.2
  rw [State.emitBit_obitpos, BitVec.toNat_ofNat, Nat.mod_eq_of_lt (by omega)]

/-- A bit completes only a byte that exists (spec R80). -/
theorem State.emitBit_obuf_lt {s : State} (b : Bool) (hr : s.obitpos.toNat < 8 * s.obufBytes)
    (h : ∀ c ∈ s.obuf, c.1 < s.obufBytes) : ∀ c ∈ (s.emitBit b).obuf, c.1 < s.obufBytes := by
  intro c hc
  unfold State.emitBit at hc
  dsimp only at hc
  split at hc
  · rcases mem_memWrite _ _ _ _ hc with rfl | hc
    · dsimp only
      omega
    · exact h c hc
  · exact h c hc

/-- A bit with room leaves a legal output cursor: OACC is 0 below it, and every byte before it is written (spec R31, R79). -/
theorem State.emitBit_cursorInv {s : State} (b : Bool) (hs : s.SizesInv) (hr : s.obitpos.toNat < 8 * s.obufBytes)
    (h : s.CursorInv) : (s.emitBit b).CursorInv := by
  obtain ⟨hin, -, hacc, hout⟩ := h
  have hq := State.emitBit_obitpos_toNat b hs hr
  refine ⟨by simpa using hin, by simp only [hq, State.emitBit_obufBytes]; omega, fun i hi => ?_, fun a ha => ?_⟩
  · rw [hq] at hi
    rw [State.emitBit_oacc]
    split
    · simp
    · rw [setBit_getLsbD _ _ _ _ (by omega), if_neg (by omega), hacc i (by omega)]
  · rw [hq] at ha
    rw [State.emitBit_memLookup]
    split
    · rfl
    · exact hout a (by omega)

theorem State.BodyInv.emitBit {s : State} (hs : s.BodyInv) (b : Bool) (hr : s.obitpos.toNat < 8 * s.obufBytes) :
    (s.emitBit b).BodyInv := by
  obtain ⟨hib, hob, hil, hol⟩ := hs.memory
  have hm : (s.emitBit b).MemoryInv := ⟨by simpa using hib, State.emitBit_wf s b hob, by simpa using hil,
    by simpa using State.emitBit_obuf_lt b hr hol⟩
  have hc := State.emitBit_cursorInv b hs.sizes hr hs.cursor
  rw [State.emitBit_frame] at hm hc ⊢
  exact { hs with memory := hm, cursor := hc }

theorem Run.Keeps.writeBit (b : Bool) : Run.Keeps (writeBit b) :=
  Run.Sat.writeBit (fun _ => trivial) b (fun _ hs hr => ⟨hs.emitBit b hr, trivial⟩) fun _ => trivial

theorem Run.Keeps.writeBits {w : Nat} (v : BitVec w) (n : Nat) : Run.Keeps (writeBits v n) :=
  Run.Sat.writeBits (fun _ => trivial) (fun _ _ _ _ _ => trivial) Run.Keeps.writeBit v n

theorem Run.Keeps.writeWord8 (v : Byte) : Run.Keeps (writeWord8 v) :=
  Run.Sat.writeWord8 (fun _ => trivial) (fun _ _ _ _ _ => trivial) Run.Keeps.writeBit (fun _ => trivial) v

theorem Run.Keeps.writeInt32 (v : Word) : Run.Keeps (writeInt32 v) :=
  Run.Sat.writeInt32 (fun _ => trivial) (fun _ _ _ _ _ => trivial) Run.Keeps.writeBit (fun _ => trivial) v

theorem Run.Keeps.padToByte : Run.Keeps padToByte :=
  Run.Sat.padLoop (fun _ => trivial) (fun _ _ _ _ _ => trivial) (Run.Keeps.writeBit false) 7

theorem Run.Keeps.repeatRun {m : Run Unit} (hm : Run.Keeps m) (n : Nat) : Run.Keeps (repeatRun n m) :=
  Run.Sat.repeatRun (fun _ => trivial) (fun _ _ _ _ _ => trivial) hm n

/-! ### The bodies that leave the tree and the code table alone -/

theorem serializeBody_keeps : Run.Keeps serializeBody := by
  refine .bind (.view _) fun st => .bind (.view _) fun r => ?_
  split
  · exact .bind (.writeBit true) fun _ => .writeWord8 _
  · exact Run.Sat.writeNode (fun _ => trivial) (fun _ _ _ _ _ => trivial) Run.Keeps.writeBit (fun _ => trivial) trivial
      trivial _ _

theorem putlenBody_keeps : Run.Keeps putlenBody := .bind (.view _) fun _ => .writeInt32 _

theorem getlenBody_keeps : Run.Keeps getlenBody := .bind .readInt32 fun _ => .update fun _ hs => { hs with }

theorem encodeSymbol_keeps : Run.Keeps encodeSymbol := by
  refine .bind .readWord8 fun s => .bind (.view _) fun n => .bind (.view _) fun bits => ?_
  split
  · exact .raise _ _
  · exact .writeBits _ _

theorem encodeBody_keeps : Run.Keeps encodeBody := .bind (.view _) fun _ => encodeSymbol_keeps.repeatRun _

theorem walk_keeps (f : Nat) (i : NodeIdx) : Run.Keeps (walk f i) :=
  Run.Sat.walk (fun _ => trivial) (fun _ _ _ _ _ => trivial) Run.Keeps.readBit trivial trivial f i

theorem decodeSymbol_keeps : Run.Keeps decodeSymbol :=
  .bind (.view _) fun _ => .bind (.view _) fun _ => .bind (walk_keeps _ _) fun _ => .writeWord8 _

theorem decodeBody_keeps : Run.Keeps decodeBody := by
  refine .bind (.view _) fun st => .bind (.view _) fun l => ?_
  split
  · split
    · exact .pure _
    · exact .raise _ _
  · exact decodeSymbol_keeps.repeatRun _

/-! ### Dropping the tree -/

theorem State.BodyInv.dropTree {s : State} (hs : s.BodyInv) : s.dropTree.BodyInv :=
  { hs with
    arena := ⟨Nat.zero_le _, fun n hn => by simp at hn⟩
    tree := rfl
    codes := fun h => by simp at h }

/-- Both cursors and the accumulator at 0 are a legal output cursor. -/
theorem State.BodyInv.rewind {s : State} (hs : s.BodyInv) : s.rewind.BodyInv :=
  { hs with cursor := ⟨hs.cursor.1, Nat.zero_le _, fun i _ => by simp, fun a ha => by simp at ha⟩ }

theorem State.BodyInv.clearFault {s : State} (hs : s.BodyInv) : s.clearFault.BodyInv :=
  { hs with errors := ⟨fun _ => ⟨rfl, rfl⟩, fun h => by simp at h⟩ }

/-- CLEAR drops the tree, returns from the error state and rewinds the streams (spec R131). -/
theorem State.BodyInv.clearDatapath {s : State} (hs : s.BodyInv) : s.clearDatapath.BodyInv :=
  { hs.dropTree.clearFault.rewind with }

end Sys2Proof.Machine
end

section
/-! PROOFS. The events of the host and the platform keep the invariant (spec R28, R41, R85 to R87, R225, R240). -/

namespace Sys2Proof.Machine

/-! ### Host reads -/

/-- A read of a buffer byte changes nothing but the count of free draws (spec R71). -/
theorem State.fetchByte_snd (s : State) (mem : List Host.Cell) (a : Nat) :
    ∃ d, (s.fetchByte mem a).2 = { s with draws := d } := by
  unfold State.fetchByte
  split
  · exact ⟨s.draws, rfl⟩
  · exact ⟨_, rfl⟩

/-- A register read changes at most the draws, a data port's address and BUS_ERR (spec R41, R42, R89). -/
theorem State.readReg_snd (s : State) (r : Reg) : ∃ d i o b,
    (s.readReg r).2 = { s with draws := d, ibufAddr := i, obufAddr := o, busErr := b } := by
  cases r with
  | ibufData =>
    simp only [State.readReg, State.readIbufData]
    split
    · obtain ⟨d, hd⟩ := s.fetchByte_snd s.ibuf s.ibufAddr.toNat
      exact ⟨d, s.ibufAddr + 1, s.obufAddr, s.busErr, by rw [hd]⟩
    · exact ⟨s.draws, s.ibufAddr, s.obufAddr, true, rfl⟩
  | obufData =>
    simp only [State.readReg, State.readObufData]
    split
    · obtain ⟨d, hd⟩ := s.fetchByte_snd s.obuf s.obufAddr.toNat
      exact ⟨d, s.ibufAddr, s.obufAddr + 1, s.busErr, by rw [hd]⟩
    · exact ⟨s.draws, s.ibufAddr, s.obufAddr, true, rfl⟩
  | _ => exact ⟨s.draws, s.ibufAddr, s.obufAddr, s.busErr, rfl⟩

/-- A host read changes at most the draws, a data port's address and BUS_ERR (spec R86, R87, R89). -/
theorem State.hostRead_snd (s : State) (off : Offset) (size : AccessSize) : ∃ d i o b,
    (s.hostRead off size).2 = { s with draws := d, ibufAddr := i, obufAddr := o, busErr := b } := by
  unfold State.hostRead
  split
  · split
    · exact ⟨s.draws, s.ibufAddr, s.obufAddr, s.busErr, rfl⟩
    · split
      · exact ⟨s.draws + 1, s.ibufAddr, s.obufAddr, s.busErr, rfl⟩
      · exact s.readReg_snd _
  · exact ⟨s.draws, s.ibufAddr, s.obufAddr, true, rfl⟩

theorem State.Inv.hostRead {s : State} (h : s.Inv) (off : Offset) (size : AccessSize) (v : Word) :
    State.Inv { (s.hostRead off size).2 with rdata := v } := by
  obtain ⟨d, i, o, b, he⟩ := s.hostRead_snd off size
  rw [he]
  exact { h with }

/-! ### Host writes -/

/-- An accepted word clears DONE, and in the error state it is NOP or CLEAR (spec R225, R226). -/
theorem State.Inv.accept {s : State} (h : s.Inv) (w : Word) (hw : s.err = true → acceptedInError w = true) :
    (s.accept w).Inv := by
  refine { h with flags := ⟨fun u hu => ?_, h.flags.2⟩ }
  obtain rfl : w = u := by simpa using hu
  exact ⟨rfl, rfl, hw⟩

theorem State.Inv.issue {s : State} (h : s.Inv) (w : Word) : (s.issue w).Inv := by
  unfold State.issue
  split
  · exact { h with }
  · split
    · exact { h with }
    · rename_i hrej
      exact h.accept w fun he => by simpa [he] using hrej

/-- Clearing DONE agrees with a pending word (spec R25, R225). -/
theorem State.Inv.writeStatus {s : State} (h : s.Inv) (v : Word) : (s.writeStatus v).Inv := by
  obtain ⟨hpend, herr⟩ := h.flags
  refine { h with flags := ⟨fun w hw => ?_, herr⟩ }
  obtain ⟨hdone, hop, hacc⟩ := hpend w hw
  exact ⟨by simp [State.writeStatus, hdone], hop, hacc⟩

/-- IN_LEN is clamped to IBUF (spec R28). -/
theorem State.Inv.writeInLen {s : State} (h : s.Inv) (v : Word) : (s.writeInLen v).Inv := by
  refine { h with cursor := ⟨?_, h.cursor.2⟩ }
  simp only [State.writeInLen_inLen, State.writeInLen_ibufBytes, BitVec.toNat_ofNat]
  exact (Nat.mod_le _ _).trans (min_le_right _ _)

/-- A byte through IBUF_DATA goes to an address that exists (spec R41). -/
theorem State.Inv.writeIbufData {s : State} (h : s.Inv) (v : Word) : (s.writeIbufData v).Inv := by
  unfold State.writeIbufData
  split
  · rename_i haddr
    obtain ⟨hib, hob, hil, hol⟩ := h.memory
    refine { h with memory := ⟨Memory.wf_memWrite _ _ _ hib, hob, fun c hc => ?_, hol⟩ }
    rcases mem_memWrite _ _ _ _ hc with rfl | hc
    · exact haddr
    · exact hil c hc
  · exact { h with }

theorem State.Inv.writeReg {s : State} (h : s.Inv) (v : Word) (r : Reg) : (s.writeReg v r).Inv := by
  cases r with
  | cmd => exact h.issue v
  | status => exact h.writeStatus v
  | inLen => exact h.writeInLen v
  | ibufData => exact h.writeIbufData v
  | _ => exact { h with }

theorem State.Inv.hostWrite {s : State} (h : s.Inv) (off : Offset) (size : AccessSize) (v : Word) :
    (s.hostWrite off size v).Inv := by
  unfold State.hostWrite
  split
  · split
    · exact h
    · split
      · exact { h with }
      · exact h.writeReg v _
  · exact { h with }

/-! ### The reset event -/

/-- A reset keeps only bytes that OBUF listed (spec R241). -/
theorem State.mem_obufAfterReset {s : State} {c : Host.Cell} (h : c ∈ s.obufAfterReset) : c ∈ s.obuf := by
  unfold State.obufAfterReset at h
  split at h
  · exact List.mem_of_mem_filter h
  · exact h

theorem State.Inv.resetEvent {s : State} (h : s.Inv) : s.resetEvent.Inv := by
  obtain ⟨hib, hob, hil, hol⟩ := h.memory
  exact {
    sizes := h.sizes
    memory := ⟨hib, State.resetEvent_wf s hob, hil, fun c hc => hol c (State.mem_obufAfterReset hc)⟩
    cursor := ⟨Nat.zero_le _, Nat.zero_le _, fun i _ => by simp [State.resetEvent, State.reset],
      fun a ha => by simp [State.resetEvent, State.reset] at ha⟩
    flags := ⟨fun w hw => by simp [State.resetEvent, State.reset] at hw, fun _ => ⟨rfl, rfl⟩,
      fun he => by simp [State.resetEvent, State.reset] at he⟩
    arena := ⟨Nat.zero_le _, fun n hn => by simp [State.resetEvent, State.reset] at hn⟩
    tree := rfl
    codes := fun hc => by simp [State.resetEvent, State.reset] at hc }

end Sys2Proof.Machine
end

section
/-! PROOFS. GENCODES keeps the invariant: the table holds exactly the codes of the current tree (spec R35, R36, R149 to R151). -/

namespace Sys2Proof.Machine

/-! ### A bit string and its number -/

/-- The first bit of a string counts as many times as the rest is long (spec R9). -/
theorem foldl_bits (bits : List Bool) (a : Nat) :
    bits.foldl (fun a b => 2 * a + b.toNat) a = a * 2 ^ bits.length + numOf bits := by
  induction bits generalizing a with
  | nil => simp [numOf]
  | cons b bits ih =>
    simp only [numOf, List.foldl_cons, List.length_cons] at ih ⊢
    rw [ih (2 * a + b.toNat), ih (2 * 0 + b.toNat)]
    ring

theorem numOf_cons (b : Bool) (bits : List Bool) : numOf (b :: bits) = b.toNat * 2 ^ bits.length + numOf bits := by
  rw [numOf, List.foldl_cons, foldl_bits]
  simp

theorem numOf_lt (bits : List Bool) : numOf bits < 2 ^ bits.length := by
  induction bits with
  | nil => simp [numOf]
  | cons b bits ih =>
    rw [numOf_cons, List.length_cons, Nat.pow_succ]
    cases b <;> simp <;> omega

/-- A value whose low bits are the number of a string has that string as its low bits (spec R9). -/
theorem bitsOf_of_mod {w : Nat} (v : BitVec w) (bits : List Bool) (h : v.toNat % 2 ^ bits.length = numOf bits) :
    bitsOf v bits.length = bits := by
  induction bits with
  | nil => rfl
  | cons b bits ih =>
    have hlt := numOf_lt bits
    have hlow := Nat.mod_lt v.toNat (Nat.two_pow_pos bits.length)
    have hbit : v.getLsbD bits.length = decide (v.toNat / 2 ^ bits.length % 2 = 1) := by
      rw [BitVec.getLsbD, Nat.testBit_eq_decide_div_mod_eq]
    rw [List.length_cons, Nat.mod_pow_succ, numOf_cons] at h
    rcases Nat.mod_two_eq_zero_or_one (v.toNat / 2 ^ bits.length) with h2 | h2 <;>
      cases b <;> simp only [h2, Bool.toNat_false, Bool.toNat_true] at h hbit
    · rw [List.length_cons, bitsOf_succ, ih (by omega), hbit]
      rfl
    · omega
    · omega
    · rw [List.length_cons, bitsOf_succ, ih (by omega), hbit]
      rfl

/-! ### What GENCODES leaves in the code table -/

theorem State.setCodes_frame (s : State) (d v : Nat) (cs : List (Byte × List Bool)) :
    s.setCodes d v cs = { s with codeLen := (s.setCodes d v cs).codeLen, codeBits := (s.setCodes d v cs).codeBits } := by
  induction cs generalizing s with
  | nil => rfl
  | cons p cs ih => exact (ih _).trans rfl

/-- A symbol that gets no code keeps its entry (spec R149). -/
theorem State.setCodes_not_mem (s : State) (d v : Nat) (cs : List (Byte × List Bool)) (sym : Byte)
    (h : sym ∉ cs.map Prod.fst) :
    (s.setCodes d v cs).codeLenOf sym = s.codeLenOf sym ∧ (s.setCodes d v cs).codeBitsOf sym = s.codeBitsOf sym := by
  induction cs generalizing s with
  | nil => exact ⟨rfl, rfl⟩
  | cons p cs ih =>
    rw [List.map_cons, List.mem_cons, not_or] at h
    obtain ⟨hlen, hbits⟩ := ih (s.setCode p.1 (d + p.2.length) (p.2.foldl (fun a b => 2 * a + b.toNat) v)) h.2
    rw [State.setCode_codeLenOf, if_neg h.1] at hlen
    rw [State.setCode_codeBitsOf, if_neg h.1] at hbits
    exact ⟨hlen, hbits⟩

/-- Where no symbol gets two codes, each symbol has the code it got (spec R149, R150). -/
theorem State.setCodes_mem (s : State) (cs : List (Byte × List Bool)) (hd : (cs.map Prod.fst).Nodup)
    (p : Byte × List Bool) (hp : p ∈ cs) :
    (s.setCodes 0 0 cs).codeLenOf p.1 = BitVec.ofNat 8 p.2.length ∧
      (s.setCodes 0 0 cs).codeBitsOf p.1 = BitVec.ofNat 256 (numOf p.2) := by
  induction cs generalizing s with
  | nil => cases hp
  | cons q cs ih =>
    rw [List.map_cons, List.nodup_cons] at hd
    rcases List.mem_cons.1 hp with rfl | hp
    · obtain ⟨hlen, hbits⟩ := State.setCodes_not_mem (s.setCode p.1 (0 + p.2.length) (numOf p.2)) 0 0 cs p.1 hd.1
      rw [State.setCode_codeLenOf, if_pos rfl] at hlen
      rw [State.setCode_codeBitsOf, if_pos rfl] at hbits
      exact ⟨hlen.trans (by rw [Nat.zero_add]), hbits⟩
    · exact ih _ hd.2 hp

theorem State.zeroCodes_codes (s : State) (sym : Byte) : s.zeroCodes.codeLenOf sym = 0 ∧ s.zeroCodes.codeBitsOf sym = 0 := by
  simp [State.codeLenOf, State.codeBitsOf]

/-- What `State.CodesInv` says of a code table and a tree. -/
def State.HoldsCodes (s : State) (t : CodeTree) : Prop :=
  (∀ p ∈ t.codes, s.codeOf p.1 = p.2 ∧ (s.codeBitsOf p.1).toNat = numOf p.2) ∧
    ∀ sym : Byte, sym ∉ t.leaves → s.codeLenOf sym = 0 ∧ s.codeBitsOf sym = 0

/-- A tree of at most 511 nodes and no repeated symbol: every code fits its entry (spec R35, R151). -/
theorem State.setCodes_holdsCodes (s : State) (t : CodeTree) (hz : ∀ sym, s.codeLenOf sym = 0 ∧ s.codeBitsOf sym = 0)
    (hd : t.leaves.Nodup) (ht : t.size ≤ Config.maxNodes) : (s.setCodes 0 0 t.codes).HoldsCodes t := by
  have hmax : Config.maxNodes = 511 := rfl
  refine ⟨fun p hp => ?_, fun sym hsym => ?_⟩
  · obtain ⟨hlen, hbits⟩ := State.setCodes_mem s t.codes (by rwa [t.codes_fst]) p hp
    have hshort : p.2.length < 256 := by have := t.code_length p hp; have := t.size_eq; omega
    have hnum : numOf p.2 < 2 ^ 256 := (numOf_lt p.2).trans (Nat.pow_lt_pow_right (by decide) hshort)
    rw [State.codeOf, hlen, hbits, BitVec.toNat_ofNat, BitVec.toNat_ofNat, Nat.mod_eq_of_lt hshort, Nat.mod_eq_of_lt hnum]
    refine ⟨bitsOf_of_mod _ _ ?_, rfl⟩
    rw [BitVec.toNat_ofNat, Nat.mod_eq_of_lt hnum, Nat.mod_eq_of_lt (numOf_lt p.2)]
  · rw [← t.codes_fst] at hsym
    obtain ⟨hlen, hbits⟩ := State.setCodes_not_mem s 0 0 t.codes sym hsym
    exact ⟨hlen.trans (hz sym).1, hbits.trans (hz sym).2⟩

/-! ### The body of GENCODES -/

/-- The tree of a state that meets the invariant, in the states that have one (spec R26, R33). -/
theorem State.TreeInv.exists_tree {s : State} (h : s.TreeInv) (hs : s.hasTree) :
    ∃ t, s.tree? = some t ∧ t.leaves.Nodup ∧ t.size = s.arena.length := by
  have hshape : s.TreeShapeInv := by
    rcases hs with hs | hs <;> rw [State.TreeInv, hs] at h <;> exact h.1
  unfold State.TreeShapeInv at hshape
  split at hshape
  · rename_i l r ht
    exact ⟨_, ht, hshape⟩
  · cases hshape

/-- With a tree in the arena, a table that holds its codes is a legal one. -/
theorem State.codesInv_of_tree {s : State} {t : CodeTree} (hs : s.hasTree) (ht : s.tree? = some t) (h : s.HoldsCodes t) :
    s.CodesInv := by
  intro _
  rcases hs with hs | hs <;> rw [hs, ht] <;> exact h

/-- The code table as GENCODES clears it first (spec R149). -/
def State.withoutCodes (s : State) : State := { s.zeroCodes with codesValid := false }

/-- With no tree, GENCODES raises and changes nothing (spec R213). -/
theorem gencodesBody_invalid {s : State} (h : s.treeState = .invalid) :
    gencodesBody s = .error (.raise .noTree 0x11) s := by
  rw [gencodesBody, requireTree, Run.bind_error]
  simp [require_apply, h]

/-- With the empty tree, GENCODES leaves an empty table (spec R149). -/
theorem gencodesBody_empty {s : State} (h : s.treeState = .empty) :
    gencodesBody s = .ok () { s.withoutCodes with codesValid := true } := by
  have hreq : requireTree 0x11 s = .ok () s := by simp [requireTree, require_apply, h]
  rw [gencodesBody, Run.bind_ok hreq]
  simp [h, State.withoutCodes]

/-- With a tree, GENCODES leaves its codes (spec R149, R150). -/
theorem gencodesBody_tree {s : State} {t : CodeTree} (hs : s.hasTree) (ht : s.tree? = some t) :
    gencodesBody s = .ok () { s.withoutCodes.setCodes 0 0 t.codes with codesValid := true } := by
  have hstate : s.treeState ≠ .invalid ∧ s.treeState ≠ .empty := by rcases hs with h | h <;> simp [h]
  have hreq : requireTree 0x11 s = .ok () s := by simp [requireTree, require_apply, hstate.1]
  have hvisit := visit_ok Config.maxNodes s.root 0 0 t s.withoutCodes ht
  rw [gencodesBody, Run.bind_ok hreq]
  simp only [Run.update_bind, Run.view_bind]
  rw [if_neg (by simpa using hstate.2)]
  exact Run.bind_ok hvisit

/-- A tree's codes in the table are a legal table for it (spec R36). -/
theorem State.BodyInv.setCodes {s : State} {t : CodeTree} (h : s.BodyInv) (hs : s.hasTree) (ht : s.tree? = some t)
    (hd : t.leaves.Nodup) (hsize : t.size = s.arena.length) :
    State.BodyInv { s.withoutCodes.setCodes 0 0 t.codes with codesValid := true } := by
  have hc := State.setCodes_holdsCodes s.withoutCodes t s.zeroCodes_codes hd (hsize.trans_le h.arena.1)
  rw [State.setCodes_frame] at hc ⊢
  exact { h with codes := State.codesInv_of_tree hs ht hc }

theorem gencodesBody_keeps : Run.Keeps gencodesBody := by
  refine .of_ends fun s hs => ?_
  have hwalk : s.hasTree → Run.Ends gencodesBody s (fun _ => State.BodyInv) State.BodyInv := fun h => by
    obtain ⟨t, ht, hd, hsize⟩ := hs.tree.exists_tree h
    exact .of_ok (gencodesBody_tree h ht) (hs.setCodes h ht hd hsize)
  cases h : s.treeState with
  | invalid => exact .of_error (gencodesBody_invalid h) hs
  | empty =>
    refine .of_ok (gencodesBody_empty h) { hs with codes := fun _ => ?_ }
    rw [show State.treeState { s.withoutCodes with codesValid := true } = .empty from h]
    exact s.zeroCodes_codes
  | built => exact hwalk (.inl h)
  | loaded => exact hwalk (.inr h)

end Sys2Proof.Machine
end

section
/-! PROOFS. DESERIALIZE keeps the invariant, whatever its input: a tree that was read is a full one without a repeated
symbol, and a failed read leaves legal entries and no tree (spec R32, R163 to R166). -/

namespace Sys2Proof.Machine

/-! ### Reading input and allocating -/

/-- From `s` to `t` input was read and the entries `new` were allocated; nothing else changed. -/
def State.Grown (s : State) (new : List Node) (t : State) : Prop :=
  ∃ p d, t = { s with ibitpos := p, draws := d, arena := s.arena ++ new }

theorem State.grown_refl (s : State) : s.Grown [] s := ⟨s.ibitpos, s.draws, by simp⟩

theorem State.Grown.trans {s t u : State} {a b : List Node} (h : s.Grown a t) (h' : t.Grown b u) : s.Grown (a ++ b) u := by
  obtain ⟨p, d, rfl⟩ := h
  obtain ⟨p', d', rfl⟩ := h'
  exact ⟨p', d', by simp⟩

theorem State.Grown.arena {s t : State} {new : List Node} (h : s.Grown new t) : t.arena = s.arena ++ new := by
  obtain ⟨p, d, rfl⟩ := h
  rfl

theorem State.grown_setArena (s : State) (new : List Node) : s.Grown new (s.setArena (s.arena ++ new)) :=
  ⟨s.ibitpos, s.draws, rfl⟩

/-- An entry as the core leaves it: a leaf without links, or an internal node without a symbol (spec R32). -/
abbrev Node.Legal (n : Node) : Prop :=
  (n.leaf = true → n.left = Config.nil ∧ n.right = Config.nil) ∧ (n.leaf = false → n.sym = 0)

theorem leafNode_legal (sym : Byte) (w : Word) : (leafNode sym w).Legal := ⟨fun _ => ⟨rfl, rfl⟩, fun h => by cases h⟩

theorem internalNode_legal (w : Word) (l r : NodeIdx) : (internalNode w l r).Legal := ⟨fun h => (by cases h), fun _ => rfl⟩

/-- Every entry of a loaded tree is legal and has no weight of its own (spec R26, R32). -/
theorem CodeTree.layout_entry (t : CodeTree) (i : Nat) : ∀ n ∈ t.layout i, n.Legal ∧ n.weight = Config.wUnknown := by
  induction t generalizing i with
  | leaf x =>
    intro n hn
    obtain rfl := List.mem_singleton.1 hn
    exact ⟨leafNode_legal _ _, rfl⟩
  | node l r hl hr =>
    intro n hn
    rw [CodeTree.layout, List.mem_cons, List.mem_append] at hn
    rcases hn with rfl | hn | hn
    · exact ⟨internalNode_legal _ _ _, rfl⟩
    · exact hl _ n hn
    · exact hr _ n hn

/-- What an aborted read leaves beside its input: legal entries that fit the arena (spec R166). -/
def State.PartlyRead (s t : State) : Prop :=
  ∃ new, s.Grown new t ∧ (∀ n ∈ new, n.Legal) ∧ t.arena.length ≤ Config.maxNodes

/-- What a finished read of a tree leaves: its entries in pre-order, in a legal arena, and its symbols, which are new,
in SEEN (spec R164). -/
def State.TreeRead (s : State) (seen : List Byte) (p : NodeIdx × List Byte) (tree : CodeTree) (t : State) : Prop :=
  s.Grown (tree.layout s.arena.length) t ∧ t.arena.length ≤ Config.maxNodes ∧
    p = (BitVec.ofNat 9 s.arena.length, tree.leaves.reverse ++ seen) ∧ tree.leaves.Nodup ∧ ∀ x ∈ tree.leaves, x ∉ seen

theorem State.partlyRead_of_grown {s t : State} (h : s.Grown [] t) (ha : s.arena.length ≤ Config.maxNodes) :
    s.PartlyRead t := ⟨[], h, fun _ hn => (by cases hn), by simpa [h.arena] using ha⟩

theorem State.PartlyRead.after {s t u : State} {a : List Node} (h : t.PartlyRead u) (hs : s.Grown a t)
    (ha : ∀ n ∈ a, n.Legal) : s.PartlyRead u := by
  obtain ⟨new, hg, hl, hlen⟩ := h
  refine ⟨a ++ new, hs.trans hg, fun n hn => ?_, hlen⟩
  rcases List.mem_append.1 hn with hn | hn
  · exact ha n hn
  · exact hl n hn

/-- A tree read after other input is one read from where that began. -/
theorem State.TreeRead.afterInput {s t u : State} {seen : List Byte} {p : NodeIdx × List Byte} {tree : CodeTree}
    (h : t.TreeRead seen p tree u) (hs : s.Grown [] t) : s.TreeRead seen p tree u := by
  have hta : t.arena = s.arena := by simpa using hs.arena
  obtain ⟨hg, hlen, hp, hd, hf⟩ := h
  rw [hta] at hg hp
  exact ⟨hs.trans hg, hlen, hp, hd, hf⟩

/-- A body that reads input and changes nothing else. -/
abbrev Run.ReadsInput {α : Type} (m : Run α) : Prop :=
  Run.Sat (fun _ => True) (fun s t => s.Grown [] t) (fun _ => True) m

theorem readBit_readsInput : Run.ReadsInput readBit :=
  Run.Sat.readBit State.grown_refl (fun s _ _ d => ⟨trivial, (s.consume 1).ibitpos, d, by simp [State.consume]⟩)
    (fun _ => trivial) fun _ _ _ _ => trivial

theorem readWord8_readsInput : Run.ReadsInput readWord8 :=
  Run.Sat.readWord8 State.grown_refl (fun _ _ _ h h' => h.trans h') readBit_readsInput fun _ => trivial

/-- Reading input from a legal arena: how it ends, as a first part of reading a tree. -/
theorem Run.ReadsInput.ends {α : Type} {m : Run α} (h : Run.ReadsInput m) (s : State)
    (ha : s.arena.length ≤ Config.maxNodes) : Run.Ends m s (fun _ t => s.Grown [] t) s.PartlyRead :=
  (Run.Sat.ends h trivial).mono (fun _ _ ht => ht.2) fun _ ht => State.partlyRead_of_grown ht.2 ha

/-- `Alloc` from a legal arena (spec R34). -/
theorem alloc_ends (n : Node) (s : State) (ha : s.arena.length ≤ Config.maxNodes) :
    Run.Ends (alloc n) s
      (fun i t => s.Grown [n] t ∧ s.arena.length < Config.maxNodes ∧ i = BitVec.ofNat 9 s.arena.length) s.PartlyRead := by
  by_cases h : s.arena.length = Config.maxNodes
  · exact .of_error (alloc_full n s h) (State.partlyRead_of_grown s.grown_refl ha)
  · exact .of_ok (alloc_ok n s h) ⟨s.grown_setArena _, lt_of_le_of_ne ha h, rfl⟩

/-! ### Reading a node -/

/-- A leaf of a serialized tree (spec R163, R164). -/
theorem readLeaf_ends (seen : List Byte) (s : State) (ha : s.arena.length ≤ Config.maxNodes) :
    Run.Ends (readLeaf seen) s (fun p t => ∃ x, s.TreeRead seen p (.leaf x) t) s.PartlyRead := by
  refine (readWord8_readsInput.ends s ha).bind fun x t ht => ?_
  have hta : t.arena = s.arena := by simpa using ht.arena
  split
  · exact .of_error rfl (State.partlyRead_of_grown ht ha)
  · rename_i hx
    refine ((alloc_ends _ t (by rwa [hta])).mono_abort fun u hu => hu.after ht (by simp)).bind ?_
    rintro i u ⟨hu, hroom, rfl⟩
    refine .of_ok rfl ⟨x, ht.trans hu, ?_, by rw [hta]; rfl, List.nodup_singleton x, fun y hy => ?_⟩
    · rw [hu.arena, List.length_append]
      exact hroom
    · rwa [List.mem_singleton.1 hy]

/-- An internal node after its node bit, as `ReadNode` and `DeserializeBody` both read it (spec R163): its entry, its two
subtrees by `node`, then its links. -/
def readPair (node : List Byte → Run (NodeIdx × List Byte)) (seen : List Byte) : Run (NodeIdx × List Byte) := do
  let i ← alloc (internalNode Config.wUnknown Config.nil Config.nil)
  let l ← node seen
  let q ← node l.2
  update (fun s => s.setLinks i l.1 q.1)
  pure (i, q.2)

theorem readNode_succ (f : Nat) (seen : List Byte) :
    readNode (f + 1) seen = readBit >>= fun b => if b then readLeaf seen else readPair (readNode f) seen := rfl

theorem readTree_eq :
    readTree = readPair (readNode Config.maxNodes) [] >>=
      fun p => update (fun s => { s with root := p.1, treeState := .loaded }) := by
  simp only [readPair, bind_assoc, pure_bind]
  rfl

/-- What every call of `ReadNode` keeps to (spec R164, R166). -/
def ReadsTrees (node : List Byte → Run (NodeIdx × List Byte)) : Prop :=
  ∀ seen s, s.arena.length ≤ Config.maxNodes →
    Run.Ends (node seen) s (fun p t => ∃ tree, s.TreeRead seen p tree t) s.PartlyRead

/-- Setting the links of an internal node that was allocated before its two subtrees (spec R164). -/
theorem State.Grown.setLinks {s t : State} {l r : CodeTree} {k : Nat} (hk : k = s.arena.length + 1)
    (h : s.Grown (internalNode Config.wUnknown Config.nil Config.nil :: (l.layout k ++ r.layout (k + l.size))) t)
    (hs : s.arena.length < Config.maxNodes) :
    s.Grown ((CodeTree.node l r).layout s.arena.length)
      (t.setLinks (BitVec.ofNat 9 s.arena.length) (BitVec.ofNat 9 k) (BitVec.ofNat 9 (k + l.size))) := by
  have hi : (BitVec.ofNat 9 s.arena.length).toNat = s.arena.length := by
    have : Config.maxNodes = 511 := rfl
    rw [BitVec.toNat_ofNat, Nat.mod_eq_of_lt (by omega)]
  obtain ⟨p, d, rfl⟩ := h
  subst hk
  refine ⟨p, d, ?_⟩
  simp only [State.setLinks, State.setArena, hi, setLinks_last]
  rfl

/-- Two subtrees in a row make a tree, with the symbols of both in SEEN. -/
theorem readPair_ends {node : List Byte → Run (NodeIdx × List Byte)} (hn : ReadsTrees node) (seen : List Byte) (s : State)
    (ha : s.arena.length ≤ Config.maxNodes) :
    Run.Ends (readPair node seen) s (fun p t => ∃ l r, s.TreeRead seen p (.node l r) t) s.PartlyRead := by
  have htop : ∀ n ∈ [internalNode Config.wUnknown Config.nil Config.nil], n.Legal := fun n h => by
    rw [List.mem_singleton.1 h]
    exact internalNode_legal _ _ _
  refine (alloc_ends _ s ha).bind ?_
  rintro i s1 ⟨g1, hroom, rfl⟩
  have h1 : s1.arena.length = s.arena.length + 1 := by simp [g1.arena]
  refine ((hn seen s1 (by omega)).mono_abort fun u hu => hu.after g1 htop).bind ?_
  rintro _ s2 ⟨l, g2, hlen2, rfl, dl, fl⟩
  have h2 : s2.arena.length = s1.arena.length + l.size := by simp [g2.arena]
  have g12 := g1.trans g2
  have hl : ∀ n ∈ [internalNode Config.wUnknown Config.nil Config.nil] ++ l.layout s1.arena.length, n.Legal := fun n h => by
    rcases List.mem_append.1 h with h | h
    · exact htop n h
    · exact (l.layout_entry _ n h).1
  refine ((hn _ s2 hlen2).mono_abort fun u hu => hu.after g12 hl).bind ?_
  rintro _ s3 ⟨r, g3, hlen3, rfl, dr, fr⟩
  have g := g12.trans g3
  simp only [h2, List.singleton_append] at g ⊢
  have hlen : (s3.setLinks (BitVec.ofNat 9 s.arena.length) (BitVec.ofNat 9 s1.arena.length)
      (BitVec.ofNat 9 (s1.arena.length + l.size))).arena.length = s3.arena.length := by simp
  refine .of_ok rfl ⟨l, r, State.Grown.setLinks h1 g hroom, hlen.trans_le hlen3, by simp [CodeTree.leaves], ?_, ?_⟩
  · refine List.nodup_append.2 ⟨dl, dr, ?_⟩
    rintro x hx _ hx' rfl
    exact fr x hx' (by simp [hx])
  · intro x hx
    rcases List.mem_append.1 hx with hx | hx
    · exact fl x hx
    · exact fun hs => fr x hx (by simp [hs])

/-- `ReadNode` on any input (spec R163, R164, R166). -/
theorem readNode_readsTrees (f : Nat) : ReadsTrees (readNode f) := by
  induction f with
  | zero => exact fun seen s ha => .of_error rfl (State.partlyRead_of_grown s.grown_refl ha)
  | succ f ih =>
    intro seen s ha
    rw [readNode_succ]
    refine (readBit_readsInput.ends s ha).bind fun b t ht => ?_
    have hta : t.arena.length ≤ Config.maxNodes := by simpa [ht.arena] using ha
    have hpart : ∀ u, t.PartlyRead u → s.PartlyRead u := fun u hu => hu.after ht (by simp)
    split
    · exact (readLeaf_ends seen t hta).mono (fun p u ⟨x, hu⟩ => ⟨_, hu.afterInput ht⟩) hpart
    · exact (readPair_ends ih seen t hta).mono (fun p u ⟨l, r, hu⟩ => ⟨_, hu.afterInput ht⟩) hpart

/-! ### The body of DESERIALIZE -/

/-- The state DESERIALIZE reads into: no tree, and a legal arena (spec R163). -/
structure State.NoTree (s : State) : Prop where
  inv : s.BodyInv
  treeState : s.treeState = .invalid
  codesValid : s.codesValid = false

theorem State.NoTree.root {s : State} (h : s.NoTree) : s.root = Config.nil := by
  simpa only [State.TreeInv, h.treeState] using h.inv.tree

/-- A code table that is not valid may hold anything (spec R36). -/
theorem State.codesInv_of_not_valid {s : State} (h : s.codesValid = false) : s.CodesInv := fun hv => by
  cases h.symm.trans hv

/-- Without a tree, entries and input may come and go. -/
theorem State.NoTree.withArena {s t : State} {new : List Node} (h : s.NoTree) (ht : s.Grown new t) (ha : t.ArenaInv) :
    t.NoTree := by
  obtain ⟨p, d, rfl⟩ := ht
  refine ⟨{ h.inv with arena := ha, tree := ?_, codes := State.codesInv_of_not_valid h.codesValid }, h.treeState,
    h.codesValid⟩
  simpa only [State.TreeInv, h.treeState] using h.root

theorem State.BodyInv.dropTree_noTree {s : State} (hs : s.BodyInv) : s.dropTree.NoTree := ⟨hs.dropTree, rfl, rfl⟩

/-- An aborted read leaves the invariant: legal entries and no tree (spec R166). -/
theorem State.NoTree.partlyRead {s t : State} (h : s.NoTree) (ht : s.PartlyRead t) : t.BodyInv := by
  obtain ⟨new, hg, hl, hlen⟩ := ht
  refine (h.withArena hg ⟨hlen, fun n hn => ?_⟩).inv
  rw [hg.arena] at hn
  rcases List.mem_append.1 hn with hn | hn
  · exact h.inv.arena.2 n hn
  · exact hl n hn

/-- A tree that was read into an empty arena, once ROOT names it, is a loaded tree (spec R26, R33, R164). -/
theorem State.NoTree.treeRead {s t : State} {l r : CodeTree} {p : NodeIdx × List Byte} (h : s.NoTree) (ha : s.arena = [])
    (ht : s.TreeRead [] p (.node l r) t) : State.BodyInv { t with root := p.1, treeState := .loaded } := by
  obtain ⟨hg, hlen, rfl, hd, -⟩ := ht
  have hta : t.arena = (CodeTree.node l r).layout 0 := by rw [hg.arena, ha]; rfl
  have hsize : (CodeTree.node l r).size ≤ Config.maxNodes := by rwa [hta, CodeTree.layout_length] at hlen
  have htree : treeAt ((CodeTree.node l r).layout 0) Config.maxNodes 0#9 = some (.node l r) := by
    simpa using treeAt_layout Config.maxNodes (.node l r) [] [] hsize (by simpa using hsize)
  have hentry := (CodeTree.node l r).layout_entry 0
  have hn := h.withArena hg ⟨hlen, fun n hn => (hentry n (hta ▸ hn)).1⟩
  refine { hn.inv with tree := ⟨?_, ?_, ?_⟩, codes := State.codesInv_of_not_valid hn.codesValid }
  · simp only [State.TreeShapeInv, State.tree?, ha, hta, List.length_nil, htree]
    exact ⟨hd, by simp⟩
  · simp [ha]
  · exact fun n hn => (hentry n (hta ▸ hn)).2

/-- A leaf bit at the root: the empty tree, or an error that changes nothing more (spec R165). -/
theorem readMarker_ends {s : State} (h : s.NoTree) (ha : s.arena = []) :
    Run.Ends readMarker s (fun _ => State.BodyInv) State.BodyInv := by
  refine ((readWord8_readsInput.ends s (by simp [ha])).mono_abort fun t ht => h.partlyRead ht).bind
    fun x t ht => ?_
  have hta : t.arena = [] := by simpa [ha] using ht.arena
  have hn := h.withArena ht (by rw [State.ArenaInv, hta]; simp)
  split
  · exact .of_ok rfl { hn.inv with tree := ⟨hta, hn.root⟩, codes := State.codesInv_of_not_valid hn.codesValid }
  · exact .of_error rfl hn.inv

theorem readTree_ends {s : State} (h : s.NoTree) (ha : s.arena = []) :
    Run.Ends readTree s (fun _ => State.BodyInv) State.BodyInv := by
  rw [readTree_eq]
  refine ((readPair_ends (readNode_readsTrees _) [] s (by simp [ha])).mono_abort
    fun t ht => h.partlyRead ht).bind ?_
  rintro p t ⟨l, r, ht⟩
  exact .of_ok rfl (h.treeRead ha ht)

theorem deserializeBody_keeps : Run.Keeps deserializeBody := by
  refine .of_ends fun s hs => ?_
  have h := hs.dropTree_noTree
  have hread : Run.Ends readBit s.dropTree (fun _ t => t.NoTree ∧ t.arena = []) State.BodyInv :=
    (readBit_readsInput.ends s.dropTree (Nat.zero_le _)).mono
      (fun _ t ht => by
        have hta : t.arena = [] := by simpa using ht.arena
        exact ⟨h.withArena ht (by rw [State.ArenaInv, hta]; simp), hta⟩)
      fun t ht => h.partlyRead ht
  have hbody : Run.Ends (readBit >>= fun b => if b then readMarker else readTree) s.dropTree
      (fun _ => State.BodyInv) State.BodyInv := hread.bind fun b t ⟨hn, ha⟩ => by
    split
    · exact readMarker_ends hn ha
    · exact readTree_ends hn ha
  exact hbody

end Sys2Proof.Machine
end

section
/-! PROOFS. BUILD keeps the invariant: each merge leaves a forest over the whole arena, so the last one leaves a full
tree, with sums as weights (spec R140 to R148). -/

namespace Sys2Proof.Machine

/-! ### The leaves -/

/-- No symbol is present twice (spec R141). -/
theorem presentFrom_nodup (fs : List Word) (i : Nat) (h : i + fs.length ≤ 256) :
    ((presentFrom i fs).map Prod.fst).Nodup := by
  induction fs generalizing i with
  | nil => exact List.nodup_nil
  | cons f fs ih =>
    rw [List.length_cons] at h
    have hrest := ih (i + 1) (by omega)
    rw [presentFrom]
    split
    · exact hrest
    · refine List.nodup_cons.2 ⟨fun hmem => ?_, hrest⟩
      obtain ⟨p, hp, hpi⟩ := List.mem_map.1 hmem
      obtain ⟨k, g, hk, -, rfl⟩ := (mem_presentFrom fs (i + 1) p).1 hp
      have hlt : k < fs.length := (List.getElem?_eq_some_iff.1 hk).1
      have := congrArg BitVec.toNat hpi
      simp only [BitVec.toNat_ofNat] at this
      omega

theorem presentFrom_length_le (fs : List Word) (i : Nat) : (presentFrom i fs).length ≤ fs.length := by
  induction fs generalizing i with
  | nil => exact Nat.le_refl _
  | cons f fs ih =>
    have := ih (i + 1)
    rw [presentFrom]
    split <;> simp only [List.length_cons] <;> omega

/-- The symbols left out weigh nothing (spec R140, R141). -/
theorem presentFrom_weight (fs : List Word) (i : Nat) :
    ((presentFrom i fs).map (fun p => p.2.toNat)).sum = (fs.map BitVec.toNat).sum := by
  induction fs generalizing i with
  | nil => rfl
  | cons f fs ih =>
    rw [presentFrom]
    split
    · rename_i hf
      simp [ih, hf]
    · simp [ih]

/-- The leaves of the tree BUILD makes: the present symbols, and the placeholder beside a single one (spec R141, R142). -/
def withPlaceholder : List (Byte × Word) → List (Byte × Word)
  | [p] => [p, (placeholderSym p.1, 0)]
  | syms => syms

/-- What BUILD can start its merges from: 2 to 256 symbols, none twice, of a total weight BUILD accepts. -/
structure LegalLeaves (syms : List (Byte × Word)) : Prop where
  two : 2 ≤ syms.length
  room : syms.length ≤ 256
  nodup : (syms.map Prod.fst).Nodup
  weight : (syms.map (fun p => p.2.toNat)).sum ≤ Config.wMax

theorem placeholderSym_ne (x : Byte) : placeholderSym x ≠ x := by
  unfold placeholderSym
  split
  · rename_i h
    simp [h]
  · rename_i h
    exact fun e => h e.symm

/-- The present symbols, with the placeholder where one is needed, are legal leaves (spec R140 to R142, R148). -/
theorem State.legalLeaves {s : State} (hw : s.totalWeight ≤ Config.wMax) (hne : s.presentSymbols ≠ []) :
    LegalLeaves (withPlaceholder s.presentSymbols) := by
  have hlen : s.presentSymbols.length ≤ 256 := (presentFrom_length_le s.freq.toList 0).trans_eq (by simp)
  have hd : (s.presentSymbols.map Prod.fst).Nodup := presentFrom_nodup _ _ (by simp)
  have hsum : (s.presentSymbols.map (fun p => p.2.toNat)).sum ≤ Config.wMax :=
    (presentFrom_weight s.freq.toList 0).trans_le hw
  generalize s.presentSymbols = syms at *
  match syms with
  | [] => exact absurd rfl hne
  | [p] => exact ⟨Nat.le_refl _, by simp [withPlaceholder], by simpa [withPlaceholder] using (placeholderSym_ne p.1).symm,
      by simpa [withPlaceholder] using hsum⟩
  | p :: q :: rest => exact ⟨by simp [withPlaceholder], hlen, hd, hsum⟩

/-- The arena BUILD merges from (spec R141, R142). -/
theorem allocAllLeaves_ok {syms : List (Byte × Word)} (s : State) (ha : s.arena = []) (hne : syms ≠ [])
    (h : LegalLeaves (withPlaceholder syms)) :
    (do allocLeaves syms; allocPlaceholder syms : Run Unit) s =
      .ok () (s.setArena ((withPlaceholder syms).map (fun p => leafNode p.1 p.2))) := by
  have hroom := h.room
  match syms with
  | [] => exact absurd rfl hne
  | [p] =>
    rw [Run.bind_ok (allocLeaves_ok [p] s (by simp [ha, Config.maxNodes])), allocPlaceholder,
      Run.bind_ok (alloc_ok _ _ (by simp [ha, Config.maxNodes]))]
    simp [ha, withPlaceholder]
  | p :: q :: rest =>
    rw [Run.bind_ok (allocLeaves_ok (p :: q :: rest) s (by
      simp only [withPlaceholder] at hroom
      simp only [ha, List.length_nil, Config.maxNodes]
      omega))]
    simp [ha, withPlaceholder, allocPlaceholder]

/-! ### The forest -/

/-- A key of PQ stands for a tree: its index names the tree's root, and its weight is that entry's (spec R143). -/
def Key.Names (arena : List Node) (k : Key) (t : CodeTree) : Prop :=
  treeAt arena arena.length k.idx = some t ∧ ∃ n, arena[k.idx.toNat]? = some n ∧ n.weight = k.weight

/-- What holds between merges: PQ's keys name trees that use every entry once, no symbol stands on two leaves, the
weights are sums and have not outgrown their total, and there is room for the merges to come (spec R143 to R148). -/
structure Forest (arena : List Node) (pq : List Key) (ts : List CodeTree) : Prop where
  roots : List.Forall₂ (Key.Names arena) pq ts
  nodup : (ts.flatMap CodeTree.leaves).Nodup
  size : (ts.map CodeTree.size).sum = arena.length
  two : 2 ≤ arena.length
  room : arena.length + pq.length ≤ Config.maxNodes + 1
  legal : ∀ n ∈ arena, n.Legal
  weight : (pq.map (fun k => k.weight.toNat)).sum ≤ Config.wMax
  entries : ∀ n ∈ arena, n.weight.toNat ≤ Config.wMax ∧ weightIsSum arena n
  last : ∀ k, pq = [k] → k.idx.toNat + 1 = arena.length

/-- The order in which PQ holds its keys does not matter. -/
theorem Forest.perm {arena : List Node} {pq pq' : List Key} {ts : List CodeTree} (h : Forest arena pq ts)
    (hp : pq.Perm pq') : ∃ ts', Forest arena pq' ts' := by
  obtain ⟨ts', hroots, hts⟩ := List.perm_comp_forall₂ hp.symm h.roots
  exact ⟨ts', { h with
    roots := hroots
    nodup := (hts.flatMap_right _).nodup_iff.2 h.nodup
    size := (hts.map CodeTree.size).sum_eq.trans h.size
    room := hp.length_eq ▸ h.room
    weight := (hp.map fun k => k.weight.toNat).sum_eq ▸ h.weight
    last := fun k hk => h.last k (List.perm_singleton.1 (hk ▸ hp)) }⟩

theorem Key.Names.append {arena : List Node} {k : Key} {t : CodeTree} (h : k.Names arena t) (more : List Node) :
    k.Names (arena ++ more) t := by
  obtain ⟨ht, n, hn, hw⟩ := h
  exact ⟨treeAt_mono ht (by simp), n, by rw [List.getElem?_append_left (List.getElem?_eq_some_iff.1 hn).1, hn], hw⟩

/-- An entry that is the sum of its children stays it: the children stay (spec R148). -/
theorem weightIsSum_append {arena : List Node} {n : Node} (h : weightIsSum arena n) (more : List Node) :
    weightIsSum (arena ++ more) n := by
  intro hleaf
  have hsum := h hleaf
  split at hsum
  · rename_i x y hx hy
    rw [List.getElem?_append_left (List.getElem?_eq_some_iff.1 hx).1,
      List.getElem?_append_left (List.getElem?_eq_some_iff.1 hy).1, hx, hy]
    exact hsum
  · cases hsum

/-- One merge: two trees become one over a new entry, whose weight is their sum (spec R144, R148). -/
theorem Forest.merge {arena : List Node} {x y : Key} {pq : List Key} {ts : List CodeTree}
    (h : Forest arena (x :: y :: pq) ts) :
    ∃ ts', Forest (arena ++ [internalNode (x.weight + y.weight) x.idx y.idx])
      (⟨x.weight + y.weight, BitVec.ofNat 9 arena.length⟩ :: pq) ts' := by
  obtain ⟨tx, ts1, hx, hrest, rfl⟩ := List.forall₂_cons_left_iff.1 h.roots
  obtain ⟨ty, ts2, hy, hpq, rfl⟩ := List.forall₂_cons_left_iff.1 hrest
  have hroom := h.room
  have hweight := h.weight
  simp only [List.length_cons, List.map_cons, List.sum_cons] at hroom hweight
  have hmax : Config.maxNodes = 511 := rfl
  have hwmax : Config.wMax = 0xFFFFFFFE := rfl
  have hidx : (BitVec.ofNat 9 arena.length).toNat = arena.length := by
    rw [BitVec.toNat_ofNat, Nat.mod_eq_of_lt (by omega)]
  have hsum : (x.weight + y.weight).toNat = x.weight.toNat + y.weight.toNat := by
    rw [BitVec.toNat_add, Nat.mod_eq_of_lt (by omega)]
  let z := internalNode (x.weight + y.weight) x.idx y.idx
  have hz : (arena ++ [z])[(BitVec.ofNat 9 arena.length).toNat]? = some z := by simp [hidx]
  obtain ⟨-, nx, hnx, hwx⟩ := hx.append [z]
  obtain ⟨-, ny, hny, hwy⟩ := hy.append [z]
  have hd := h.nodup
  have hsize := h.size
  simp only [List.map_cons, List.sum_cons, List.flatMap_cons, ← List.append_assoc] at hsize hd
  exact ⟨.node tx ty :: ts2, {
    roots := .cons
      ⟨by
        rw [List.length_append]
        exact treeAt_node hz rfl (treeAt_mono hx.1 (Nat.le_refl _)) (treeAt_mono hy.1 (Nat.le_refl _)), z, hz, rfl⟩
      (hpq.imp fun _ _ hk => hk.append [z])
    nodup := by simpa only [List.flatMap_cons, CodeTree.leaves] using hd
    size := by
      simp only [List.map_cons, List.sum_cons, CodeTree.size, List.length_append, List.length_singleton]
      omega
    two := by
      have := h.two
      simp only [List.length_append]
      omega
    room := by
      simp only [List.length_append, List.length_cons, List.length_nil]
      omega
    legal := fun n hn => by
      rcases List.mem_append.1 hn with hn | hn
      · exact h.legal n hn
      · rw [List.mem_singleton.1 hn]
        exact internalNode_legal _ _ _
    weight := by
      simp only [List.map_cons, List.sum_cons, hsum]
      omega
    entries := fun n hn => by
      rcases List.mem_append.1 hn with hn | hn
      · exact ⟨(h.entries n hn).1, weightIsSum_append (h.entries n hn).2 [z]⟩
      · rw [List.mem_singleton.1 hn]
        refine ⟨by simp only [internalNode, hsum]; omega, fun _ => ?_⟩
        simp only [z, internalNode] at hnx hny ⊢
        rw [hnx, hny]
        simpa only [hwx, hwy] using hsum
    last := fun k hk => by
      obtain ⟨rfl, -⟩ := List.cons.inj hk
      simp [hidx] }⟩

/-- Of two or more keys `ExtractMin` takes two (spec R144). -/
theorem extractMin_two {pq : List Key} (h : 2 ≤ pq.length) :
    ∃ x y pq1 pq2, extractMin pq = some (x, pq1) ∧ extractMin pq1 = some (y, pq2) ∧ pq.Perm (x :: y :: pq2) := by
  cases hx : extractMin pq with
  | none => simp [extractMin_none.1 hx] at h
  | some p =>
    obtain ⟨x, pq1⟩ := p
    have hpx := extractMin_perm hx
    cases hy : extractMin pq1 with
    | none => simp [hpx.length_eq, extractMin_none.1 hy] at h
    | some q => exact ⟨x, q.1, pq1, q.2, rfl, hy, hpx.trans ((extractMin_perm hy).cons x)⟩

/-- The merges end with one key, and it names a tree of the whole arena (spec R144, R145). -/
theorem mergeLoop_ok (n : Nat) (pq : List Key) (ts : List CodeTree) (s : State) (h : Forest s.arena pq ts) (h1 : 1 ≤ pq.length)
    (hn : pq.length ≤ n + 1) :
    ∃ k arena ts', mergeLoop n pq s = .ok [k] (s.setArena arena) ∧ Forest arena [k] ts' := by
  induction n generalizing pq ts s with
  | zero =>
    obtain ⟨k, rfl⟩ := List.length_eq_one_iff.1 (Nat.le_antisymm hn h1)
    exact ⟨k, s.arena, ts, rfl, h⟩
  | succ n ih =>
    by_cases h2 : 2 ≤ pq.length
    · obtain ⟨x, y, pq1, pq2, hx, hy, hp⟩ := extractMin_two h2
      obtain ⟨ts1, hxy⟩ := h.perm hp
      obtain ⟨ts2, hz⟩ := hxy.merge
      have hlen := hp.length_eq
      have hroom := hxy.room
      simp only [List.length_cons] at hlen hroom
      obtain ⟨k, arena, ts', hloop, hk⟩ := ih _ ts2 (s.setArena _) hz (by simp) (by simp only [List.length_cons]; omega)
      refine ⟨k, arena, ts', ?_, hk⟩
      simp only [mergeLoop, hx, hy]
      rw [Run.bind_ok (mergeTwo_ok x y s (by omega))]
      exact hloop
    · obtain ⟨k, rfl⟩ := List.length_eq_one_iff.1 (show pq.length = 1 by omega)
      exact ⟨k, s.arena, ts, rfl, h⟩

theorem State.initialKeys_weights (s : State) :
    s.initialKeys.map (fun k => k.weight.toNat) = s.arena.map (fun n => n.weight.toNat) := by
  apply List.ext_getElem <;> simp [State.initialKeys, keyOf]

/-- Before the first merge every leaf is a tree of its own (spec R141, R143). -/
theorem LegalLeaves.forest {syms : List (Byte × Word)} (h : LegalLeaves syms) (s : State)
    (ha : s.arena = syms.map (fun p => leafNode p.1 p.2)) :
    Forest s.arena s.initialKeys (syms.map (fun p => CodeTree.leaf p.1)) := by
  have hmax : Config.maxNodes = 511 := rfl
  have hlen : s.arena.length = syms.length := by simp [ha]
  have hkeys : s.initialKeys.length = syms.length := by simp [State.initialKeys, hlen]
  have hweights : s.arena.map (fun n => n.weight.toNat) = syms.map (fun p => p.2.toNat) := by
    simp [ha, leafNode, Function.comp_def]
  have htwo := h.two
  have hroom := h.room
  refine {
    roots := List.forall₂_iff_get.2 ⟨by simp [hkeys], fun i hi hi' => ?_⟩
    nodup := by simpa [List.flatMap_map, CodeTree.leaves, ← List.map_eq_flatMap] using h.nodup
    size := by simp [hlen, CodeTree.size, Function.comp_def]
    two := hlen ▸ htwo
    room := by omega
    legal := fun n hn => ?_
    weight := by rw [s.initialKeys_weights, hweights]; exact h.weight
    entries := fun n hn => ?_
    last := fun k hk => by simp [hk] at hkeys; omega }
  · have hi : i < syms.length := by simpa using hi'
    have hidx : (BitVec.ofNat 9 i).toNat = i := by rw [BitVec.toNat_ofNat, Nat.mod_eq_of_lt (by omega)]
    have hnode : s.arena[(BitVec.ofNat 9 i).toNat]? = some (leafNode syms[i].1 syms[i].2) := by simp [hidx, ha, hi]
    obtain ⟨f, hf⟩ : ∃ f, s.arena.length = f + 1 := ⟨s.arena.length - 1, by omega⟩
    have hkey : s.initialKeys[i]'(by omega) = ⟨syms[i].2, BitVec.ofNat 9 i⟩ := by
      simp [State.initialKeys, keyOf, ha, leafNode]
    simp only [List.get_eq_getElem, hkey, List.getElem_map, Key.Names, hf]
    exact ⟨treeAt_leaf hnode rfl, _, hnode, rfl⟩
  · obtain ⟨p, -, rfl⟩ := List.mem_map.1 (ha ▸ hn)
    exact leafNode_legal _ _
  · obtain ⟨p, hp, rfl⟩ := List.mem_map.1 (ha ▸ hn)
    have hle := List.single_le_sum (by simp) _ (List.mem_map_of_mem (f := fun p : Byte × Word => p.2.toNat) hp)
    exact ⟨hle.trans h.weight, fun hleaf => by cases hleaf⟩

/-! ### The body of BUILD -/

theorem buildFrom_eq {syms : List (Byte × Word)} (h : syms ≠ []) :
    buildFrom syms = (do allocLeaves syms; allocPlaceholder syms : Run Unit) >>= fun _ => view State.initialKeys >>=
      fun pq => mergeLoop pq.length pq >>=
      fun last => update (fun s => { s with root := rootOfKeys last, treeState := .built }) := by
  cases syms with
  | nil => exact absurd rfl h
  | cons p syms => simp only [buildFrom, bind_assoc]

/-- The one tree left, once ROOT names it, is a built tree (spec R26, R33, R145, R148). -/
theorem State.NoTree.built {s : State} {k : Key} {ts : List CodeTree} (h : s.NoTree) (hf : Forest s.arena [k] ts) :
    State.BodyInv { s with root := k.idx, treeState := .built } := by
  obtain ⟨t, ts', ⟨ht, -⟩, hts, rfl⟩ := List.forall₂_cons_left_iff.1 hf.roots
  obtain rfl := List.forall₂_nil_left_iff.1 hts
  have hsize := hf.size
  have htwo := hf.two
  have hroom := hf.room
  have hd := hf.nodup
  simp only [List.map_cons, List.map_nil, List.sum_cons, List.sum_nil, Nat.add_zero, List.length_singleton,
    List.flatMap_cons, List.flatMap_nil, List.append_nil] at hsize hroom hd
  have htree : treeAt s.arena Config.maxNodes k.idx = some t := by
    simpa using treeAt_mono (more := []) ht (show s.arena.length ≤ Config.maxNodes by omega)
  refine { h.inv with
    tree := ⟨?_, hf.last k rfl, hf.entries⟩
    codes := State.codesInv_of_not_valid h.codesValid }
  simp only [State.TreeShapeInv, State.tree?, htree]
  cases t with
  | leaf x => simp only [CodeTree.size] at hsize; omega
  | node l r => exact ⟨hd, hsize⟩

theorem buildFrom_ends {s : State} (h : s.NoTree) (ha : s.arena = []) {syms : List (Byte × Word)}
    (hl : syms ≠ [] → LegalLeaves (withPlaceholder syms)) :
    Run.Ends (buildFrom syms) s (fun _ => State.BodyInv) State.BodyInv := by
  by_cases hne : syms = []
  · subst hne
    exact .of_ok rfl { h.inv with tree := ⟨ha, h.root⟩, codes := State.codesInv_of_not_valid h.codesValid }
  · have hlegal := hl hne
    have hforest := hlegal.forest (s.setArena _) rfl
    have htwo := hlegal.two
    obtain ⟨k, arena, ts, hloop, hk⟩ := mergeLoop_ok _ _ _ _ hforest
      (by simp [State.initialKeys]; omega) (Nat.le_succ _)
    rw [State.setArena_setArena] at hloop
    have hn : (s.setArena arena).NoTree :=
      h.withArena (new := arena) ⟨s.ibitpos, s.draws, by simp [State.setArena, ha]⟩
        ⟨by have := hk.room; simp at this ⊢; omega, hk.legal⟩
    rw [buildFrom_eq hne]
    refine .of_ok (a := ()) ?_ (hn.built hk)
    rw [Run.bind_ok (allocAllLeaves_ok s ha hne hlegal), Run.view_bind, Run.bind_ok hloop]
    rfl

theorem buildBody_keeps : Run.Keeps buildBody := by
  refine .of_ends fun s hs => ?_
  by_cases hw : s.totalWeight ≤ Config.wMax
  · have hbody : Run.Ends (buildFrom s.presentSymbols) s.dropTree (fun _ => State.BodyInv) State.BodyInv :=
      buildFrom_ends hs.dropTree_noTree rfl (State.legalLeaves hw)
    have hreq : require (fun s => decide (s.totalWeight ≤ Config.wMax)) .weightOvf 0 s = .ok () s := by
      simp [require_apply, hw]
    rw [Run.Ends, buildBody, Run.bind_ok hreq]
    exact hbody
  · refine .of_error (e := .raise .weightOvf 0) (t := s) ?_ hs
    rw [buildBody, Run.bind_error]
    simp [require_apply, hw]

end Sys2Proof.Machine
end

section
/-! PROOFS. Every step keeps the invariant: the core's step, the host's accesses and the reset event (spec R92, R249 to R251). -/

namespace Sys2Proof.Machine

/-- Every command keeps the invariant: its body does (spec R102, R250). -/
theorem State.Inv.exec {s t : State} (h : s.Inv) (i : Instr) (ht : exec i s = .next t) : t.Inv := by
  cases i with
  | nop => exact Run.Keeps.command (.pure ()) h ht
  | clear => exact Run.Keeps.command (.update fun _ hs => hs.clearDatapath) h ht
  | rstio => exact Run.Keeps.command (.update fun _ hs => hs.rewind) h ht
  | build => exact buildBody_keeps.command h ht
  | gencodes => exact gencodesBody_keeps.command h ht
  | serialize => exact Run.Keeps.command (.bind (.require _ _ _) fun _ => serializeBody_keeps) h ht
  | deserialize => exact deserializeBody_keeps.command h ht
  | putlen => exact putlenBody_keeps.command h ht
  | getlen => exact getlenBody_keeps.command h ht
  | encsyms => exact Run.Keeps.command (.bind (.require _ _ _) fun _ => encodeBody_keeps) h ht
  | decsyms => exact Run.Keeps.command (.bind (.require _ _ _) fun _ => decodeBody_keeps) h ht
  | flush => exact Run.Keeps.padToByte.command h ht
  | encode =>
    exact Run.Keeps.command (.bind (.require _ _ _) fun _ => .bind (.require _ _ _) fun _ =>
      .bind serializeBody_keeps fun _ => .bind putlenBody_keeps fun _ => .bind encodeBody_keeps fun _ => .padToByte) h ht
  | decode =>
    exact Run.Keeps.command (.bind deserializeBody_keeps fun _ => .bind getlenBody_keeps fun _ =>
      .bind decodeBody_keeps fun _ => .padToByte) h ht

/-- The core's step waits, executes a command, or raises for an illegal word (spec R133, R250, R251). -/
theorem State.Inv.coreStep {s t : State} (h : s.Inv) (ht : coreStep s = .next t) : t.Inv := by
  cases hp : s.pend with
  | none =>
    cases (coreStep_empty s hp).symm.trans ht
    exact h
  | some w =>
    cases hw : decodeWord w with
    | ok i => exact h.exec i ((coreStep_command s w i hp hw).symm.trans ht)
    | error r => exact Run.Keeps.command (.raise _ _) h ((coreStep_illegal s w r hp hw).symm.trans ht)

theorem State.Inv.runEvent {s t : State} (h : s.Inv) (e : Event) (ht : runEvent e s = .next t) : t.Inv := by
  cases e with
  | read off size =>
    cases ht
    exact h.hostRead off size _
  | write off size v =>
    cases ht
    exact h.hostWrite off size v
  | reset =>
    cases ht
    exact h.resetEvent
  | core => exact h.coreStep ht

/-- Settles O59: each event keeps the invariant, and a command does because its body keeps it however it ends. -/
theorem stepKeepsInvariant : Obligations.StepKeepsInvariant := by
  intro s t h ht
  cases ha : s.agenda with
  | nil => exact h.coreStep ((step_idle s ha).symm.trans ht)
  | cons e rest =>
    have hrest : State.Inv { s with agenda := rest } := { h with }
    exact hrest.runEvent e ((step_event s e rest ha).symm.trans ht)

end Sys2Proof.Machine
end

section
/-! PROOFS. The registers of the host port: their reset values, the plain registers, STATUS, and accesses that are
ignored (spec R23 to R31, R39 to R44, R49, R51, R52). -/

namespace Sys2Proof.Machine

/-! ### Accesses while BUSY = 0 -/

/-- With BUSY = 0 a host read is the read of the register (spec R87). -/
theorem State.hostRead_idle {s : State} (hb : s.busy = false) (off : Offset) (r : Reg) (ha : off.toNat % 4 = 0)
    (hr : Reg.ofOffset off = some r) : s.hostRead off .word = s.readReg r := by
  simp [s.hostRead_reg off r ha hr, hb]

/-- With BUSY = 0 a host write is the write of the register (spec R87). -/
theorem State.hostWrite_idle {s : State} (hb : s.busy = false) (off : Offset) (r : Reg) (v : Word)
    (ha : off.toNat % 4 = 0) (hr : Reg.ofOffset off = some r) : s.hostWrite off .word v = s.writeReg v r := by
  simp [s.hostWrite_reg off r v ha hr, hb]

/-- Settles O13: with BUSY = 0 each offset reaches its register. -/
theorem registerWrites : Obligations.RegisterWrites := fun s v hb =>
  have write := fun off r => s.hostWrite_idle hb off r v
  ⟨write 0x008 .len rfl rfl, write 0x00C .inLen rfl rfl, write 0x010 .ibitpos rfl rfl, write 0x02C .irqEn rfl rfl,
    write 0x040 .nodeSel rfl rfl, write 0x050 .symSel rfl rfl, write 0x080 .ibufAddr rfl rfl,
    write 0x088 .obufAddr rfl rfl, fun sym =>
      ⟨write _ (.freq sym) (Script.freqOffset_aligned sym) (Reg.ofOffset_freq sym), rfl,
        fun sym' => s.setFreq_freqOf sym sym' v⟩⟩

/-- Settles O14: with BUSY = 0 each offset reaches its register. -/
theorem registerReads : Obligations.RegisterReads := fun s hb =>
  have read := fun off r => s.hostRead_idle hb off r
  ⟨read 0x000 .cmd rfl rfl, read 0x008 .len rfl rfl, read 0x00C .inLen rfl rfl, read 0x010 .ibitpos rfl rfl,
    read 0x014 .obitpos rfl rfl, read 0x018 .outLen rfl rfl, read 0x01C .oacc rfl rfl, read 0x020 .root rfl rfl,
    read 0x024 .nodeCount rfl rfl, read 0x028 .errInfo rfl rfl, read 0x030 .id rfl rfl, read 0x034 .ibufSize rfl rfl,
    read 0x038 .obufSize rfl rfl, read 0x080 .ibufAddr rfl rfl, read 0x088 .obufAddr rfl rfl, fun sym =>
      read _ (.freq sym) (Script.freqOffset_aligned sym) (Reg.ofOffset_freq sym)⟩

/-! ### Reset -/

/-- The reset value of a register (spec R23); none for the sizes, which an implementation fixes, and for the data ports,
whose bytes hold no value (spec R6, R50). -/
def Reg.resetValue : Reg → Option Word
  | .ibufSize => none
  | .obufSize => none
  | .ibufData => none
  | .obufData => none
  | .root => some 0x1FF
  | .id => some 0x48554631
  | _ => some 0

theorem State.reset_freqOf (sym : Byte) : State.reset.freqOf sym = 0 := by
  simp [State.reset, State.freqOf]

/-- In the reset state a register reads its reset value and the read changes nothing (spec R23, R49). -/
theorem State.reset_readReg (r : Reg) (v : Word) (hv : r.resetValue = some v) :
    State.reset.readReg r = (v, State.reset) := by
  cases r with
  | ibufSize => cases hv
  | obufSize => cases hv
  | ibufData => cases hv
  | obufData => cases hv
  | freq sym =>
    cases hv
    exact Prod.ext (State.reset_freqOf sym) rfl
  | _ =>
    cases hv
    rfl

/-- What stands at an aligned offset reads its reset value right after reset. -/
def readsAsReset (p : Offset × Word) : Bool :=
  p.1.toNat % 4 == 0 && (Reg.ofOffset p.1).bind Reg.resetValue == some p.2

theorem hostRead_of_readsAsReset {p : Offset × Word} (h : readsAsReset p = true) :
    State.reset.hostRead p.1 .word = (p.2, State.reset) := by
  simp only [readsAsReset, Bool.and_eq_true, beq_iff_eq, Option.bind_eq_some_iff] at h
  obtain ⟨ha, r, hr, hv⟩ := h
  rw [State.hostRead_idle rfl p.1 r ha hr, State.reset_readReg r p.2 hv]

/-- Settles O7: each offset of the table names a register with the reset value beside it. -/
theorem resetRegisterValues : Obligations.ResetRegisterValues :=
  ⟨fun p hp => hostRead_of_readsAsReset (List.all_eq_true.1 (by decide) p hp), State.reset_freqOf, rfl, rfl, rfl, rfl⟩

/-- Settles O58: right after reset nothing is pending, nothing is stored and no tree or code table holds. -/
theorem invariantAtReset : Obligations.InvariantAtReset where
  sizes := by decide
  memory := ⟨State.reset_memory_wf.1, State.reset_memory_wf.2, nofun, nofun⟩
  cursor := ⟨Nat.zero_le _, Nat.zero_le _, fun i _ => BitVec.getLsbD_zero, nofun⟩
  flags := ⟨nofun, fun _ => ⟨rfl, rfl⟩, nofun⟩
  arena := ⟨Nat.zero_le _, nofun⟩
  tree := rfl
  codes := nofun

/-! ### Ignored accesses -/

/-- A table gives no register to an offset that is none of its keys. -/
theorem lookupReg_none {rows : List (Nat × Reg)} {off : Nat} (h : off ∉ rows.map Prod.fst) : lookupReg rows off = none := by
  induction rows with
  | nil => rfl
  | cons row rows ih =>
    obtain ⟨hne, hrest⟩ := List.ne_and_not_mem_of_not_mem_cons h
    simp only [lookupReg, if_neg (Ne.symm hne), ih hrest]

/-- An offset below the FREQ entries that no register stands at, alone or in the code window (spec R23). -/
theorem Reg.ofOffset_none {off : Offset} (hf : off.toNat < 0x400) (hc : ¬ (0x060 ≤ off.toNat ∧ off.toNat < 0x080))
    (hm : off.toNat ∉ regMap.map Prod.fst) : Reg.ofOffset off = none := by
  simp only [Reg.ofOffset, if_neg (Nat.not_le.2 hf), dif_neg hc, lookupReg_none hm]

/-- An aligned access at an unmapped offset reads 0 and writes nothing (spec R51). -/
theorem State.hostRead_unmapped (s : State) {off : Offset} (ha : off.toNat % 4 = 0) (hr : Reg.ofOffset off = none) :
    s.hostRead off .word = (0, s) := by
  simp [State.hostRead, wholeAligned, ha, hr]

theorem State.hostWrite_unmapped (s : State) {off : Offset} (v : Word) (ha : off.toNat % 4 = 0)
    (hr : Reg.ofOffset off = none) : s.hostWrite off .word v = s := by
  simp [State.hostWrite, wholeAligned, ha, hr]

/-- The registers with access `RO` (spec R23). -/
def Reg.readOnly : Reg → Bool
  | .obitpos => true
  | .outLen => true
  | .oacc => true
  | .root => true
  | .nodeCount => true
  | .errInfo => true
  | .id => true
  | .ibufSize => true
  | .obufSize => true
  | .nodeInfo => true
  | .nodeLink => true
  | .nodeWeight => true
  | .symClen => true
  | .symCode _ => true
  | .obufData => true
  | _ => false

/-- A write to a read-only register is ignored, and it is not one that BUSY guards (spec R52, R87). -/
theorem State.writeReg_readOnly (s : State) (v : Word) {r : Reg} (h : r.readOnly = true) :
    r.guardedWhileBusy = false ∧ s.writeReg v r = s := by
  cases r with
  | cmd | status | len | inLen | ibitpos | irqEn | nodeSel | symSel | ibufAddr | ibufData | obufAddr | freq _ => cases h
  | _ => exact ⟨rfl, rfl⟩

/-- A read-only register stands at an aligned offset. -/
def readOnlyAt (off : Offset) : Bool := off.toNat % 4 == 0 && (Reg.ofOffset off).any Reg.readOnly

theorem State.hostWrite_readOnly (s : State) (v : Word) {off : Offset} (h : readOnlyAt off = true) :
    s.hostWrite off .word v = s := by
  simp only [readOnlyAt, Bool.and_eq_true, beq_iff_eq, Option.any_eq_true] at h
  obtain ⟨ha, r, hr, hro⟩ := h
  obtain ⟨hg, hw⟩ := s.writeReg_readOnly v hro
  simp [s.hostWrite_reg off r v ha hr, hg, hw]

/-! ### STATUS -/

/-- The flags of the STATUS word (spec R25). -/
theorem State.statusWord_flags (s : State) :
    s.statusWord.getLsbD 0 = s.busy ∧ s.statusWord.getLsbD 1 = s.done ∧ s.statusWord.getLsbD 2 = s.err ∧
      s.statusWord.getLsbD 3 = s.cmdOvr ∧ s.statusWord.getLsbD 4 = s.cmdRej ∧ s.statusWord.getLsbD 5 = s.busErr ∧
      s.statusWord.getLsbD 8 = s.codesValid := by
  unfold State.statusWord
  simp only [BitVec.getLsbD_append]
  simp [flagBit]

/-- The wider fields of the STATUS word (spec R25). -/
theorem State.statusWord_fields (s : State) :
    s.statusWord.extractLsb' 6 2 = s.treeState.code ∧ s.statusWord.extractLsb' 9 7 = 0 ∧
      s.statusWord.extractLsb' 16 8 = s.errCode ∧ s.statusWord.extractLsb' 24 8 = s.lastOp := by
  unfold State.statusWord
  simp (disch := decide) only [BitVec.extractLsb'_append_eq_of_le, BitVec.extractLsb'_append_eq_of_add_le, Nat.reduceSub,
    BitVec.extractLsb'_eq_self, BitVec.ofNat_eq_ofNat, and_self]

/-- STATUS reads exactly, and its write takes effect, whether BUSY or not (spec R25, R87). -/
theorem State.hostRead_status (s : State) : s.hostRead 0x004 .word = (s.statusWord, s) :=
  (s.hostRead_reg 0x004 .status rfl rfl).trans (if_neg (by simp [Reg.exactWhileBusy]))

theorem State.hostWrite_status (s : State) (v : Word) : s.hostWrite 0x004 .word v = s.writeStatus v :=
  (s.hostWrite_reg 0x004 .status v rfl rfl).trans (if_neg (by simp [Reg.guardedWhileBusy]))

/-- Settles O10: the word has each field at its place, and the write is `State.writeStatus`. -/
theorem statusRegister : Obligations.StatusRegister := by
  intro s v
  refine ⟨⟨s.statusWord, s.hostRead_status, ?_⟩, s.hostWrite_status v⟩
  obtain ⟨hbusy, hdone, herr, hovr, hrej, hbus, hcodes⟩ := s.statusWord_flags
  obtain ⟨htree, hzero, hcode, hop⟩ := s.statusWord_fields
  refine ⟨hbusy, hdone, herr, hovr, hrej, hbus, ?_, ?_, ?_, ?_, hcodes, hzero, hcode, hop⟩ <;>
    · intro ht
      rw [htree, ht]
      rfl

/-- Settles O15: an unmapped offset names no register, the listed registers are read-only, and STATUS has W1C bits. -/
theorem ignoredAccesses : Obligations.IgnoredAccesses := by
  refine ⟨fun s off v ha hlt hoff => ?_, fun s v off hoff => ?_, fun s v => ⟨_, s.hostWrite_status v, rfl⟩⟩
  · have hr : Reg.ofOffset off = none := by
      simp only [List.mem_cons, List.not_mem_nil, or_false, not_or] at hoff
      refine Reg.ofOffset_none hlt (by omega) ?_
      simp only [regMap, List.map_cons, List.map_nil, List.mem_cons, List.not_mem_nil, or_false, not_or]
      omega
    exact ⟨s.hostRead_unmapped ha hr, s.hostWrite_unmapped v ha hr⟩
  · have hro : readOnlyAt off = true := List.all_eq_true.1 (by decide) off hoff
    exact s.hostWrite_readOnly v hro

end Sys2Proof.Machine
end

section
/-! PROOFS. The two windows and the buffer data ports (spec R37, R38, R41, R42, R50, R71). -/

namespace Sys2Proof.Machine

/-! ### The node window -/

/-- An appended word as a number: the low part below the high one. -/
theorem toNat_append_add {m n : Nat} (x : BitVec m) (y : BitVec n) : (x ++ y).toNat = x.toNat * 2 ^ n + y.toNat := by
  rw [BitVec.toNat_append, ← Nat.shiftLeft_add_eq_or_of_lt y.isLt, Nat.shiftLeft_eq]

theorem nodeInfoWord_eq (n : Node) : nodeInfoWord n = BitVec.ofNat 32 (n.sym.toNat + 256 * n.leaf.toNat) := by
  have hleaf := n.leaf.toNat_le
  apply BitVec.eq_of_toNat_eq
  simp only [nodeInfoWord, toNat_append_add, flagBit, BitVec.toNat_ofBool, BitVec.toNat_ofNat]
  omega

theorem nodeLinkWord_eq (n : Node) : nodeLinkWord n = BitVec.ofNat 32 (n.left.toNat + 65536 * n.right.toNat) := by
  apply BitVec.eq_of_toNat_eq
  simp only [nodeLinkWord, toNat_append_add, BitVec.toNat_ofNat]
  omega

/-- The window shows the selected entry, and 0 where none is in use (spec R37). -/
theorem State.nodeWindow_some {s : State} {n : Node} (h : s.arena[s.nodeSel.toNat]? = some n) (f : Node → Word) :
    s.nodeWindow f = f n := by
  simp [State.nodeWindow, State.windowNode, State.node?, h]

theorem State.nodeWindow_none {s : State} (h : s.arena.length ≤ s.nodeSel.toNat) (f : Node → Word) : s.nodeWindow f = 0 := by
  simp [State.nodeWindow, State.windowNode, State.node?, h]

/-! ### The code window -/

/-- The offset of SYM_CODEk (spec R38). -/
def symCodeOffset (k : Fin 8) : Offset := BitVec.ofNat 11 (0x060 + 4 * k.val)

theorem Reg.ofOffset_symCode (k : Fin 8) :
    (symCodeOffset k).toNat % 4 = 0 ∧ Reg.ofOffset (symCodeOffset k) = some (.symCode k) := by
  revert k
  decide

/-- With BUSY = 0 each SYM_CODE register reads its part of the selected code (spec R38, R87). -/
theorem State.hostRead_symCode {s : State} (hb : s.busy = false) (k : Fin 8) :
    s.hostRead (symCodeOffset k) .word = (s.symCodeWord k, s) :=
  s.hostRead_idle hb _ (.symCode k) (Reg.ofOffset_symCode k).1 (Reg.ofOffset_symCode k).2

/-- Settles O16: each window register reads its view of the selected entry or symbol. -/
theorem windowReads : Obligations.WindowReads := by
  refine ⟨fun s hb => ?_, fun s hb => ?_⟩
  · have info := s.hostRead_idle hb 0x044 .nodeInfo rfl rfl
    have link := s.hostRead_idle hb 0x048 .nodeLink rfl rfl
    have weight := s.hostRead_idle hb 0x04C .nodeWeight rfl rfl
    refine ⟨fun n hn => ?_, fun hlen => ?_, s.hostRead_idle hb 0x040 .nodeSel rfl rfl, fun v => ?_⟩
    · rw [info, link, weight]
      simp only [State.readReg, State.nodeWindow_some hn, nodeInfoWord_eq, nodeLinkWord_eq, and_self]
    · rw [info, link, weight]
      simp only [State.readReg, State.nodeWindow_none hlen, and_self]
    · rw [s.hostWrite_idle hb 0x040 .nodeSel v rfl rfl, ← BitVec.setWidth_eq_extractLsb' (by decide)]
      rfl
  · have clen : s.hostRead 0x054 .word = (s.symClenWord, s) := s.hostRead_idle hb 0x054 .symClen rfl rfl
    have code := s.hostRead_symCode hb
    refine ⟨fun hv => ⟨clen.trans ?_, fun k => (code k).trans ?_⟩, fun hv => ⟨clen.trans ?_, fun k => (code k).trans ?_⟩,
      s.hostRead_idle hb 0x050 .symSel rfl rfl, fun v => ?_⟩
    · simp [State.symClenWord, hv]
    · simp [State.symCodeWord, hv]
    · simp [State.symClenWord, hv]
    · simp [State.symCodeWord, hv]
    · rw [s.hostWrite_idle hb 0x050 .symSel v rfl rfl, ← BitVec.setWidth_eq_extractLsb' (by decide)]
      rfl

/-! ### The buffer data ports -/

/-- A byte that holds a value reads it, with no other effect (spec R71). -/
theorem State.fetchByte_some (s : State) {mem : List Host.Cell} {a : Nat} {b : Byte} (h : memLookup mem a = some b) :
    s.fetchByte mem a = (b, s) := by
  simp [State.fetchByte, h]

/-- A byte that nothing has written reads a free draw (spec R50, R71). -/
theorem State.fetchByte_none (s : State) {mem : List Host.Cell} {a : Nat} (h : memLookup mem a = none) :
    s.fetchByte mem a = (Config.freeByte s.draws, { s with draws := s.draws + 1 }) := by
  simp [State.fetchByte, h]

/-- A read of IBUF_DATA at an address that exists fetches the byte there and moves the address on (spec R41). -/
theorem State.readIbufData_lt {s : State} (h : s.ibufAddr.toNat < s.ibufBytes) :
    s.readIbufData = ((s.fetchByte s.ibuf s.ibufAddr.toNat).1.setWidth 32,
      { (s.fetchByte s.ibuf s.ibufAddr.toNat).2 with ibufAddr := s.ibufAddr + 1 }) := if_pos h

/-- A read of OBUF_DATA at an address that exists fetches the byte there and moves the address on (spec R42). -/
theorem State.readObufData_lt {s : State} (h : s.obufAddr.toNat < s.obufBytes) :
    s.readObufData = ((s.fetchByte s.obuf s.obufAddr.toNat).1.setWidth 32,
      { (s.fetchByte s.obuf s.obufAddr.toNat).2 with obufAddr := s.obufAddr + 1 }) := if_pos h

/-- A write to IBUF_DATA at an address that exists stores the low byte there and moves the address on (spec R41). -/
theorem State.writeIbufData_lt {s : State} (v : Word) (h : s.ibufAddr.toNat < s.ibufBytes) :
    s.writeIbufData v =
      { s with ibuf := memWrite s.ibuf s.ibufAddr.toNat (v.setWidth 8), ibufAddr := s.ibufAddr + 1 } := if_pos h

/-- Settles O17: below the buffer's size a port reads or stores the byte at its address, at or above it sets BUS_ERR. -/
theorem bufferDataPorts : Obligations.BufferDataPorts := by
  refine ⟨fun s w hb => ?_, fun s w hb => ?_⟩
  · have write : s.hostWrite 0x084 .word w = s.writeIbufData w := s.hostWrite_idle hb 0x084 .ibufData w rfl rfl
    have read : s.hostRead 0x084 .word = s.readIbufData := s.hostRead_idle hb 0x084 .ibufData rfl rfl
    rw [write, read]
    refine ⟨s.hostWrite_idle hb 0x080 .ibufAddr w rfl rfl, s.hostRead_idle hb 0x080 .ibufAddr rfl rfl, fun hlt => ?_,
      fun hge => ⟨if_neg (Nat.not_lt.2 hge), if_neg (Nat.not_lt.2 hge)⟩⟩
    rw [State.writeIbufData_lt w hlt, State.readIbufData_lt hlt]
    exact ⟨rfl, fun a => memLookup_memWrite s.ibuf s.ibufAddr.toNat a _, fun b hbyte => by rw [s.fetchByte_some hbyte],
      fun hnone => by rw [s.fetchByte_none hnone]⟩
  · have read : s.hostRead 0x08C .word = s.readObufData := s.hostRead_idle hb 0x08C .obufData rfl rfl
    rw [read]
    refine ⟨s.hostWrite_idle hb 0x08C .obufData w rfl rfl, s.hostWrite_idle hb 0x088 .obufAddr w rfl rfl,
      s.hostRead_idle hb 0x088 .obufAddr rfl rfl, fun hlt => ?_, fun hge => if_neg (Nat.not_lt.2 hge)⟩
    rw [State.readObufData_lt hlt]
    exact ⟨fun b hbyte => by rw [s.fetchByte_some hbyte], fun hnone => by rw [s.fetchByte_none hnone]⟩

end Sys2Proof.Machine
end

section
/-! PROOFS. The two streams bit by bit (spec R71, R74, R76, R79, R80). -/

namespace Sys2Proof.Machine

/-- The cursor arithmetic of the streams, on natural numbers, is that of 32-bit words (log entry 20). -/
theorem ofNat_toNat_succ (w : Word) : BitVec.ofNat 32 (w.toNat + 1) = w + 1 := by
  rw [BitVec.ofNat_add, BitVec.ofNat_toNat, BitVec.setWidth_eq]
  rfl

/-! ### The input port -/

/-- `ReadBit` inside the input takes its bit from what the read of the cursor's byte returns (spec R76). -/
theorem readBit_of_readIbuf {s t : State} {v : Byte} (h : s.inAvail 1 = true)
    (hv : readIbuf (s.ibitpos.toNat / 8) s = .ok v t) :
    readBit s = .ok (bitOfByte v s.ibitpos.toNat) { t with ibitpos := s.ibitpos + 1 } := by
  simp only [readBit, h, if_true, hv, ofNat_toNat_succ]

/-- Settles O19: before the end of the input the cursor's byte exists, and it is read or drawn. -/
theorem readBitRule : Obligations.ReadBitRule := by
  refine fun s hb => ⟨readBit_end s, fun hlt => ?_⟩
  have hin : s.inAvail 1 = true := decide_eq_true hlt
  have hbyte : s.ibitpos.toNat / 8 < s.ibufBytes := by
    have := hb.1
    omega
  exact ⟨fun v hv => readBit_of_readIbuf hin (readIbuf_ok _ s v hbyte hv),
    fun hnone => readBit_of_readIbuf hin (readIbuf_free _ s hbyte hnone)⟩

/-! ### The output port -/

/-- A cursor that does not wrap advances by the number of bits produced (spec R80, log entry 20). -/
theorem State.emit_obitpos_toNat {s : State} {bits : List Bool} (h : s.obitpos.toNat + bits.length < 2 ^ 32) :
    (s.emit bits).obitpos.toNat = s.obitpos.toNat + bits.length := by
  rw [State.emit_obitpos, BitVec.toNat_ofNat, Nat.mod_eq_of_lt h]

theorem State.emitBit_obitpos_toNat_of_lt {s : State} (b : Bool) (h : s.obitpos.toNat + 1 < 2 ^ 32) :
    (s.emitBit b).obitpos.toNat = s.obitpos.toNat + 1 := State.emit_obitpos_toNat (bits := [b]) h

/-- A bit that completes no byte enters the accumulator (spec R80). -/
theorem State.emitBit_partial (s : State) (b : Bool) (h : (s.obitpos.toNat + 1) % 8 ≠ 0) :
    s.emitBit b = { s with obitpos := s.obitpos + 1, oacc := setBit s.oacc (7 - s.obitpos.toNat % 8) b } := by
  rw [← ofNat_toNat_succ]
  exact if_neg h

/-- A bit that completes a byte leaves the accumulator empty (spec R80). -/
theorem State.emitBit_complete (s : State) (b : Bool) (h : (s.obitpos.toNat + 1) % 8 = 0) :
    s.emitBit b = { s with obitpos := s.obitpos + 1, oacc := 0, obuf := (s.emitBit b).obuf } := by
  rw [State.emitBit_frame, State.emitBit_obitpos, State.emitBit_oacc, if_pos h, ofNat_toNat_succ]

/-- Settles O20: with room, `WriteBit` is `State.emitBit`, whose accumulator is `setBit` of the old one. -/
theorem writeBitRule : Obligations.WriteBitRule := by
  refine fun s b => ⟨writeBit_full b s, fun hroom => ⟨s.emitBit b, setBit s.oacc (7 - s.obitpos.toNat % 8) b,
    writeBit_ok b s hroom, fun i hi => setBit_getLsbD _ _ i b hi, s.emitBit_partial b,
    fun hdone => ⟨s.emitBit_complete b hdone, fun a => ?_⟩⟩⟩
  simp only [State.emitBit_memLookup, hdone, true_and]

/-- The bit that `WriteBit` sets is the one at the cursor's place in the byte (spec R74, R80). -/
theorem bitOfByte_setBit (v : Byte) (q p : Nat) (b : Bool) :
    bitOfByte (setBit v (7 - q % 8) b) p = if p % 8 = q % 8 then b else bitOfByte v p := by
  unfold bitOfByte
  rw [setBit_getLsbD _ _ _ _ (by omega)]
  exact if_congr (by omega) rfl rfl

/-- A produced bit stands at the cursor's position, and the output before it stays (spec R79). -/
theorem State.emitBit_outputBit? (s : State) (b : Bool) {p : Nat} (hq : s.obitpos.toNat + 1 < 2 ^ 32)
    (hp : p ≤ s.obitpos.toNat) :
    (s.emitBit b).outputBit? p = if p = s.obitpos.toNat then some b else s.outputBit? p := by
  unfold State.outputBit?
  rw [State.emitBit_obitpos_toNat_of_lt b hq, State.emitBit_oacc, State.emitBit_memLookup]
  by_cases hbyte : p / 8 = s.obitpos.toNat / 8
  · -- the byte of the new bit: it is the old accumulator with that bit set, wherever it stands now
    have hnew : some (bitOfByte (setBit s.oacc (7 - s.obitpos.toNat % 8) b) p) =
        if p = s.obitpos.toNat then some b else some (bitOfByte s.oacc p) := by
      rw [bitOfByte_setBit, apply_ite some]
      exact if_congr (by omega) rfl rfl
    rw [if_pos hbyte, ← hnew]
    by_cases hdone : (s.obitpos.toNat + 1) % 8 = 0
    · rw [if_neg (by omega), if_pos (by omega), Option.map_some]
    · rw [if_pos (by omega), if_neg hdone]
  · -- a byte below it: it is in OBUF, before and after
    rw [if_neg (by omega), if_neg (by omega), if_neg (by omega), if_neg hbyte]

/-- The output before the cursor stays (spec R79). -/
theorem State.emit_outputBit?_before (s : State) (bits : List Bool) {p : Nat}
    (hq : s.obitpos.toNat + bits.length < 2 ^ 32) (hp : p < s.obitpos.toNat) :
    (s.emit bits).outputBit? p = s.outputBit? p := by
  induction bits generalizing s with
  | nil => rfl
  | cons b bits ih =>
    rw [List.length_cons] at hq
    have hcur := State.emitBit_obitpos_toNat_of_lt b (show s.obitpos.toNat + 1 < 2 ^ 32 by omega)
    rw [State.emit_cons, ih (s.emitBit b) (by omega) (by omega), s.emitBit_outputBit? b (by omega) hp.le, if_neg hp.ne]

/-- Each produced bit stands at its position (spec R79). -/
theorem State.emit_outputBit? (s : State) (bits : List Bool) {j : Nat}
    (hq : s.obitpos.toNat + bits.length < 2 ^ 32) (hj : j < bits.length) :
    (s.emit bits).outputBit? (s.obitpos.toNat + j) = bits[j]? := by
  induction bits generalizing s j with
  | nil => cases hj
  | cons b bits ih =>
    rw [List.length_cons] at hq hj
    have hcur := State.emitBit_obitpos_toNat_of_lt b (show s.obitpos.toNat + 1 < 2 ^ 32 by omega)
    rw [State.emit_cons]
    cases j with
    | zero =>
      rw [Nat.add_zero, (s.emitBit b).emit_outputBit?_before bits (by omega) (by omega),
        s.emitBit_outputBit? b (by omega) le_rfl, if_pos rfl, List.getElem?_cons_zero]
    | succ j =>
      rw [show s.obitpos.toNat + (j + 1) = (s.emitBit b).obitpos.toNat + j by omega,
        ih (s.emitBit b) (by omega) (by omega), List.getElem?_cons_succ]

/-- Produced bits store nothing but the bytes they complete (spec R79, R80). -/
theorem State.emit_stores (s : State) (bits : List Bool) (hq : s.obitpos.toNat + bits.length < 2 ^ 32) :
    storesOnlyOutput s (s.emit bits) := by
  induction bits generalizing s with
  | nil => exact storesOnlyOutput_refl s
  | cons b bits ih =>
    rw [List.length_cons] at hq
    have hcur := State.emitBit_obitpos_toNat_of_lt b (show s.obitpos.toNat + 1 < 2 ^ 32 by omega)
    have hend := State.emit_obitpos_toNat (show (s.emitBit b).obitpos.toNat + bits.length < 2 ^ 32 by omega)
    exact storesOnlyOutput_trans (s.emitBit_stores b (by omega)) (ih (s.emitBit b) (by omega)) (by omega)
      (Nat.le.intro hend.symm)

/-- Settles O21: bit by bit, by induction on the bits produced. -/
theorem producedBitsLand : Obligations.ProducedBitsLand := fun s bits hq =>
  ⟨State.emit_obitpos_toNat hq, s.emit_frame bits, fun _ hj => s.emit_outputBit? bits hq hj,
    fun _ hp => s.emit_outputBit?_before bits hq hp, s.emit_stores bits hq⟩

end Sys2Proof.Machine
end

section
/-! PROOFS. Refused host accesses, and the host port while BUSY = 1 (spec R51, R52, R86, R87, R252). -/

namespace Sys2Proof.Machine

/-! ### Refused accesses -/

/-- An access of another size, or at an offset that is no multiple of 4, is not a whole aligned one (spec R85, R86). -/
theorem wholeAligned_eq_false {off : Offset} {size : AccessSize} (h : size ≠ .word ∨ off.toNat % 4 ≠ 0) :
    wholeAligned off size = false := by
  rw [wholeAligned, Bool.and_eq_false_iff, decide_eq_false_iff_not, decide_eq_false_iff_not]
  exact h

/-- Settles O11: the check of size and alignment comes before everything else. -/
theorem narrowAccessRefused : Obligations.NarrowAccessRefused := by
  intro s off size v h
  have hw := wholeAligned_eq_false h
  constructor
  · rw [State.hostRead, hw]
    rfl
  · rw [State.hostWrite, hw]
    rfl

/-! ### The host port while BUSY = 1 -/

/-- The list of R87: the registers whose reads are exact. -/
theorem Reg.exactWhileBusy_iff (r : Reg) :
    r.exactWhileBusy = true ↔ r ∈ [.status, .id, .ibufSize, .obufSize, .irqEn, .cmd] := by
  cases r <;> simp [Reg.exactWhileBusy]

/-- The list of R87: the read-write registers whose writes are discarded. -/
theorem Reg.guardedWhileBusy_iff (r : Reg) :
    r.guardedWhileBusy = true ↔
      r ∈ [.len, .inLen, .ibitpos, .nodeSel, .symSel, .ibufAddr, .ibufData, .obufAddr] ∨ ∃ sym, r = .freq sym := by
  cases r <;> simp [Reg.guardedWhileBusy]

/-- The registers with access `RO` in the map of R23. -/
theorem Reg.readOnly_iff (r : Reg) :
    r.readOnly = true ↔
      r ∈ [.obitpos, .outLen, .oacc, .root, .nodeCount, .errInfo, .id, .ibufSize, .obufSize, .nodeInfo, .nodeLink,
        .nodeWeight, .symClen, .obufData] ∨ ∃ k, r = .symCode k := by
  cases r <;> simp [Reg.readOnly]

/-- A register whose reads are exact is read, busy or not (spec R87). -/
theorem State.hostRead_exact (s : State) {off : Offset} {r : Reg} (ha : off.toNat % 4 = 0)
    (hr : Reg.ofOffset off = some r) (he : r.exactWhileBusy = true) : s.hostRead off .word = s.readReg r := by
  rw [s.hostRead_reg off r ha hr, he, Bool.not_true, Bool.and_false]
  rfl

/-- A write to a register that BUSY does not guard reaches it, busy or not (spec R87). -/
theorem State.hostWrite_unguarded (s : State) {off : Offset} {r : Reg} (v : Word) (ha : off.toNat % 4 = 0)
    (hr : Reg.ofOffset off = some r) (hg : r.guardedWhileBusy = false) : s.hostWrite off .word v = s.writeReg v r := by
  rw [s.hostWrite_reg off r v ha hr, hg, Bool.and_false]
  rfl

/-- A write to CMD while BUSY is an overrun (spec R252). -/
theorem State.issue_busy {s : State} (w : Word) (hb : s.busy = true) : s.issue w = { s with cmdOvr := true } := if_pos hb

/-- Settles O12: a register's reads are exact or free, and its writes are guarded or not, as the tables of R87 say. -/
theorem busyPort : Obligations.BusyPort := by
  intro s off r v hb ha hr
  have read : ∀ r', r = r' → r'.exactWhileBusy = true → s.hostRead off .word = s.readReg r' := by
    rintro _ rfl
    exact s.hostRead_exact ha hr
  have write : ∀ r', r = r' → r'.guardedWhileBusy = false → s.hostWrite off .word v = s.writeReg v r' := by
    rintro _ rfl
    exact s.hostWrite_unguarded v ha hr
  refine ⟨fun h => read .cmd h rfl, fun h => read .status h rfl, fun h => read .irqEn h rfl, fun h => read .id h rfl,
    fun h => read .ibufSize h rfl, fun h => read .obufSize h rfl, fun hfree => ?_,
    fun h => (write .cmd h rfl).trans (State.issue_busy v hb), fun h => write .status h rfl, fun h => write .irqEn h rfl,
    fun hguard => ?_, fun hro => ?_, fun off' ha' hr' => s.hostWrite_unmapped v ha' hr'⟩
  · have he : r.exactWhileBusy = false := Bool.eq_false_iff.2 (mt r.exactWhileBusy_iff.1 hfree)
    rw [s.hostRead_reg off r ha hr, hb, he]
    rfl
  · rw [s.hostWrite_reg off r v ha hr, hb, r.guardedWhileBusy_iff.2 hguard]
    rfl
  · obtain ⟨hguard, hkeep⟩ := s.writeReg_readOnly v (r.readOnly_iff.2 hro)
    exact (write r rfl hguard).trans hkeep

end Sys2Proof.Machine
end


section
/-! PROOFS. The command word: its two fields, its two checks, and how the decoder and the encoder agree (spec R100 to
R103). -/

namespace Sys2Proof

/-! ### The fields of a command word -/

theorem rsvdField_append_opField (w : Word) : rsvdField w ++ opField w = w :=
  BitVec.extractLsb'_append_extractLsb' (w := 24)

@[simp] theorem rsvdField_encode (i : Instr) : rsvdField (encode i) = 0#24 := BitVec.extractLsb'_append_eq_left

@[simp] theorem opField_encode (i : Instr) : opField (encode i) = i.opcode := BitVec.extractLsb'_append_eq_right

theorem eq_encode_iff (w : Word) (i : Instr) : w = encode i ↔ rsvdField w = 0#24 ∧ opField w = i.opcode := by
  constructor
  · rintro rfl
    exact ⟨rsvdField_encode i, opField_encode i⟩
  · rintro ⟨hr, ho⟩
    rw [← rsvdField_append_opField w, hr, ho, encode]

theorem rsvdField_toNat (w : Word) : (rsvdField w).toNat = w.toNat / 256 := by
  rw [rsvdField, BitVec.extractLsb'_toNat, Nat.shiftRight_eq_div_pow]
  omega

theorem opField_toNat (w : Word) : (opField w).toNat = w.toNat % 256 := by
  rw [opField, BitVec.extractLsb'_toNat, Nat.shiftRight_zero]

/-! ### The opcode map -/

theorem lookupOp_eq_none_iff (rows : List OpRow) (op : Byte) :
    lookupOp rows op = none ↔ op ∉ rows.map OpRow.op := by
  induction rows with
  | nil => simp [lookupOp]
  | cons r rows ih =>
    by_cases h : r.op = op
    · simp [lookupOp, h]
    · simp [lookupOp, h, ih, Ne.symm h]

/-- What a lookup finds stands in the table beside that opcode. -/
theorem mem_of_lookupOp {rows : List OpRow} {op : Byte} {i : Instr} (h : lookupOp rows op = some i) :
    ⟨op, i⟩ ∈ rows := by
  induction rows with
  | nil => cases h
  | cons r rows ih =>
    rw [lookupOp] at h
    split at h
    · next hop =>
      cases hop
      cases h
      exact List.mem_cons_self
    · exact List.mem_cons_of_mem _ (ih h)

theorem opcodeMap_op_eq_opcode : ∀ r ∈ opcodeMap, r.op = r.instr.opcode := by decide

theorem lookupOp_opcode (i : Instr) : lookupOp opcodeMap i.opcode = some i := by
  cases i <;> rfl

/-- The opcode map is a bijection between its opcodes and the commands (spec R102). -/
theorem lookupOp_opcodeMap_iff (op : Byte) (i : Instr) : lookupOp opcodeMap op = some i ↔ op = i.opcode := by
  constructor
  · exact fun h => opcodeMap_op_eq_opcode _ (mem_of_lookupOp h)
  · rintro rfl
    exact lookupOp_opcode i

/-! ### The two checks of a command word -/

theorem CommandWord.rsvdZero_iff (w : Word) : CommandWord.rsvdZero w = true ↔ rsvdField w = 0#24 := by
  rw [CommandWord.rsvdZero, decide_eq_true_iff, ← rsvdField_toNat, ← BitVec.toNat_inj]
  rfl

/-- The opcodes outside the five ranges of R103 are those of the opcode map. -/
theorem CommandWord.opAssigned_iff (w : Word) :
    CommandWord.opAssigned w = true ↔ opField w ∈ opcodeMap.map OpRow.op := by
  have hop := opField_toNat w
  simp only [CommandWord.opAssigned, opcodeMap, List.map_cons, List.map_nil, List.mem_cons, List.not_mem_nil,
    Bool.not_eq_true', Bool.or_eq_false_iff, decide_eq_false_iff_not, ← hop, ← BitVec.toNat_inj, BitVec.toNat_ofNat,
    or_false]
  constructor <;> omega

/-! ### The decoder's three answers -/

theorem decodeWord_of_rsvd_ne {w : Word} (h : rsvdField w ≠ 0#24) : decodeWord w = .error .reservedBits := if_neg h

theorem decodeWord_of_lookup_none {w : Word} (h : rsvdField w = 0#24) (ho : lookupOp opcodeMap (opField w) = none) :
    decodeWord w = .error .unassignedOpcode := by
  rw [decodeWord, if_pos h, ho]

theorem decodeWord_of_lookup_some {w : Word} {i : Instr} (h : rsvdField w = 0#24)
    (ho : lookupOp opcodeMap (opField w) = some i) : decodeWord w = .ok i := by
  rw [decodeWord, if_pos h, ho]

/-- A word decodes to a command exactly when it is that command's word (spec R102). -/
theorem decodeWord_eq_ok_iff (w : Word) (i : Instr) : decodeWord w = .ok i ↔ w = encode i := by
  rw [eq_encode_iff, ← lookupOp_opcodeMap_iff]
  constructor
  · intro h
    by_cases hr : rsvdField w = 0#24
    · cases ho : lookupOp opcodeMap (opField w) with
      | none => cases (decodeWord_of_lookup_none hr ho).symm.trans h
      | some j =>
        cases (decodeWord_of_lookup_some hr ho).symm.trans h
        exact ⟨hr, rfl⟩
    · cases (decodeWord_of_rsvd_ne hr).symm.trans h
  · exact fun ⟨hr, ho⟩ => decodeWord_of_lookup_some hr ho

theorem decodeWord_encode (i : Instr) : decodeWord (encode i) = .ok i := (decodeWord_eq_ok_iff _ i).2 rfl

/-! ### The statements -/

/-- Settles O3: the two checks are the decoder's tests, of `RSVD` and of the opcode's place in the map. -/
theorem illegalWordsAreExactlyListed : Obligations.IllegalWordsAreExactlyListed := by
  intro w
  refine ⟨fun hwf => ?_, fun hr => ?_, fun hr ho => ?_⟩
  · obtain ⟨hr, ho⟩ := Bool.and_eq_true_iff.1 hwf
    have hmem := (CommandWord.opAssigned_iff w).1 ho
    have hsome : lookupOp opcodeMap (opField w) ≠ none := fun hnone => (lookupOp_eq_none_iff _ _).1 hnone hmem
    obtain ⟨i, hi⟩ := Option.ne_none_iff_exists'.1 hsome
    exact ⟨i, decodeWord_of_lookup_some ((CommandWord.rsvdZero_iff w).1 hr) hi⟩
  · exact decodeWord_of_rsvd_ne (mt (CommandWord.rsvdZero_iff w).2 (Bool.eq_false_iff.1 hr))
  · have hmem := mt (CommandWord.opAssigned_iff w).2 (Bool.eq_false_iff.1 ho)
    exact decodeWord_of_lookup_none ((CommandWord.rsvdZero_iff w).1 hr) ((lookupOp_eq_none_iff _ _).2 hmem)

/-- Settles O1: each word is its command's encoding. -/
theorem commandWordsDecode : Obligations.CommandWordsDecode :=
  ⟨decodeWord_encode .nop, decodeWord_encode .clear, decodeWord_encode .rstio, decodeWord_encode .build,
    decodeWord_encode .gencodes, decodeWord_encode .serialize, decodeWord_encode .deserialize,
    decodeWord_encode .putlen, decodeWord_encode .getlen, decodeWord_encode .encsyms, decodeWord_encode .decsyms,
    decodeWord_encode .flush, decodeWord_encode .encode, decodeWord_encode .decode⟩

/-- Settles O2: both parts are the one equivalence between a word's decoding and the command's encoding. -/
theorem encodingRoundTrip : Obligations.EncodingRoundTrip :=
  ⟨fun i _ => decodeWord_encode i, fun w i h => (decodeWord_eq_ok_iff w i).1 h⟩

end Sys2Proof
end

section
/-! PROOFS. The control family: NOP, CLEAR, RSTIO, and the execution of an illegal word (spec R130 to R133). -/

namespace Sys2Proof.Machine

/-! ### The core's turn -/

/-- Where the core's step is next, with the agenda empty or `core` at its head, the step is the core's (spec R249, R250). -/
theorem step_of_coreNext {s : State} (h : s.coreNext) : step s = coreStep s.popEvent := by
  obtain hnil | hhead := h
  · have hpop : s.popEvent = s := by rw [State.popEvent, hnil, List.tail_nil, ← hnil]
    rw [step_idle s hnil, hpop]
  · obtain ⟨rest, hrest⟩ := List.head?_eq_some_iff.1 hhead
    rw [step_event s .core rest hrest, State.popEvent, hrest]
    rfl

/-- An illegal word leaves its fault record, with the word as detail, and completes (spec R133, R220). -/
theorem execIllegal_eq (w : Word) (s : State) : execIllegal w s = .next (s.recordFault .illegalCmd w).complete :=
  runCommand_raise (raise_apply .illegalCmd w s)

/-! ### NOP, CLEAR and RSTIO -/

/-- CLEAR leaves every FREQ entry 0 (spec R131). -/
@[simp] theorem State.clearDatapath_freqOf (s : State) (sym : Byte) : s.clearDatapath.freqOf sym = 0 := by
  simp [State.freqOf]

theorem exec_nop (s : State) : exec .nop s = .next s.complete := runCommand_ok (Run.pure_apply () s)

theorem exec_clear (s : State) : exec .clear s = .next s.clearDatapath.complete :=
  runCommand_ok (update_apply State.clearDatapath s)

theorem exec_rstio (s : State) : exec .rstio s = .next s.rewind.complete := runCommand_ok (update_apply State.rewind s)

/-! ### The statements -/

/-- Settles O5: the core takes its turn, the decoder refuses the word, and its execution records the fault. -/
theorem illegalWordRaisesIllegalCmd : Obligations.IllegalWordRaisesIllegalCmd := by
  intro s w r hnext hpend hw
  calc step s = coreStep s.popEvent := step_of_coreNext hnext
    _ = execIllegal w s.popEvent := coreStep_illegal s.popEvent w r hpend hw
    _ = .next (s.popEvent.recordFault .illegalCmd w).complete := execIllegal_eq w s.popEvent

/-- Settles O22: an empty body, then completion. -/
theorem nopResult : Obligations.NopResult := exec_nop

/-- Settles O23: the state after CLEAR is `State.clearDatapath`, completed. -/
theorem clearResult : Obligations.ClearResult := fun s =>
  ⟨s.clearDatapath.complete, exec_clear s, s.clearDatapath_freqOf, rfl⟩

/-- Settles O24: the state after RSTIO is `State.rewind`, completed. -/
theorem rstioResult : Obligations.RstioResult := exec_rstio

end Sys2Proof.Machine
end

section
/-! PROOFS. What BUILD makes: the leaves in ascending order of symbol, and one merge of the two smallest keys after
another, each determined by the entries before it (spec R140 to R148, R152). -/

namespace Sys2Proof.Machine

/-! ### The present symbols -/

theorem State.mem_presentSymbols {s : State} {p : Byte × Word} :
    p ∈ s.presentSymbols ↔ p.2 = s.freqOf p.1 ∧ s.freqOf p.1 ≠ 0 := by
  rw [State.presentSymbols, mem_presentFrom]
  constructor
  · rintro ⟨k, f, hk, hf, rfl⟩
    obtain ⟨hlt, rfl⟩ := List.getElem?_eq_some_iff.1 hk
    have hk : k < 256 := by simpa using hlt
    have hfreq : s.freqOf (BitVec.ofNat 8 (0 + k)) = s.freq[k] := by
      simp [State.freqOf, Nat.mod_eq_of_lt hk]
    exact ⟨hfreq.symm, hfreq ▸ hf⟩
  · rintro ⟨hp, hne⟩
    exact ⟨p.1.toNat, p.2, by simp [hp, State.freqOf, p.1.isLt], hp ▸ hne, by simp⟩

theorem State.presentSymbols_ne_nil_iff {s : State} : s.presentSymbols ≠ [] ↔ ∃ sym, s.freqOf sym ≠ 0 := by
  constructor
  · intro h
    obtain ⟨p, hp⟩ := List.exists_mem_of_ne_nil _ h
    exact ⟨p.1, (State.mem_presentSymbols.1 hp).2⟩
  · rintro ⟨sym, hsym⟩
    exact List.ne_nil_of_mem (State.mem_presentSymbols (p := (sym, s.freqOf sym)).2 ⟨rfl, hsym⟩)

theorem presentFrom_ascending (fs : List Word) (i : Nat) (h : i + fs.length ≤ 256) :
    ((presentFrom i fs).map (fun p => p.1.toNat)).Pairwise (· < ·) := by
  induction fs generalizing i with
  | nil => exact .nil
  | cons f fs ih =>
    rw [List.length_cons] at h
    have hrest := ih (i + 1) (by omega)
    rw [presentFrom]
    split
    · exact hrest
    · refine .cons (fun j hj => ?_) hrest
      obtain ⟨p, hp, rfl⟩ := List.mem_map.1 hj
      obtain ⟨k, g, hk, -, rfl⟩ := (mem_presentFrom fs (i + 1) p).1 hp
      have hlt : k < fs.length := (List.getElem?_eq_some_iff.1 hk).1
      simp only [BitVec.toNat_ofNat]
      omega

theorem withPlaceholder_length {syms : List (Byte × Word)} (h : syms ≠ []) :
    (withPlaceholder syms).length = max syms.length 2 := by
  match syms with
  | [] => exact absurd rfl h
  | [p] => rfl
  | p :: q :: rest => simp [withPlaceholder]

/-- The placeholder comes after the present symbols (spec R142). -/
theorem withPlaceholder_getElem? {syms : List (Byte × Word)} {i : Nat} {p : Byte × Word} (h : syms[i]? = some p) :
    (withPlaceholder syms)[i]? = some p := by
  match syms with
  | [] => simp at h
  | [q] =>
    obtain ⟨hi, rfl⟩ := List.getElem?_eq_some_iff.1 h
    obtain rfl : i = 0 := by simpa using hi
    rfl
  | q :: r :: rest => exact h

/-! ### The greedy choice on a growing arena -/

theorem getElem?_append_of_some {α : Type} {l : List α} {i : Nat} {a : α} (h : l[i]? = some a) (more : List α) :
    (l ++ more)[i]? = some a := by
  rw [List.getElem?_append_left (List.getElem?_eq_some_iff.1 h).1, h]

theorem keyBefore_append {arena : List Node} {i j : Nat} (h : keyBefore arena i j) (more : List Node) :
    keyBefore (arena ++ more) i j := by
  obtain ⟨a, b, ha, hb, hab⟩ := h
  exact ⟨a, b, getElem?_append_of_some ha more, getElem?_append_of_some hb more, hab⟩

/-- Entries made after `z` have no say in what waits when `z` is made (spec R144). -/
theorem waiting_append {arena : List Node} {m z i : Nat} (hz : z ≤ arena.length) (more : List Node) :
    waiting (arena ++ more) m z i ↔ waiting arena m z i := by
  refine and_congr_right fun _ => forall₂_congr fun k n => forall₂_congr fun _ hk => ?_
  rw [List.getElem?_append_left (by omega)]

theorem mergesSmallest_append {arena : List Node} {m z : Nat} (h : mergesSmallest arena m z) (more : List Node) :
    mergesSmallest (arena ++ more) m z := by
  obtain ⟨n, x, y, hn, hx, hy, hleaf, hsym, hsum, hwx, hwy, hxy, hleast⟩ := h
  have hz : z ≤ arena.length := (List.getElem?_eq_some_iff.1 hn).1.le
  exact ⟨n, x, y, getElem?_append_of_some hn more, getElem?_append_of_some hx more, getElem?_append_of_some hy more, hleaf,
    hsym, hsum, (waiting_append hz more).2 hwx, (waiting_append hz more).2 hwy, keyBefore_append hxy more,
    fun i hi hl hr => keyBefore_append (hleast i ((waiting_append hz more).1 hi) hl hr) more⟩

theorem mergesSmallest.children_lt {arena : List Node} {m z : Nat} (h : mergesSmallest arena m z) {n : Node}
    (hn : arena[z]? = some n) : n.left.toNat < z ∧ n.right.toNat < z := by
  obtain ⟨n', x, y, hn', -, -, -, -, -, hl, hr, -⟩ := h
  obtain rfl := Option.some.inj (hn'.symm.trans hn)
  exact ⟨hl.1, hr.1⟩

/-- What waits once entry `z` is made: `z`, and what waited before and is no child of it (spec R144). -/
theorem waiting_succ {arena : List Node} {m z : Nat} {n : Node} (hm : m ≤ z) (hn : arena[z]? = some n)
    (h : ∀ k, m ≤ k → k ≤ z → mergesSmallest arena m k) (i : Nat) :
    waiting arena m (z + 1) i ↔ i = z ∨ (i ≠ n.left.toNat ∧ i ≠ n.right.toNat ∧ waiting arena m z i) := by
  constructor
  · rintro ⟨hi, hfree⟩
    obtain ⟨hl, hr⟩ := hfree z n hm (Nat.lt_succ_self z) hn
    rcases Nat.lt_succ_iff_lt_or_eq.1 hi with hi | rfl
    · exact .inr ⟨hl.symm, hr.symm, hi, fun k n' hk hkz => hfree k n' hk (hkz.trans (Nat.lt_succ_self z))⟩
    · exact .inl rfl
  · rintro (rfl | ⟨hl, hr, hi, hfree⟩)
    · refine ⟨Nat.lt_succ_self i, fun k n' hk hki hn' => ?_⟩
      have := (h k hk (Nat.lt_succ_iff.1 hki)).children_lt hn'
      omega
    · refine ⟨hi.trans (Nat.lt_succ_self z), fun k n' hk hkz hn' => ?_⟩
      rcases Nat.lt_succ_iff_lt_or_eq.1 hkz with hkz | rfl
      · exact hfree k n' hk hkz hn'
      · obtain rfl := Option.some.inj (hn.symm.trans hn')
        exact ⟨hl.symm, hr.symm⟩

/-- What holds between merges beside `Forest`: the leaves stand first, each entry after them made the greedy choice, and
PQ holds the entries that wait (spec R141 to R144). -/
structure Merged (leaves : List (Byte × Word)) (arena : List Node) (pq : List Key) : Prop where
  leaf : ∀ (i : Nat) (p : Byte × Word), leaves[i]? = some p → arena[i]? = some (leafNode p.1 p.2)
  merges : ∀ z, leaves.length ≤ z → z < arena.length → mergesSmallest arena leaves.length z
  keys : ∀ i, i ∈ pq.map (fun k => k.idx.toNat) ↔ waiting arena leaves.length arena.length i
  once : (pq.map (fun k => k.idx.toNat)).Nodup
  count : arena.length + pq.length = 2 * leaves.length
  start : leaves.length ≤ arena.length

theorem Merged.perm {leaves : List (Byte × Word)} {arena : List Node} {pq pq' : List Key} (h : Merged leaves arena pq)
    (hp : pq.Perm pq') : Merged leaves arena pq' :=
  have hidx := hp.map fun k : Key => k.idx.toNat
  { h with
    keys := fun i => hidx.mem_iff.symm.trans (h.keys i)
    once := hidx.nodup_iff.1 h.once
    count := hp.length_eq ▸ h.count }

theorem Forest.entry {arena : List Node} {pq : List Key} {ts : List CodeTree} (h : Forest arena pq ts) {k : Key}
    (hk : k ∈ pq) : ∃ n, arena[k.idx.toNat]? = some n ∧ n.weight = k.weight := by
  obtain ⟨i, hi, rfl⟩ := List.mem_iff_getElem.1 hk
  exact (List.forall₂_iff_get.1 h.roots).2 i hi (h.roots.length_eq ▸ hi) |>.2

/-- The order of keys in PQ is the order of their entries (spec R143). -/
theorem Forest.keyBefore {arena : List Node} {pq : List Key} {ts : List CodeTree} (h : Forest arena pq ts) {a b : Key}
    (ha : a ∈ pq) (hb : b ∈ pq) (hne : a ≠ b) (hlt : b.lt a = false) : keyBefore arena a.idx.toNat b.idx.toNat := by
  obtain ⟨na, hna, hwa⟩ := h.entry ha
  obtain ⟨nb, hnb, hwb⟩ := h.entry hb
  have hab : a.lt b = true := by
    by_contra hab
    exact hne (Key.eq_of_not_lt (by simpa using hab) hlt)
  exact ⟨na, nb, hna, hnb, by simpa only [hwa, hwb] using (Key.lt_iff a b).1 hab⟩

/-- The entries in PQ are those that wait for the next merge (spec R144). -/
theorem Merged.waiting_iff {leaves : List (Byte × Word)} {arena : List Node} {x y : Key} {pq : List Key}
    (h : Merged leaves arena (x :: y :: pq)) (more : List Node) (i : Nat) :
    waiting (arena ++ more) leaves.length arena.length i ↔
      i = x.idx.toNat ∨ i = y.idx.toNat ∨ i ∈ pq.map (fun k => k.idx.toNat) := by
  rw [waiting_append (Nat.le_refl _), ← h.keys]
  simp only [List.map_cons, List.mem_cons]

section Merge

variable {leaves : List (Byte × Word)} {arena : List Node} {x y : Key} {pq : List Key} {ts : List CodeTree}
  (h : Merged leaves arena (x :: y :: pq)) (hf : Forest arena (x :: y :: pq) ts)
  (hx : ∀ k ∈ y :: pq, k.lt x = false) (hy : ∀ k ∈ pq, k.lt y = false)
include h hf hx hy

/-- The entry over the two smallest keys makes the greedy choice (spec R143, R144, R148). -/
theorem Merged.greedy :
    mergesSmallest (arena ++ [internalNode (x.weight + y.weight) x.idx y.idx]) leaves.length arena.length := by
  obtain ⟨nx, hnx, hwx⟩ := hf.entry (k := x) (by simp)
  obtain ⟨ny, hny, hwy⟩ := hf.entry (k := y) (by simp)
  have hweight := hf.weight
  have honce := h.once
  simp only [List.map_cons, List.nodup_cons, List.mem_cons, not_or, List.sum_cons] at honce hweight
  obtain ⟨⟨hxy, -⟩, -⟩ := honce
  have hwmax : Config.wMax = 0xFFFFFFFE := rfl
  refine ⟨_, nx, ny, List.getElem?_concat_length, getElem?_append_of_some hnx _, getElem?_append_of_some hny _, rfl, rfl, ?_,
    (h.waiting_iff _ _).2 (.inl rfl), (h.waiting_iff _ _).2 (.inr (.inl rfl)), ?_, fun i hi hil hir => ?_⟩
  · rw [hwx, hwy]
    exact BitVec.toNat_add_of_lt (by omega)
  · exact keyBefore_append (hf.keyBefore (by simp) (by simp) (by rintro rfl; exact hxy rfl) (hx y (by simp))) _
  · obtain ⟨k, hk, rfl⟩ := List.mem_map.1 ((((h.waiting_iff _ _).1 hi).resolve_left hil).resolve_left hir)
    exact keyBefore_append (hf.keyBefore (by simp) (by simp [hk]) (by rintro rfl; exact hir rfl) (hy k hk)) _

/-- One merge of the two smallest keys (spec R143, R144). -/
theorem Merged.merge :
    Merged leaves (arena ++ [internalNode (x.weight + y.weight) x.idx y.idx])
      (⟨x.weight + y.weight, BitVec.ofNat 9 arena.length⟩ :: pq) := by
  have honce := h.once
  have hroom := hf.room
  have hcount := h.count
  simp only [List.map_cons, List.nodup_cons, List.mem_cons, not_or, List.length_cons] at honce hroom hcount
  obtain ⟨⟨-, hxpq⟩, hypq, hpq⟩ := honce
  have hmax : Config.maxNodes = 511 := rfl
  have hidx : (BitVec.ofNat 9 arena.length).toNat = arena.length := by
    rw [BitVec.toNat_ofNat, Nat.mod_eq_of_lt (by omega)]
  let z := internalNode (x.weight + y.weight) x.idx y.idx
  have hlen : (arena ++ [z]).length = arena.length + 1 := List.length_append
  have hmerges : ∀ k, leaves.length ≤ k → k < arena.length + 1 → mergesSmallest (arena ++ [z]) leaves.length k := by
    intro k hk hlt
    rcases Nat.lt_succ_iff_lt_or_eq.1 hlt with hlt | rfl
    · exact mergesSmallest_append (h.merges k hk hlt) _
    · exact h.greedy hf hx hy
  have hnew : ∀ i, waiting (arena ++ [z]) leaves.length (arena.length + 1) i ↔
      i = arena.length ∨ i ∈ pq.map (fun k => k.idx.toNat) := fun i => by
    rw [waiting_succ h.start List.getElem?_concat_length (fun k hk hle => hmerges k hk (Nat.lt_succ_of_le hle)),
      h.waiting_iff]
    refine or_congr_right ⟨fun ⟨hil, hir, hi⟩ => (hi.resolve_left hil).resolve_left hir, fun hi => ⟨?_, ?_, .inr (.inr hi)⟩⟩
    · exact fun e => hxpq (e ▸ hi)
    · exact fun e => hypq (e ▸ hi)
  exact {
    leaf := fun i p hp => getElem?_append_of_some (h.leaf i p hp) _
    merges := fun k hk hlt => hmerges k hk (hlen ▸ hlt)
    keys := fun i => by rw [hlen, hnew, List.map_cons, List.mem_cons, hidx]
    once := by
      rw [List.map_cons, List.nodup_cons, hidx]
      exact ⟨fun hmem => Nat.lt_irrefl _ ((h.waiting_iff [] _).2 (.inr (.inr hmem))).1, hpq⟩
    count := by
      rw [hlen, List.length_cons]
      omega
    start := hlen ▸ Nat.le_succ_of_le h.start }

end Merge

theorem Merged.leaf_iff {leaves : List (Byte × Word)} {arena : List Node} {pq : List Key} (h : Merged leaves arena pq)
    {i : Nat} {n : Node} (hn : arena[i]? = some n) : n.leaf = true ↔ i < leaves.length := by
  by_cases hi : i < leaves.length
  · have hleaf := h.leaf i leaves[i] (List.getElem?_eq_getElem hi)
    obtain rfl := Option.some.inj (hleaf.symm.trans hn)
    simp [hi, leafNode]
  · obtain ⟨n', -, -, hn', -, -, hleaf, -⟩ := h.merges i (Nat.not_lt.1 hi) (List.getElem?_eq_some_iff.1 hn).1
    obtain rfl := Option.some.inj (hn'.symm.trans hn)
    simp [hi, hleaf]

/-- The merges end with one key, and in the same way from every state with this arena (spec R144, R145, R152). -/
theorem mergeLoop_merged {leaves : List (Byte × Word)} (n : Nat) (pq : List Key) (ts : List CodeTree) (arena : List Node)
    (hf : Forest arena pq ts) (hm : Merged leaves arena pq) (h1 : 1 ≤ pq.length) (hn : pq.length ≤ n + 1) :
    ∃ k arena' ts', (∀ s : State, s.arena = arena → mergeLoop n pq s = .ok [k] (s.setArena arena')) ∧
      Forest arena' [k] ts' ∧ Merged leaves arena' [k] := by
  induction n generalizing pq ts arena with
  | zero =>
    obtain ⟨k, rfl⟩ := List.length_eq_one_iff.1 (Nat.le_antisymm hn h1)
    exact ⟨k, arena, ts, fun s hs => by subst hs; rfl, hf, hm⟩
  | succ n ih =>
    by_cases h2 : 2 ≤ pq.length
    · obtain ⟨x, y, pq1, pq2, hx, hy, hp⟩ := extractMin_two h2
      obtain ⟨ts1, hxy⟩ := hf.perm hp
      obtain ⟨ts2, hz⟩ := hxy.merge
      have hleast : ∀ k ∈ y :: pq2, k.lt x = false := fun k hk =>
        extractMin_least hx k ((extractMin_perm hy).mem_iff.2 hk)
      have hmz := (hm.perm hp).merge hxy hleast (extractMin_least hy)
      have hlen := hp.length_eq
      have hroom := hxy.room
      simp only [List.length_cons] at hlen hroom
      obtain ⟨k, arena', ts', hloop, hk⟩ := ih _ ts2 _ hz hmz (by simp) (by simp only [List.length_cons]; omega)
      refine ⟨k, arena', ts', fun s hs => ?_, hk⟩
      subst hs
      simp only [mergeLoop, hx, hy]
      rw [Run.bind_ok (mergeTwo_ok x y s (by omega))]
      exact hloop _ rfl
    · obtain ⟨k, rfl⟩ := List.length_eq_one_iff.1 (show pq.length = 1 by omega)
      refine ⟨k, arena, ts, fun s hs => ?_, hf, hm⟩
      subst hs
      rfl

theorem State.initialKeys_idx {s : State} (h : s.arena.length ≤ Config.maxNodes) :
    s.initialKeys.map (fun k => k.idx.toNat) = List.range s.arena.length := by
  have hmax : Config.maxNodes = 511 := rfl
  refine List.ext_getElem (by simp [State.initialKeys]) fun i hi _ => ?_
  have hlt : i < s.arena.length := by simpa [State.initialKeys] using hi
  simp only [State.initialKeys, keyOf, List.getElem_map, List.getElem_zipIdx, BitVec.toNat_ofNat, List.getElem_range]
  omega

/-- Before the first merge every leaf waits (spec R141 to R143). -/
theorem LegalLeaves.merged {leaves : List (Byte × Word)} (h : LegalLeaves leaves) (s : State)
    (ha : s.arena = leaves.map (fun p => leafNode p.1 p.2)) : Merged leaves s.arena s.initialKeys := by
  have hmax : Config.maxNodes = 511 := rfl
  have hroom := h.room
  have hlen : s.arena.length = leaves.length := by simp [ha]
  have hidx := s.initialKeys_idx (by omega)
  exact {
    leaf := fun i p hp => by simp [ha, hp]
    merges := fun z hz hlt => by omega
    keys := fun i => by
      rw [hidx, List.mem_range, hlen]
      exact ⟨fun hi => ⟨hi, fun k n hk hlt => by omega⟩, And.left⟩
    once := hidx ▸ List.nodup_range
    count := by simp [State.initialKeys, hlen]; omega
    start := hlen.ge }

/-! ### The whole of BUILD -/

theorem buildBody_eq {s : State} (hw : s.totalWeight ≤ Config.wMax) :
    buildBody s = buildFrom s.presentSymbols s.dropTree := by
  rw [buildBody, Run.bind_ok (t := s) (a := ()) (by simp [require_apply, hw])]
  rfl

/-- The state after a BUILD that ends BUILT (spec R145). -/
def State.built (s : State) (arena : List Node) (root : NodeIdx) : State :=
  { s with arena := arena, root := root, treeState := .built, codesValid := false, pend := none, done := true }

/-- BUILD of a table with a symbol: the frequencies fix the arena and ROOT, whatever else the state holds (spec R140 to R145,
R152). -/
theorem State.exec_build {s : State} (hw : s.totalWeight ≤ Config.wMax) (hne : s.presentSymbols ≠ []) :
    ∃ k arena ts, (∀ s' : State, s'.freq = s.freq → exec .build s' = .next (s'.built arena k.idx)) ∧
      Forest arena [k] ts ∧ Merged (withPlaceholder s.presentSymbols) arena [k] := by
  have hlegal := State.legalLeaves hw hne
  have htwo := hlegal.two
  let t := s.setArena ((withPlaceholder s.presentSymbols).map (fun p => leafNode p.1 p.2))
  have hkeys : t.initialKeys.length = (withPlaceholder s.presentSymbols).length := by simp [t, State.initialKeys]
  obtain ⟨k, arena, ts, hloop, hf, hm⟩ := mergeLoop_merged _ _ _ _ (hlegal.forest t rfl) (hlegal.merged t rfl)
    (by omega) (Nat.le_succ t.initialKeys.length)
  refine ⟨k, arena, ts, fun s' hs' => ?_, hf, hm⟩
  have hsyms : s'.presentSymbols = s.presentSymbols := by rw [State.presentSymbols, hs']; rfl
  have hw' : s'.totalWeight ≤ Config.wMax := by rwa [State.totalWeight, hs']
  refine runCommand_ok (t := { s'.dropTree.setArena arena with root := k.idx, treeState := .built }) ?_
  rw [buildBody_eq hw', hsyms, buildFrom_eq hne, Run.bind_ok (allocAllLeaves_ok s'.dropTree rfl hne hlegal), Run.view_bind]
  exact Run.bind_ok (hloop (s'.dropTree.setArena t.arena) rfl)

theorem State.presentSymbols_nil {s : State} (h : ∀ sym, s.freqOf sym = 0) : s.presentSymbols = [] := by
  by_contra hne
  obtain ⟨sym, hsym⟩ := State.presentSymbols_ne_nil_iff.1 hne
  exact hsym (h sym)

theorem State.totalWeight_of_empty {s : State} (h : s.presentSymbols = []) : s.totalWeight = 0 := by
  rw [State.totalWeight, ← presentFrom_weight s.freq.toList 0]
  simp only [State.presentSymbols] at h
  simp [h]

/-- The state after a BUILD that ends EMPTY (spec R146). -/
def State.builtEmpty (s : State) : State :=
  { s with codesValid := false, arena := [], root := Config.nil, treeState := .empty, pend := none, done := true }

theorem State.exec_build_empty {s : State} (h : s.presentSymbols = []) : exec .build s = .next s.builtEmpty := by
  refine runCommand_ok (t := { s.dropTree with treeState := .empty }) ?_
  rw [buildBody_eq (by simp [State.totalWeight_of_empty h]), h]
  rfl

/-! ### The statements about BUILD -/

/-- Settles O27: BUILD checks the sum before it changes anything. -/
theorem buildOverflow : Obligations.BuildOverflow := by
  intro s h
  have hw : ¬ s.totalWeight ≤ Config.wMax := Nat.not_le.2 h
  refine runCommand_raise (t := s) (e := .weightOvf) (info := 0) (Run.bind_error ?_)
  simp [require_apply, hw]

/-- Settles O28: with no symbol present, BUILD ends at the empty tree. -/
theorem buildEmptyTable : Obligations.BuildEmptyTable := fun _ h =>
  State.exec_build_empty (State.presentSymbols_nil h)

/-- Settles O29: each merge replaces two keys by one, so from `m` leaves there are `m - 1` merges, and the last makes the
root. -/
theorem buildCounts : Obligations.BuildCounts := by
  intro s hw hfreq
  have hne := State.presentSymbols_ne_nil_iff.2 hfreq
  obtain ⟨k, arena, ts, hexec, hf, hm⟩ := State.exec_build hw hne
  have hleaves : (withPlaceholder s.presentSymbols).length = s.builtLeaves := withPlaceholder_length hne
  have hcount := hm.count
  have hlast := hf.last k rfl
  rw [List.length_singleton, hleaves] at hcount
  refine ⟨_, hexec s rfl, rfl, ?_, ?_, fun i n hn => ?_⟩
  · simp only [State.built]
    omega
  · simp only [State.built]
    omega
  · rw [← hleaves]
    exact hm.leaf_iff hn

/-- Settles O30: the leaves are allocated first, and no merge moves an entry. -/
theorem buildLeaves : Obligations.BuildLeaves := by
  intro s hw
  refine ⟨fun sym => ?_, presentFrom_ascending _ _ (by simp),
    fun p hp => (State.mem_presentSymbols.1 hp).1, fun hfreq => ?_⟩
  · constructor
    · intro h
      obtain ⟨p, hp, rfl⟩ := List.mem_map.1 h
      exact (State.mem_presentSymbols.1 hp).2
    · intro h
      exact List.mem_map_of_mem (f := Prod.fst) (State.mem_presentSymbols (p := (sym, s.freqOf sym)).2 ⟨rfl, h⟩)
  · obtain ⟨k, arena, ts, hexec, -, hm⟩ := State.exec_build hw (State.presentSymbols_ne_nil_iff.2 hfreq)
    exact ⟨_, hexec s rfl, fun i p hp => hm.leaf i p (withPlaceholder_getElem? hp),
      fun p hp => hm.leaf 1 (placeholderSym p.1, 0) (by rw [hp]; rfl)⟩

/-- Settles O31: every merge took the two smallest of the keys that waited, and later merges change no entry. -/
theorem buildMergesSmallestTwo : Obligations.BuildMergesSmallestTwo := by
  intro s hw hfreq
  have hne := State.presentSymbols_ne_nil_iff.2 hfreq
  obtain ⟨k, arena, ts, hexec, -, hm⟩ := State.exec_build hw hne
  have hleaves : (withPlaceholder s.presentSymbols).length = s.builtLeaves := withPlaceholder_length hne
  exact ⟨_, hexec s rfl, hleaves ▸ hm.merges⟩

end Sys2Proof.Machine
end

section
/-! PROOFS. What GENCODES leaves: each leaf's path as its code, no code the start of another, in a table that the tree alone
determines (spec R149 to R152). -/

namespace Sys2Proof.Machine

/-! ### The codes of a tree -/

theorem CodeTree.mem_leaves_iff {t : CodeTree} {sym : Byte} : sym ∈ t.leaves ↔ ∃ bits, (sym, bits) ∈ t.codes := by
  simp [← t.codes_fst]

/-- Below an internal node a code starts with the side its leaf is on (spec R150). -/
theorem CodeTree.mem_codes_node {l r : CodeTree} {sym : Byte} {bits : List Bool} :
    (sym, bits) ∈ (CodeTree.node l r).codes ↔
      (∃ rest, bits = false :: rest ∧ (sym, rest) ∈ l.codes) ∨ ∃ rest, bits = true :: rest ∧ (sym, rest) ∈ r.codes := by
  simp only [CodeTree.codes, List.mem_append, List.mem_map, Prod.mk.injEq, Prod.exists]
  grind

/-- Codes of different leaves part where their paths do (spec R151). -/
theorem CodeTree.codes_prefixFree (t : CodeTree) {a b : Byte} {u v : List Bool} (ha : (a, u) ∈ t.codes)
    (hb : (b, v) ∈ t.codes) (hne : a ≠ b) : ¬ u <+: v := by
  induction t generalizing u v with
  | leaf x =>
    simp only [CodeTree.codes, List.mem_singleton, Prod.mk.injEq] at ha hb
    exact absurd (ha.1.trans hb.1.symm) hne
  | node l r hl hr =>
    rw [CodeTree.mem_codes_node] at ha hb
    rcases ha with ⟨u, rfl, ha⟩ | ⟨u, rfl, ha⟩ <;> rcases hb with ⟨v, rfl, hb⟩ | ⟨v, rfl, hb⟩
    · simpa [List.cons_prefix_cons] using hl ha hb
    · simp [List.cons_prefix_cons]
    · simp [List.cons_prefix_cons]
    · simpa [List.cons_prefix_cons] using hr ha hb

theorem State.codeOf_length (s : State) (sym : Byte) : (s.codeOf sym).length = (s.codeLenOf sym).toNat := bitsOf_length _ _

theorem State.HoldsCodes.codeOf_eq {s : State} {t : CodeTree} (h : s.HoldsCodes t) {sym : Byte} {bits : List Bool}
    (hp : (sym, bits) ∈ t.codes) : s.codeOf sym = bits := (h.1 _ hp).1

theorem State.HoldsCodes.codeLenOf_eq {s : State} {t : CodeTree} (h : s.HoldsCodes t) {sym : Byte} {bits : List Bool}
    (hp : (sym, bits) ∈ t.codes) : (s.codeLenOf sym).toNat = bits.length := by
  rw [← s.codeOf_length, h.codeOf_eq hp]

/-! ### GENCODES and the tree -/

/-- From a tree of legal size GENCODES leaves its codes (spec R149, R150). -/
theorem State.exec_gencodes_tree {s : State} {tr : CodeTree} (hs : s.hasTree) (ht : s.tree? = some tr)
    (hd : tr.leaves.Nodup) (hsize : tr.size ≤ Config.maxNodes) :
    ∃ t, exec .gencodes s = .next t ∧
      t = { s with codeLen := t.codeLen, codeBits := t.codeBits, codesValid := true, pend := none, done := true } ∧
      t.HoldsCodes tr := by
  have hc := State.setCodes_holdsCodes s.withoutCodes tr s.zeroCodes_codes hd hsize
  have hexec : exec .gencodes s = _ := runCommand_ok (gencodesBody_tree hs ht)
  rw [State.setCodes_frame] at hc hexec
  exact ⟨_, hexec, rfl, hc⟩

theorem State.exec_gencodes_empty {s : State} (h : s.treeState = .empty) :
    exec .gencodes s = .next { s.zeroCodes with codesValid := true, pend := none, done := true } :=
  runCommand_ok (gencodesBody_empty h)

/-- `Visit` completes over a tree only: elsewhere it comes to a link that names no entry, or finds no end (spec R149). -/
theorem visit_stops (f : Nat) (i : NodeIdx) (d v : Nat) (s : State) (h : treeAt s.arena f i = none) :
    ∃ e t, visit f i d v s = .error (.stop e) t := by
  induction f generalizing i d v s with
  | zero => exact ⟨_, s, rfl⟩
  | succ f ih =>
    rw [treeAt] at h
    split at h
    · rename_i hn
      exact ⟨.deadNode, s, Run.bind_error (by simp [loadNode, State.node?, hn])⟩
    · rename_i n hn
      rw [visit, Run.bind_ok (loadNode_ok i s n hn)]
      split at h
      · cases h
      · rename_i hleaf
        rw [if_neg hleaf]
        cases hl : treeAt s.arena f n.left with
        | none =>
          obtain ⟨e, t, hv⟩ := ih n.left (d + 1) (2 * v) s hl
          exact ⟨e, t, Run.bind_error hv⟩
        | some l =>
          rw [Run.bind_ok (visit_ok f n.left (d + 1) (2 * v) l s hl)]
          refine ih n.right (d + 1) (2 * v + 1) _ ?_
          rw [State.setCodes_arena]
          cases hr : treeAt s.arena f n.right with
          | none => rfl
          | some r => simp [hl, hr] at h

/-- With a tree, GENCODES clears the code table, visits ROOT and marks the table valid (spec R149). -/
theorem gencodesBody_walk {s : State} (hs : s.hasTree) :
    gencodesBody s =
      (visit Config.maxNodes s.root 0 0 >>= fun _ => update fun s => { s with codesValid := true }) s.withoutCodes := by
  have hstate : s.treeState ≠ .invalid ∧ s.treeState ≠ .empty := by rcases hs with h | h <;> simp [h]
  rw [gencodesBody, Run.bind_ok (t := s) (a := ()) (by simp [requireTree, require_apply, hstate.1])]
  simp only [Run.update_bind, Run.view_bind]
  rw [if_neg (by simpa using hstate.2)]
  rfl

/-- Where ROOT names no tree, GENCODES gives no next state (spec R149). -/
theorem State.exec_gencodes_stops {s : State} (hs : s.hasTree) (h : s.tree? = none) : ∃ e, exec .gencodes s = .fault e := by
  obtain ⟨e, u, hvisit⟩ := visit_stops Config.maxNodes s.root 0 0 s.withoutCodes h
  have hbody : gencodesBody s = .error (.stop e) u := (gencodesBody_walk hs).trans (Run.bind_error hvisit)
  exact ⟨e, by simp only [exec, execGencodes, runCommand, hbody]⟩

/-- What GENCODES can do: it raises, or leaves an empty table, or the codes of a tree (spec R149, R213). -/
theorem State.exec_gencodes_cases {s t : State} (h : exec .gencodes s = .next t) :
    (s.treeState = .invalid ∧ t = (s.recordFault .noTree 0x11).complete) ∨
      (s.treeState = .empty ∧ t = { s.zeroCodes with codesValid := true, pend := none, done := true }) ∨
      (s.hasTree ∧ ∃ tr, s.tree? = some tr ∧
        t = State.complete { s.withoutCodes.setCodes 0 0 tr.codes with codesValid := true }) := by
  have hstate : s.treeState = .invalid ∨ s.treeState = .empty ∨ s.hasTree := by
    cases hst : s.treeState <;> simp [State.hasTree, hst]
  rcases hstate with hs | hs | hs
  · exact .inl ⟨hs, Host.Outcome.next.inj (h.symm.trans (runCommand_raise (gencodesBody_invalid hs)))⟩
  · exact .inr (.inl ⟨hs, Host.Outcome.next.inj (h.symm.trans (State.exec_gencodes_empty hs))⟩)
  · refine .inr (.inr ⟨hs, ?_⟩)
    cases htr : s.tree? with
    | none =>
      obtain ⟨e, he⟩ := State.exec_gencodes_stops hs htr
      cases he.symm.trans h
    | some tr => exact ⟨tr, rfl, Host.Outcome.next.inj (h.symm.trans (runCommand_ok (gencodesBody_tree hs htr)))⟩

/-- What `Visit` leaves in the code table depends on the table it found (spec R149). -/
theorem State.setCodes_congr {s s' : State} (hl : s.codeLen = s'.codeLen) (hb : s.codeBits = s'.codeBits) (d v : Nat)
    (cs : List (Byte × List Bool)) :
    (s.setCodes d v cs).codeLen = (s'.setCodes d v cs).codeLen ∧
      (s.setCodes d v cs).codeBits = (s'.setCodes d v cs).codeBits := by
  induction cs generalizing s s' with
  | nil => exact ⟨hl, hb⟩
  | cons p cs ih => exact ih (by simp only [State.setCode, hl]) (by simp only [State.setCode, hb])

/-! ### The statements about GENCODES -/

/-- Settles O33: GENCODES walks the tree of the arena, and a tree of at most 511 nodes has codes that fit their entries. -/
theorem gencodesResult : Obligations.GencodesResult := by
  refine ⟨fun s tr hinv hs ht => ?_, fun s h => ?_⟩
  · obtain ⟨tr', ht', hd, hsize⟩ := hinv.tree.exists_tree hs
    obtain rfl := Option.some.inj (ht'.symm.trans ht)
    obtain ⟨t, hexec, hframe, hc⟩ := State.exec_gencodes_tree hs ht hd (hsize.trans_le hinv.arena.1)
    exact ⟨t, hexec, hframe, fun p hp => ⟨hc.codeLenOf_eq hp, (hc.1 p hp).2, (hc.1 p hp).1⟩, hc.2⟩
  · exact ⟨_, State.exec_gencodes_empty h, rfl, s.zeroCodes_codes⟩

theorem State.Inv.holdsCodes {s : State} {tr : CodeTree} (h : s.Inv) (hs : s.hasTree) (hv : s.codesValid = true)
    (ht : s.tree? = some tr) : s.HoldsCodes tr := by
  have hc := h.codes hv
  rcases hs with hs | hs <;> rw [hs, ht] at hc <;> exact hc

/-- The root of the current tree is internal (spec R142, R163). -/
theorem State.TreeInv.root_internal {s : State} {tr : CodeTree} (h : s.TreeInv) (hs : s.hasTree) (ht : s.tree? = some tr) :
    ∃ l r, tr = .node l r := by
  have hshape : s.TreeShapeInv := by
    rcases hs with hs | hs <;> rw [State.TreeInv, hs] at h <;> exact h.1
  rw [State.TreeShapeInv, ht] at hshape
  cases tr with
  | leaf x => cases hshape
  | node l r => exact ⟨l, r, rfl⟩

theorem CodeTree.codes_node_ne_nil {l r : CodeTree} {sym : Byte} {bits : List Bool}
    (h : (sym, bits) ∈ (CodeTree.node l r).codes) : bits ≠ [] := by
  rcases CodeTree.mem_codes_node.1 h with ⟨rest, rfl, -⟩ | ⟨rest, rfl, -⟩ <;> exact List.cons_ne_nil _ _

/-- Settles O34: the table holds the paths of the tree's leaves, and below an internal root no path is empty. -/
theorem codesArePrefixFree : Obligations.CodesArePrefixFree := by
  intro s tr hinv hs hv ht
  have hc := hinv.holdsCodes hs hv ht
  obtain ⟨l, r, rfl⟩ := hinv.tree.root_internal hs ht
  have hpos : ∀ sym ∈ (CodeTree.node l r).leaves, 1 ≤ (s.codeLenOf sym).toNat := fun sym hsym => by
    obtain ⟨bits, hbits⟩ := CodeTree.mem_leaves_iff.1 hsym
    rw [hc.codeLenOf_eq hbits]
    exact List.length_pos_of_ne_nil (CodeTree.codes_node_ne_nil hbits)
  refine ⟨fun sym => ⟨fun hsym hzero => ?_, fun hlen => ?_⟩, fun sym hsym => ?_, fun a ha b hb hne => ?_⟩
  · have := hpos sym hsym
    simp [hzero] at this
  · by_contra hsym
    exact hlen (hc.2 sym hsym).1
  · rw [s.codeOf_length]
    exact ⟨hpos sym hsym, Nat.le_of_lt_succ (s.codeLenOf sym).isLt⟩
  · obtain ⟨u, hu⟩ := CodeTree.mem_leaves_iff.1 ha
    obtain ⟨v, hv⟩ := CodeTree.mem_leaves_iff.1 hb
    rw [hc.codeOf_eq hu, hc.codeOf_eq hv]
    exact CodeTree.codes_prefixFree _ hu hv hne

/-- The tree alone determines the codes (spec R152). -/
theorem exec_gencodes_congr {s s' t t' : State} (hs : s.treeState ≠ .invalid) (ha : s.arena = s'.arena)
    (hr : s.root = s'.root) (hst : s.treeState = s'.treeState) (h : exec .gencodes s = .next t)
    (h' : exec .gencodes s' = .next t') : t.codeLen = t'.codeLen ∧ t.codeBits = t'.codeBits := by
  rcases State.exec_gencodes_cases h with ⟨hinv, -⟩ | ⟨hempty, rfl⟩ | ⟨htree, tr, htr, rfl⟩
  · exact absurd hinv hs
  · cases (State.exec_gencodes_empty (hst ▸ hempty)).symm.trans h'
    exact ⟨rfl, rfl⟩
  · have htree' : s'.hasTree := by rwa [State.hasTree, ← hst]
    have htr' : s'.tree? = some tr := by rwa [State.tree?, ← ha, ← hr]
    cases (runCommand_ok (gencodesBody_tree htree' htr')).symm.trans h'
    exact State.setCodes_congr (s := s.withoutCodes) (s' := s'.withoutCodes) rfl rfl 0 0 tr.codes

/-- Settles O32: the merges start from leaves that the table fixes, and GENCODES reads nothing but the tree. -/
theorem frequenciesDetermineTreeAndCodes : Obligations.FrequenciesDetermineTreeAndCodes := by
  refine ⟨fun s s' t t' hfreq hw h h' => ?_, fun s s' t t' => exec_gencodes_congr⟩
  by_cases hne : s.presentSymbols = []
  · have hne' : s'.presentSymbols = [] := by rwa [State.presentSymbols, ← hfreq]
    cases (State.exec_build_empty hne).symm.trans h
    cases (State.exec_build_empty hne').symm.trans h'
    exact ⟨rfl, rfl, rfl⟩
  · obtain ⟨k, arena, ts, hexec, -⟩ := State.exec_build hw hne
    cases (hexec s rfl).symm.trans h
    cases (hexec s' hfreq.symm).symm.trans h'
    exact ⟨rfl, rfl, rfl⟩

/-- Settles O54: BUILD raises, or ends EMPTY or BUILT, and GENCODES raises, or leaves an empty table or a tree's codes. -/
theorem treeCommandsFrame : Obligations.TreeCommandsFrame := by
  refine ⟨fun s t h => ?_, fun s t h => ?_⟩
  · by_cases hw : s.totalWeight ≤ Config.wMax
    · by_cases hne : s.presentSymbols = []
      · cases (State.exec_build_empty hne).symm.trans h
        rfl
      · obtain ⟨k, arena, ts, hexec, -⟩ := State.exec_build hw hne
        cases (hexec s rfl).symm.trans h
        rfl
    · cases (buildOverflow s (Nat.not_le.1 hw)).symm.trans h
      rfl
  · rcases State.exec_gencodes_cases h with ⟨-, rfl⟩ | ⟨-, rfl⟩ | ⟨-, tr, -, rfl⟩
    · rfl
    · rfl
    · rw [State.setCodes_frame]
      rfl

end Sys2Proof.Machine
end

section
/-! PROOFS. The sibling property of a built tree: in the arena that the greedy merges leave, of two entries the one with
the smaller key never stands higher, so a strictly more frequent symbol never has a longer code (spec R143, R144, R153). -/

namespace Sys2Proof.Machine

/-! ### Keys and children in numbers -/

/-- The weight of entry `i`; 0 where the arena has none. -/
def weightAt (arena : List Node) (i : Nat) : Nat := (arena[i]?.map fun n => n.weight.toNat).getD 0

theorem weightAt_eq {arena : List Node} {i : Nat} {n : Node} (h : arena[i]? = some n) : weightAt arena i = n.weight.toNat := by
  simp [weightAt, h]

/-- Entry `i` comes before entry `j` in the key order, or is entry `j` (spec R143). -/
def keyLe (arena : List Node) (i j : Nat) : Prop :=
  weightAt arena i < weightAt arena j ∨ (weightAt arena i = weightAt arena j ∧ i ≤ j)

theorem keyBefore.weight {arena : List Node} {i j : Nat} (h : keyBefore arena i j) :
    weightAt arena i < weightAt arena j ∨ (weightAt arena i = weightAt arena j ∧ i < j) := by
  obtain ⟨a, b, ha, hb, hab⟩ := h
  rw [weightAt_eq ha, weightAt_eq hb]
  exact hab.imp_right fun ⟨hw, hij⟩ => ⟨congrArg BitVec.toNat hw, hij⟩

/-- The internal node `z` has entry `i` as a child; `m` is the number of leaves. -/
def isChild (arena : List Node) (m z i : Nat) : Prop :=
  m ≤ z ∧ ∃ n, arena[z]? = some n ∧ n.leaf = false ∧ (n.left.toNat = i ∨ n.right.toNat = i)

theorem isChild.lt_length {arena : List Node} {m z i : Nat} (h : isChild arena m z i) : z < arena.length := by
  obtain ⟨-, n, hn, -⟩ := h
  exact (List.getElem?_eq_some_iff.1 hn).1

theorem waiting.not_isChild {arena : List Node} {m z k i : Nat} (h : waiting arena m z i) (hk : k < z) :
    ¬ isChild arena m k i := by
  rintro ⟨hm, n, hn, -, hi⟩
  obtain ⟨hl, hr⟩ := h.2 k n hm hk hn
  exact hi.elim hl hr

/-- What waits for a later merge waits for an earlier one, where it was made before that. -/
theorem waiting.earlier {arena : List Node} {m z k i : Nat} (h : waiting arena m z i) (hk : k ≤ z) (hi : i < k) :
    waiting arena m k i :=
  ⟨hi, fun j n hm hj => h.2 j n hm (hj.trans_le hk)⟩

section Greedy

variable {arena : List Node} {m : Nat} (h : ∀ z, m ≤ z → z < arena.length → mergesSmallest arena m z)
include h

/-- The two children of a greedy merge, in numbers (spec R143, R144, R148). -/
theorem greedy_children {z : Nat} (hm : m ≤ z) (hz : z < arena.length) :
    ∃ l r, (∀ i, isChild arena m z i ↔ i = l ∨ i = r) ∧ waiting arena m z l ∧ waiting arena m z r ∧
      weightAt arena z = weightAt arena l + weightAt arena r ∧ keyLe arena l r ∧
      ∀ i, waiting arena m z i → i ≠ l → i ≠ r → keyBefore arena r i := by
  obtain ⟨n, x, y, hn, hx, hy, hleaf, -, hsum, hl, hr, hlr, hleast⟩ := h z hm hz
  refine ⟨n.left.toNat, n.right.toNat, fun i => ⟨?_, fun hi => ?_⟩, hl, hr, ?_, ?_, hleast⟩
  · rintro ⟨-, n', hn', -, hi⟩
    obtain rfl := Option.some.inj (hn.symm.trans hn')
    exact hi.imp Eq.symm Eq.symm
  · exact ⟨hm, n, hn, hleaf, hi.imp Eq.symm Eq.symm⟩
  · rw [weightAt_eq hn, weightAt_eq hx, weightAt_eq hy, hsum]
  · exact hlr.weight.imp_right fun ⟨hw, hi⟩ => ⟨hw, hi.le⟩

/-- A child waits for its parent, which weighs no less (spec R144, R148). -/
theorem isChild.waiting_weight {z i : Nat} (hc : isChild arena m z i) :
    waiting arena m z i ∧ weightAt arena i ≤ weightAt arena z := by
  obtain ⟨l, r, hlr, hl, hr, hsum, -⟩ := greedy_children h hc.1 hc.lt_length
  rcases (hlr i).1 hc with rfl | rfl
  · exact ⟨hl, by omega⟩
  · exact ⟨hr, by omega⟩

/-- The next merge makes no lighter entry: its children waited beside the children of this one, or are this entry. -/
theorem weightAt_le_succ {z : Nat} (hm : m ≤ z) (hz : z + 1 < arena.length) :
    weightAt arena z ≤ weightAt arena (z + 1) := by
  obtain ⟨l, r, hlr, -, -, hsum, hle, hleast⟩ := greedy_children h hm (Nat.lt_of_succ_lt hz)
  obtain ⟨l', r', -, hl', hr', hsum', -⟩ := greedy_children h (z := z + 1) (Nat.le_succ_of_le hm) hz
  have hge : ∀ c, waiting arena m (z + 1) c → weightAt arena r ≤ weightAt arena c := fun c hc => by
    rcases Nat.lt_succ_iff_lt_or_eq.1 hc.1 with hcz | rfl
    · have hnot := hc.not_isChild (Nat.lt_succ_self z)
      rw [hlr, not_or] at hnot
      have := (hleast c (hc.earlier (Nat.le_succ z) hcz) hnot.1 hnot.2).weight
      omega
    · omega
  have := hge l' hl'
  have := hge r' hr'
  rw [keyLe] at hle
  omega

theorem weightAt_mono {z z' : Nat} (hm : m ≤ z) (hzz : z ≤ z') (hz : z' < arena.length) :
    weightAt arena z ≤ weightAt arena z' := by
  induction z', hzz using Nat.le_induction with
  | base => exact Nat.le_refl _
  | succ k hk ih => exact (ih (Nat.lt_of_succ_lt hz)).trans (weightAt_le_succ h (hm.trans hk) hz)

/-- Parents come in the order of their children's keys: at the earlier merge no child of the later one came first. -/
theorem parent_le_parent {zi zj i j : Nat} (hi : isChild arena m zi i) (hj : isChild arena m zj j)
    (hij : keyLe arena i j) : zi ≤ zj := by
  by_contra hlt
  rw [Nat.not_le] at hlt
  rw [keyLe] at hij
  have hwait := (hi.waiting_weight h).1
  obtain ⟨hjwait, hjz⟩ := hj.waiting_weight h
  rcases Nat.lt_or_ge i zj with hizj | hizj
  · obtain ⟨l, r, hlr, -, -, -, hle, hleast⟩ := greedy_children h hj.1 hj.lt_length
    have hnot := hwait.not_isChild hlt
    rw [hlr, not_or] at hnot
    have hri := (hleast i (hwait.earlier hlt.le hizj) hnot.1 hnot.2).weight
    rw [keyLe] at hle
    rcases (hlr j).1 hj with rfl | rfl <;> omega
  · have := weightAt_mono h hj.1 hizj (hwait.1.trans hi.lt_length)
    have := hjwait.1
    omega

/-- Entry `i` stands `d` levels below entry `root`. -/
inductive AtDepth (arena : List Node) (m root : Nat) : Nat → Nat → Prop where
  | root : AtDepth arena m root root 0
  | child {z i d : Nat} (hz : AtDepth arena m root z d) (hi : isChild arena m z i) : AtDepth arena m root i (d + 1)

/-- Of two entries below the last one, the one with the smaller key does not stand higher (spec R153). -/
theorem depth_antitone {root u v du dv : Nat} (hroot : root + 1 = arena.length) (hv : AtDepth arena m root v dv)
    (hu : AtDepth arena m root u du) (huv : keyLe arena u v) : dv ≤ du := by
  induction hv generalizing u du with
  | root => exact Nat.zero_le _
  | @child z v d hz hv ih =>
    cases hu with
    | root =>
      obtain ⟨hwait, hle⟩ := hv.waiting_weight h
      have hz' := hv.lt_length
      have := weightAt_mono h hv.1 (show z ≤ root by omega) (by omega)
      have := hwait.1
      rw [keyLe] at huv
      omega
    | @child z' _ d' hz' hu =>
      have hzz := parent_le_parent h hu hv huv
      have := weightAt_mono h hu.1 hzz hv.lt_length
      exact Nat.succ_le_succ (ih hz' (by rw [keyLe]; omega))

end Greedy

/-! ### Depth and code length -/

/-- Beside the one key that is left every entry was taken by a merge (spec R144, R145). -/
theorem Merged.exists_parent {leaves : List (Byte × Word)} {arena : List Node} {k : Key} (h : Merged leaves arena [k])
    {i : Nat} (hi : i < arena.length) (hik : i ≠ k.idx.toNat) : ∃ z, isChild arena leaves.length z i := by
  by_contra hno
  have hwait : waiting arena leaves.length arena.length i := by
    refine ⟨hi, fun z n hm hz hzn => ?_⟩
    have hleaf : n.leaf = false := by simpa using mt (h.leaf_iff hzn).1 (Nat.not_lt.2 hm)
    exact ⟨fun hl => hno ⟨z, hm, n, hzn, hleaf, .inl hl⟩, fun hr => hno ⟨z, hm, n, hzn, hleaf, .inr hr⟩⟩
  exact hik (by simpa using (h.keys i).2 hwait)

/-- Every entry is below the one key that is left: parents come later in the arena, up to the last entry (spec R145). -/
theorem Merged.atDepth {leaves : List (Byte × Word)} {arena : List Node} {k : Key} (h : Merged leaves arena [k])
    {i : Nat} (hi : i < arena.length) : ∃ d, AtDepth arena leaves.length k.idx.toNat i d := by
  induction hn : arena.length - i using Nat.strong_induction_on generalizing i with
  | _ n ih =>
    by_cases hik : i = k.idx.toNat
    · exact ⟨0, hik ▸ .root⟩
    · obtain ⟨z, hz⟩ := h.exists_parent hi hik
      have hiz := (hz.waiting_weight h.merges).1.1
      have hzlen := hz.lt_length
      obtain ⟨d, hd⟩ := ih (arena.length - z) (by omega) hzlen rfl
      exact ⟨d + 1, .child hd hz⟩

/-- Below entry `root` there is a tree wherever an entry stands, and the way to it starts every code of that tree
(spec R150). -/
theorem AtDepth.path {arena : List Node} {m f i d : Nat} {root : NodeIdx} {t : CodeTree} (ht : treeAt arena f root = some t)
    (h : AtDepth arena m root.toNat i d) :
    ∃ (path : List Bool) (g : Nat) (j : NodeIdx) (t' : CodeTree), path.length = d ∧ j.toNat = i ∧
      treeAt arena g j = some t' ∧ ∀ p ∈ t'.codes, (p.1, path ++ p.2) ∈ t.codes := by
  induction h with
  | root => exact ⟨[], f, root, t, rfl, rfl, ht, fun p hp => hp⟩
  | child _ hi ih =>
    obtain ⟨path, g, j, t', rfl, rfl, ht', hcodes⟩ := ih
    obtain ⟨-, n, hn, hleaf, hside⟩ := hi
    obtain ⟨g, n', rfl, hn', hnode⟩ := treeAt_cases ht'
    obtain rfl := Option.some.inj (hn.symm.trans hn')
    rcases hnode with ⟨hl, -⟩ | ⟨-, l, r, hl, hr, rfl⟩
    · cases hleaf.symm.trans hl
    · rcases hside with rfl | rfl
      · refine ⟨path ++ [false], g, n.left, l, by simp, rfl, hl, fun p hp => ?_⟩
        rw [List.append_assoc]
        exact hcodes (p.1, false :: p.2) (CodeTree.mem_codes_node.2 (.inl ⟨p.2, rfl, hp⟩))
      · refine ⟨path ++ [true], g, n.right, r, by simp, rfl, hr, fun p hp => ?_⟩
        rw [List.append_assoc]
        exact hcodes (p.1, true :: p.2) (CodeTree.mem_codes_node.2 (.inr ⟨p.2, rfl, hp⟩))

/-- A leaf's symbol has a code as long as the leaf is deep (spec R149). -/
theorem AtDepth.leaf_code {arena : List Node} {m f i d : Nat} {root : NodeIdx} {t : CodeTree} {n : Node}
    (ht : treeAt arena f root = some t) (h : AtDepth arena m root.toNat i d) (hn : arena[i]? = some n) (hl : n.leaf = true) :
    ∃ bits, (n.sym, bits) ∈ t.codes ∧ bits.length = d := by
  obtain ⟨path, g, j, t', hlen, rfl, ht', hcodes⟩ := h.path ht
  obtain ⟨g, n', rfl, hn', hnode⟩ := treeAt_cases ht'
  obtain rfl := Option.some.inj (hn.symm.trans hn')
  rcases hnode with ⟨-, rfl⟩ | ⟨hl', -⟩
  · exact ⟨path, by simpa [CodeTree.codes] using hcodes, hlen⟩
  · cases hl.symm.trans hl'

/-- The forest of one key is one tree over the whole arena (spec R145). -/
theorem Forest.tree {arena : List Node} {k : Key} {ts : List CodeTree} (h : Forest arena [k] ts) :
    ∃ t, treeAt arena Config.maxNodes k.idx = some t ∧ t.leaves.Nodup ∧ t.size ≤ Config.maxNodes := by
  obtain ⟨t, ts', ⟨ht, -⟩, hts, rfl⟩ := List.forall₂_cons_left_iff.1 h.roots
  obtain rfl := List.forall₂_nil_left_iff.1 hts
  have hlen : arena.length ≤ Config.maxNodes := Nat.le_of_succ_le_succ h.room
  refine ⟨t, by simpa using treeAt_mono (more := []) ht hlen, by simpa using h.nodup, ?_⟩
  simpa [← h.size] using hlen

/-- After BUILD and GENCODES a present symbol has a code as long as one of its leaves is deep (spec R141, R149). -/
theorem Merged.codeLen {s u : State} {arena : List Node} {k : Key} {t : CodeTree}
    (hm : Merged (withPlaceholder s.presentSymbols) arena [k]) (ht : treeAt arena Config.maxNodes k.idx = some t)
    (hu : u.HoldsCodes t) {sym : Byte} (hsym : s.freqOf sym ≠ 0) :
    ∃ i, weightAt arena i = (s.freqOf sym).toNat ∧
      AtDepth arena (withPlaceholder s.presentSymbols).length k.idx.toNat i (u.codeLenOf sym).toNat := by
  obtain ⟨i, hi⟩ := List.getElem?_of_mem (State.mem_presentSymbols (p := (sym, s.freqOf sym)).2 ⟨rfl, hsym⟩)
  have hn := hm.leaf i _ (withPlaceholder_getElem? hi)
  obtain ⟨d, hd⟩ := hm.atDepth (List.getElem?_eq_some_iff.1 hn).1
  obtain ⟨bits, hbits, rfl⟩ := hd.leaf_code ht hn rfl
  exact ⟨i, weightAt_eq hn, hu.codeLenOf_eq hbits ▸ hd⟩

/-- Settles O35: of two present symbols the more frequent one's leaf has the larger key, so it is not the deeper. -/
theorem frequentSymbolsHaveShortCodes : Obligations.FrequentSymbolsHaveShortCodes := by
  intro s hw
  by_cases hne : s.presentSymbols = []
  · refine ⟨_, _, State.exec_build_empty hne, State.exec_gencodes_empty rfl, fun a b hb _ => ?_⟩
    have hfreq : ∃ sym, s.freqOf sym ≠ 0 := ⟨b, fun hz => by simp [hz] at hb⟩
    exact absurd hne (State.presentSymbols_ne_nil_iff.2 hfreq)
  · obtain ⟨k, arena, ts, hexec, hf, hm⟩ := State.exec_build hw hne
    obtain ⟨t, ht, hd, hsize⟩ := hf.tree
    obtain ⟨u, hgen, -, hu⟩ := State.exec_gencodes_tree (s := s.built arena k.idx) (.inl rfl) ht hd hsize
    refine ⟨_, u, hexec s rfl, hgen, fun a b hb hab => ?_⟩
    obtain ⟨i, hwi, hi⟩ := hm.codeLen ht hu (sym := a) fun hz => by simp [hz] at hab
    obtain ⟨j, hwj, hj⟩ := hm.codeLen ht hu (sym := b) fun hz => by simp [hz] at hb
    exact depth_antitone hm.merges (hf.last k rfl) hi hj (.inl (by rw [hwi, hwj]; exact hab))

end Sys2Proof.Machine
end

section
/-! PROOFS. The commands that only write to the output: SERIALIZE as a sequence of whole writes, PUTLEN, and the frame of
both and of FLUSH (spec R79 to R83, R160 to R162, R167, R182). -/

namespace Sys2Proof.Machine

/-! ### Whole writes -/

/-- One write of the serializer: all of its bits, or OUT_FULL before the first (spec R80, R81). -/
def writeItem (item : List Bool) : Run Unit := fun s =>
  if s.outRoom item.length then .ok () (s.emit item) else .error (.raise .outFull s.obitpos) s

/-- The writes of a serialized tree, in order (spec R161). -/
def writeItems : List (List Bool) → Run Unit
  | [] => pure ()
  | item :: items => do
    writeItem item
    writeItems items

theorem writeItem_ok {item : List Bool} {s : State} (h : s.obitpos.toNat + item.length ≤ 8 * s.obufBytes) :
    writeItem item s = .ok () (s.emit item) := if_pos (decide_eq_true h)

theorem writeItem_full {item : List Bool} {s : State} (h : 8 * s.obufBytes < s.obitpos.toNat + item.length) :
    writeItem item s = .error (.raise .outFull s.obitpos) s := if_neg (by simpa [State.outRoom] using h)

/-- `WriteBit` is a write of one bit (spec R80). -/
theorem writeBit_eq_writeItem (b : Bool) : writeBit b = writeItem [b] := by
  funext s
  by_cases h : s.obitpos.toNat + 1 ≤ 8 * s.obufBytes
  · exact (writeBit_ok b s h).trans (writeItem_ok (item := [b]) h).symm
  · exact (writeBit_full b s (by omega)).trans (writeItem_full (item := [b]) (Nat.not_le.1 h)).symm

/-- `WriteWord8` is a write of eight bits (spec R81). -/
theorem writeWord8_eq_writeItem (v : Byte) : writeWord8 v = writeItem (bitsOf v 8) := by
  funext s
  by_cases h : s.obitpos.toNat + 8 ≤ 8 * s.obufBytes
  · exact (writeWord8_ok v s h).trans (writeItem_ok (by simpa using h)).symm
  · exact (writeWord8_full v s (by omega)).trans (writeItem_full (by simpa using h)).symm

theorem writeItems_append (a b : List (List Bool)) :
    writeItems (a ++ b) = writeItems a >>= fun _ => writeItems b := by
  induction a with
  | nil => rfl
  | cons item a ih => simp only [List.cons_append, writeItems, ih, bind_assoc]

/-- A leaf is two writes, its node bit and its symbol (spec R161). -/
theorem writeLeaf_eq_writeItems (sym : Byte) : writeLeaf sym = writeItems [[true], bitsOf sym 8] := by
  simp [writeLeaf, writeBit_eq_writeItem, writeWord8_eq_writeItem, writeItems]

/-- With room for all of them, the writes produce their bits (spec R80, R81). -/
theorem writeItems_ok {items : List (List Bool)} {s : State}
    (h : s.obitpos.toNat + items.flatten.length ≤ 8 * s.obufBytes) :
    writeItems items s = .ok () (s.emit items.flatten) := by
  induction items generalizing s with
  | nil => rfl
  | cons item items ih =>
    rw [List.flatten_cons, List.length_append] at h
    have hle := s.emit_obitpos_le item
    rw [writeItems, Run.bind_ok (writeItem_ok (by omega)), ih (by rw [State.emit_obufBytes]; omega), List.flatten_cons,
      State.emit_append]

/-- Without room for all of them, there is a first write that does not fit, and those before it are made (spec R80, R81). -/
theorem writeItems_full {items : List (List Bool)} {s : State} (hs : s.obufBytes ≤ Config.maxBufBytes)
    (hin : s.obitpos.toNat ≤ 8 * s.obufBytes) (h : 8 * s.obufBytes < s.obitpos.toNat + items.flatten.length) :
    ∃ before item after, items = before ++ item :: after ∧
      s.obitpos.toNat + before.flatten.length ≤ 8 * s.obufBytes ∧
      8 * s.obufBytes < s.obitpos.toNat + before.flatten.length + item.length ∧
      writeItems items s =
        .error (.raise .outFull (BitVec.ofNat 32 (s.obitpos.toNat + before.flatten.length))) (s.emit before.flatten) := by
  induction items generalizing s with
  | nil => exact absurd h (Nat.not_lt.2 hin)
  | cons item items ih =>
    by_cases hfit : s.obitpos.toNat + item.length ≤ 8 * s.obufBytes
    · have hmax : Config.maxBufBytes = 2 ^ 28 := rfl
      have hcur : (s.emit item).obitpos.toNat = s.obitpos.toNat + item.length := State.emit_obitpos_toNat (by omega)
      rw [List.flatten_cons, List.length_append] at h
      obtain ⟨before, next, after, rfl, hbefore, hnext, hrun⟩ := ih (s := s.emit item) (by simpa using hs)
        (by rw [hcur, State.emit_obufBytes]; exact hfit) (by rw [hcur, State.emit_obufBytes]; omega)
      rw [hcur, State.emit_obufBytes] at hbefore hnext
      refine ⟨item :: before, next, after, rfl, ?_⟩
      rw [writeItems, Run.bind_ok (writeItem_ok hfit), hrun, hcur, List.flatten_cons, List.length_append,
        State.emit_append, ← Nat.add_assoc]
      exact ⟨hbefore, hnext, rfl⟩
    · refine ⟨[], item, items, rfl, hin, Nat.not_le.1 hfit, ?_⟩
      rw [writeItems, Run.bind_error (writeItem_full (Nat.not_le.1 hfit))]
      simp

/-! ### SERIALIZE -/

/-- Two bodies that run alike, and go on alike from where they end. -/
theorem Run.bind_congr {α β : Type} {m m' : Run α} {f f' : α → Run β} {s : State} (hm : m s = m' s)
    (hf : ∀ a t, m' s = .ok a t → f a t = f' a t) : (m >>= f) s = (m' >>= f') s := by
  cases h : m' s with
  | ok a t => rw [Run.bind_ok (hm.trans h), Run.bind_ok h, hf a t h]
  | error e t => rw [Run.bind_error (hm.trans h), Run.bind_error h]

theorem writeItem_arena {item : List Bool} {s t : State} (h : writeItem item s = .ok () t) : t.arena = s.arena := by
  unfold writeItem at h
  split at h
  · cases h
    exact s.emit_arena item
  · cases h

theorem writeItems_arena {items : List (List Bool)} {s t : State} (h : writeItems items s = .ok () t) :
    t.arena = s.arena := by
  induction items generalizing s with
  | nil =>
    cases h
    rfl
  | cons item items ih =>
    rw [writeItems] at h
    cases hitem : writeItem item s with
    | ok a u => exact (ih ((Run.bind_ok hitem).symm.trans h)).trans (writeItem_arena hitem)
    | error e u => cases (Run.bind_error hitem).symm.trans h

theorem CodeTree.items_node (l r : CodeTree) : (CodeTree.node l r).items = [false] :: (l.items ++ r.items) := by
  simp [CodeTree.items, CodeTree.nodes, nodeItems]

/-- `WriteNode` over a tree makes the tree's writes (spec R161). -/
theorem writeNode_eq_writeItems {f : Nat} {i : NodeIdx} {t : CodeTree} {s : State} (h : treeAt s.arena f i = some t) :
    writeNode f i s = writeItems t.items s := by
  induction f generalizing i t s with
  | zero => cases h
  | succ f ih =>
    obtain ⟨g, n, hf, hn, hc⟩ := treeAt_cases h
    obtain rfl : f = g := Nat.succ.inj hf
    rw [writeNode, Run.bind_ok (loadNode_ok i s n hn)]
    rcases hc with ⟨hleaf, rfl⟩ | ⟨hleaf, l, r, hl, hr, rfl⟩
    · rw [if_pos hleaf, writeLeaf_eq_writeItems]
      rfl
    · rw [if_neg (by simp [hleaf]), writeBit_eq_writeItem, CodeTree.items_node, writeItems, writeItems_append]
      refine Run.bind_congr rfl fun _ u hu => Run.bind_congr (ih ?_) fun _ v hv => ih ?_
      · rwa [writeItem_arena hu]
      · rwa [writeItems_arena hv, writeItem_arena hu]

/-- What SERIALIZE has to write: the items of the current tree, or the empty-tree marker (spec R161, R162). -/
def State.SerialForm (s : State) (items : List (List Bool)) : Prop :=
  (s.hasTree ∧ ∃ tr, s.tree? = some tr ∧ items = tr.items) ∨ (s.treeState = .empty ∧ items = markerItems)

/-- SERIALIZE makes the writes of what it has to write (spec R160 to R162). -/
theorem State.SerialForm.exec_eq {s : State} {items : List (List Bool)} (h : s.SerialForm items) :
    exec .serialize s = runCommand (writeItems items) s := by
  have hbody : (do requireTree 0x20; serializeBody : Run Unit) s = writeItems items s := by
    have hvalid : s.treeState ≠ .invalid := by
      rcases h with ⟨ht | ht, -⟩ | ⟨ht, -⟩ <;> simp [ht]
    have hreq : requireTree 0x20 s = .ok () s := if_pos (decide_eq_true hvalid)
    rw [Run.bind_ok hreq]
    simp only [serializeBody, Run.view_bind]
    rcases h with ⟨hs, tr, htr, rfl⟩ | ⟨hs, rfl⟩
    · rw [if_neg (by rcases hs with hs | hs <;> simp [hs])]
      exact writeNode_eq_writeItems htr
    · rw [if_pos hs, writeLeaf_eq_writeItems]
      rfl
  simp only [exec, execSerialize, runCommand, hbody]

/-- With room for all of it, SERIALIZE produces the serial form of the tree (spec R160 to R162). -/
theorem State.SerialForm.exec_ok {s : State} {items : List (List Bool)} (h : s.SerialForm items)
    (hroom : s.obitpos.toNat + items.flatten.length ≤ 8 * s.obufBytes) :
    exec .serialize s = .next { s.emit items.flatten with pend := none, done := true } :=
  h.exec_eq.trans (runCommand_ok (writeItems_ok hroom))

theorem State.serialForm_tree {s : State} {tr : CodeTree} (hs : s.hasTree) (ht : s.tree? = some tr) :
    s.SerialForm tr.items := .inl ⟨hs, tr, ht, rfl⟩

theorem State.serialForm_empty {s : State} (hs : s.treeState = .empty) : s.SerialForm markerItems := .inr ⟨hs, rfl⟩

/-- Settles O36: SERIALIZE makes the writes of its serial form, and with room they all succeed. -/
theorem serializeResult : Obligations.SerializeResult := by
  refine ⟨fun s tr hs ht hroom => ?_, fun s hs hroom => (State.serialForm_empty hs).exec_ok hroom⟩
  rw [← tr.items_flatten] at hroom ⊢
  exact (State.serialForm_tree hs ht).exec_ok hroom

/-- Settles O37: of the writes of the serial form there is a first that does not fit. -/
theorem serializeOutFull : Obligations.SerializeOutFull := by
  intro s items h hin hfull hmax
  obtain ⟨before, item, after, heq, hbefore, hitem, hrun⟩ := writeItems_full hmax hin hfull
  exact ⟨before, item, after, heq, hbefore, hitem, (State.SerialForm.exec_eq h).trans (runCommand_raise hrun)⟩

/-! ### PUTLEN -/

/-- Settles O42: PUTLEN is one write of 32 bits. -/
theorem putlenResult : Obligations.PutlenResult := fun s =>
  ⟨fun hroom => runCommand_ok (m := putlenBody) (writeInt32_ok s.len s hroom),
    fun hfull => runCommand_raise (m := putlenBody) (writeInt32_full s.len s hfull)⟩

/-! ### The frame of the output commands -/

/-- From `s` to `t` bits were produced, with a cursor that did not wrap; nothing else changed. -/
def State.Produced (s t : State) : Prop := ∃ bits, t = s.emit bits ∧ s.obitpos.toNat + bits.length < 2 ^ 32

theorem State.produced_refl (s : State) : s.Produced s := ⟨[], rfl, s.obitpos.isLt⟩

theorem State.Produced.trans (s t u : State) (h : s.Produced t) (h' : t.Produced u) : s.Produced u := by
  obtain ⟨a, rfl, ha⟩ := h
  obtain ⟨b, rfl, hb⟩ := h'
  rw [State.emit_obitpos_toNat ha] at hb
  exact ⟨a ++ b, (s.emit_append a b).symm, by rw [List.length_append]; omega⟩

/-- A body that produces bits and changes nothing else. -/
abbrev Run.WritesOutput (m : Run Unit) : Prop := Run.Sat State.SizesInv State.Produced (fun _ => True) m

/-- With room for a bit the cursor is far from wrapping (spec R6, R80). -/
theorem writeBit_writesOutput (b : Bool) : Run.WritesOutput (writeBit b) :=
  Run.Sat.writeBit State.produced_refl b (fun s hs hroom => by
    have hmax : s.obufBytes ≤ 2 ^ 28 := hs.2.2.2
    exact ⟨by simpa [State.SizesInv] using hs, [b], rfl, by rw [List.length_singleton]; omega⟩) fun _ => trivial

theorem serializeBody_writesOutput : Run.WritesOutput serializeBody := by
  refine .bind State.Produced.trans (.view State.produced_refl _) fun st =>
    .bind State.Produced.trans (.view State.produced_refl _) fun r => ?_
  split
  · exact .bind State.Produced.trans (writeBit_writesOutput true) fun _ =>
      .writeWord8 State.produced_refl State.Produced.trans writeBit_writesOutput (fun _ => trivial) _
  · exact .writeNode State.produced_refl State.Produced.trans writeBit_writesOutput (fun _ => trivial) trivial trivial _ _

/-- What a command changes whose body produces bits: the output stream and what every command does (spec R79, R80). -/
theorem Run.WritesOutput.frame {m : Run Unit} (hm : Run.WritesOutput m) {s t : State} (hs : s.SizesInv)
    (h : runCommand m s = .next t) :
    t = { s with
      obitpos := t.obitpos, oacc := t.oacc, obuf := t.obuf,
      err := t.err, errCode := t.errCode, errInfo := t.errInfo, pend := none, done := true } ∧
    s.obitpos.toNat ≤ t.obitpos.toNat ∧ storesOnlyOutput s t := by
  rcases hm.next hs h with ⟨u, -, ⟨bits, rfl, hlt⟩, rfl⟩ | ⟨e, info, u, -, ⟨bits, rfl, hlt⟩, -, rfl⟩
  all_goals
    refine ⟨?_, (Nat.le_add_right _ _).trans_eq (State.emit_obitpos_toNat hlt).symm, s.emit_stores bits hlt⟩
    rw [State.emit_frame]
    rfl

/-- Settles O55: the bodies of the three commands produce bits and change nothing else. -/
theorem outputCommandsFrame : Obligations.OutputCommandsFrame := by
  intro i hi s t hs h
  simp only [List.mem_cons, List.not_mem_nil, or_false] at hi
  rcases hi with rfl | rfl | rfl
  · exact Run.WritesOutput.frame (.bind State.Produced.trans (.require State.produced_refl _ _ _ trivial)
      fun _ => serializeBody_writesOutput) hs h
  · exact Run.WritesOutput.frame (.bind State.Produced.trans (.view State.produced_refl _) fun _ =>
      .writeInt32 State.produced_refl State.Produced.trans writeBit_writesOutput (fun _ => trivial) _) hs h
  · exact Run.WritesOutput.frame
      (.padLoop State.produced_refl State.Produced.trans (writeBit_writesOutput false) 7) hs h

end Sys2Proof.Machine
end

section
/-! PROOFS. The commands that only read the input: DESERIALIZE of a serialized tree, of a marker and of a malformed stream,
GETLEN, and the frame of both (spec R74 to R78, R163 to R166, R168). -/

namespace Sys2Proof.Machine

/-! ### Reading a tree -/

/-- Of 256 symbols, each at most once, a tree of at most 511 nodes can be made (spec R6, R14). -/
theorem CodeTree.size_le_maxNodes {t : CodeTree} (hd : t.leaves.Nodup) : t.size ≤ Config.maxNodes := by
  have hsize := t.size_eq
  have hleaves : t.leaves.length ≤ 256 := hd.length_le_card.trans_eq FinEnum.card_eq_fintypeCard.symm
  have hmax : Config.maxNodes = 511 := rfl
  omega

theorem deserializeBody_eq (s : State) :
    deserializeBody s = (readBit >>= fun b => if b then readMarker else readTree) s.dropTree := rfl

/-- After the node bit of an internal root, DESERIALIZE reads a tree (spec R163). -/
theorem deserializeBody_tree {s t : State} (h : readBit s.dropTree = .ok false t) : deserializeBody s = readTree t := by
  rw [deserializeBody_eq, Run.bind_ok h]
  rfl

/-- After a leaf's node bit at the root, DESERIALIZE reads a marker (spec R163, R165). -/
theorem deserializeBody_marker {s t : State} (h : readBit s.dropTree = .ok true t) : deserializeBody s = readMarker t := by
  rw [deserializeBody_eq, Run.bind_ok h]
  rfl

/-- The tree of an internal node that was read becomes the current tree (spec R163). -/
theorem readTree_ok {s t : State} {p : NodeIdx × List Byte} (h : readPair (readNode Config.maxNodes) [] s = .ok p t) :
    readTree s = .ok () { t with root := p.1, treeState := .loaded } := by
  rw [readTree_eq, Run.bind_ok h]
  rfl

/-- Settles O38: DESERIALIZE reads a tree with an internal root as `ReadNode` does, and makes it the current tree. -/
theorem deserializeResult : Obligations.DeserializeResult := by
  intro s l r hb hd hi
  have hsize := CodeTree.size_le_maxNodes hd
  have hbit : readBit s.dropTree = .ok false (s.dropTree.consume 1) :=
    readBit_ok s.dropTree false hb (State.hasInput_append (l := [false]) hb hi).1
  have hnode := readNode_ok (Config.maxNodes + 1) [] (.node l r) s.dropTree hb hi hd (fun _ _ => List.not_mem_nil)
    (by omega) (by simpa using hsize)
  rw [readNode_succ, Run.bind_ok hbit] at hnode
  exact runCommand_ok ((deserializeBody_tree hbit).trans (readTree_ok hnode))

/-! ### The empty-tree marker -/

/-- A leaf's bit and symbol, one after the other (spec R76, R77). -/
theorem State.hasInput_leaf {s : State} {x : Byte} (hb : s.inputInBuffer) (hi : s.hasInput (true :: bitsOf x 8)) :
    readBit s = .ok true (s.consume 1) ∧ readWord8 (s.consume 1) = .ok x (s.consume 9) := by
  obtain ⟨h1, h8⟩ := State.hasInput_append (l := [true]) hb hi
  have hlt := h1.lt hb
  exact ⟨readBit_ok s true hb h1,
    (readWord8_ok x (s.consume 1) hb h8).trans (congrArg _ (s.consume_consume 1 8 hlt))⟩

/-- Settles O39: a leaf's bit and symbol are read, and the symbol decides. -/
theorem deserializeMarker : Obligations.DeserializeMarker := by
  intro s v hb hi
  obtain ⟨hbit, hsym⟩ := State.hasInput_leaf (s := s.dropTree) hb hi
  have hbody : deserializeBody s = _ := (deserializeBody_marker hbit).trans (Run.bind_ok hsym)
  refine ⟨fun hv => ?_, fun hv => ?_⟩
  · rw [if_pos hv] at hbody
    exact runCommand_ok hbody
  · rw [if_neg hv, ← BitVec.ofNat_toNat] at hbody
    exact runCommand_raise hbody

/-! ### Malformed streams -/

/-- An input cursor that does not wrap advances by the number of bits consumed (spec R76, log entry 20). -/
theorem State.consume_ibitpos_toNat {s : State} {n : Nat} (h : s.ibitpos.toNat + n < 2 ^ 32) :
    (s.consume n).ibitpos.toNat = s.ibitpos.toNat + n := by
  rw [State.consume_ibitpos, BitVec.toNat_ofNat, Nat.mod_eq_of_lt h]

/-- `ReadNode` at the end of the input (spec R76, R163). -/
theorem readNode_end (f : Nat) (seen : List Byte) {s : State} (h : 8 * s.inLen.toNat < s.ibitpos.toNat + 1) :
    readNode (f + 1) seen s = .error (.raise .inExhausted s.ibitpos) s := Run.bind_error (readBit_end s h)

/-- `ReadNode` of a leaf whose symbol the input does not hold whole (spec R77, R163). -/
theorem readNode_leaf_end (f : Nat) (seen : List Byte) {s : State} (hb : s.inputInBuffer) (hi : s.hasInput [true])
    (h : 8 * s.inLen.toNat < s.ibitpos.toNat + 9) :
    readNode (f + 1) seen s = .error (.raise .inExhausted (s.consume 1).ibitpos) (s.consume 1) := by
  have hlt := hi.lt hb
  have hcur : (s.consume 1).ibitpos.toNat = s.ibitpos.toNat + 1 := State.consume_ibitpos_toNat hlt
  rw [readNode_succ, Run.bind_ok (readBit_ok s true hb hi), if_pos rfl]
  exact Run.bind_error (readWord8_end (s.consume 1) (by rw [hcur, State.consume_inLen]; omega))

/-- `ReadNode` of a leaf whose symbol is in SEEN (spec R164). -/
theorem readNode_leaf_dup (f : Nat) {seen : List Byte} {s : State} {x : Byte} (hb : s.inputInBuffer)
    (hi : s.hasInput (nodeBits (some x))) (hx : x ∈ seen) :
    readNode (f + 1) seen s = .error (.raise .dupSymbol (BitVec.ofNat 32 x.toNat)) (s.consume 9) := by
  obtain ⟨hbit, hsym⟩ := State.hasInput_leaf hb hi
  rw [readNode_succ, Run.bind_ok hbit, if_pos rfl, readLeaf, Run.bind_ok hsym, if_pos hx, BitVec.ofNat_toNat]
  rfl

/-- `ReadNode` of a node whose entry has no room, and whose symbol, at a leaf, is new (spec R34, R164). -/
theorem readNode_full (f : Nat) {seen : List Byte} {s : State} {n : Option Byte} (hb : s.inputInBuffer)
    (hi : s.hasInput (nodeBits n)) (hn : ∀ x, n = some x → x ∉ seen) (ha : s.arena.length = Config.maxNodes) :
    readNode (f + 1) seen s =
      .error (.raise .treeTooBig (s.consume (nodeBits n).length).ibitpos) (s.consume (nodeBits n).length) := by
  cases n with
  | none =>
    rw [readNode_succ, Run.bind_ok (readBit_ok s false hb hi)]
    exact Run.bind_error (alloc_full _ _ ha)
  | some x =>
    obtain ⟨hbit, hsym⟩ := State.hasInput_leaf hb hi
    rw [readNode_succ, Run.bind_ok hbit, if_pos rfl, readLeaf, Run.bind_ok hsym, if_neg (hn x rfl)]
    exact Run.bind_error (alloc_full _ _ ha)

/-- The machine inside a DESERIALIZE that has consumed `n` bits and allocated `arena` (spec R163). -/
def State.partRead (s : State) (n : Nat) (arena : List Node) : State := (s.dropTree.consume n).setArena arena

theorem State.partRead_consume {s : State} {n : Nat} (m : Nat) (arena : List Node) (h : s.ibitpos.toNat + n < 2 ^ 32) :
    (s.partRead n arena).consume m = s.partRead (n + m) arena :=
  congrArg (·.setArena arena) (s.dropTree.consume_consume n m h)

theorem State.partRead_hasInput {s : State} {n : Nat} (arena : List Node) {bits : List Bool}
    (h : (s.consume n).hasInput bits) : (s.partRead n arena).hasInput bits :=
  (State.hasInput_congr rfl rfl rfl bits).2 h

/-- The bits of one more node (spec R111). -/
theorem nodeBits_take_succ {ns : List (Option Byte)} {k : Nat} {n : Option Byte} (h : ns[k]? = some n) :
    (ns.take (k + 1)).flatMap nodeBits = (ns.take k).flatMap nodeBits ++ nodeBits n := by
  simp [List.take_add_one, h]

/-- DESERIALIZE fails where `ReadNode` of the same input does, unless the root is a leaf (spec R163, R165). -/
theorem deserializeBody_fails {s t : State} {e : Abort} (hroot : ∀ u, readBit s.dropTree ≠ .ok true u)
    (h : readNode (Config.maxNodes + 1) [] s.dropTree = .error e t) : deserializeBody s = .error e t := by
  cases hbit : readBit s.dropTree with
  | ok b u =>
    cases b with
    | true => exact absurd hbit (hroot u)
    | false => exact (deserializeBody_tree hbit).trans (readTree_fails hbit h)
  | error e' u =>
    rw [readNode_succ, Run.bind_error hbit] at h
    rw [deserializeBody_eq, Run.bind_error hbit]
    cases h
    rfl

section Malformed

variable {s : State} {tr : CodeTree} {k : Nat}

/-- The root of more than one node is internal (spec R111). -/
theorem readBit_root (hb : s.inputInBuffer) (hk : k < tr.nodes.length) (hpos : k ≠ 0)
    (hi : s.hasInput ((tr.nodes.take k).flatMap nodeBits)) : readBit s = .ok false (s.consume 1) := by
  obtain ⟨k, rfl⟩ := Nat.exists_eq_succ_of_ne_zero hpos
  cases tr with
  | leaf x => simp [CodeTree.nodes] at hk
  | node l r => exact readBit_ok s false hb (State.hasInput_append (l := [false]) hb hi).1

/-- Where `ReadNode` fails on node `k`, after the nodes before it were read, DESERIALIZE fails (spec R163, R166). -/
theorem deserialize_fails {n : Nat} {e : Err} {info : Word} (hb : s.inputInBuffer) (hk : k ≤ 511)
    (hsize : k < tr.nodes.length) (hd : (leafSymbols (tr.nodes.take k)).Nodup)
    (hi : k = 0 ∨ s.hasInput ((tr.nodes.take k).flatMap nodeBits))
    (hroot : k = 0 → ∀ u, readBit s.dropTree ≠ .ok true u)
    (h : ∀ f arena seen, arena.length = k → (∀ x, x ∈ seen ↔ x ∈ leafSymbols (tr.nodes.take k)) →
      readNode (f + 1) seen (s.partRead ((tr.nodes.take k).flatMap nodeBits).length arena) =
        .error (.raise e info) (s.partRead n arena)) :
    ∃ arena, arena.length = k ∧ exec .deserialize s = .next (s.failedRead n arena e.code info) := by
  have hmax : Config.maxNodes = 511 := rfl
  obtain ⟨arena, ha, hrun⟩ := readNode_fails (.raise e info) (s.partRead n) (Config.maxNodes + 1) [] tr k s.dropTree hb
    (by simpa using hsize) hd (fun _ _ => List.not_mem_nil) hi (by simpa [hmax] using hk) (by omega)
    fun f arena seen ha hseen => h f arena seen (by simpa using ha) (by simpa using hseen)
  have hroot' : ∀ u, readBit s.dropTree ≠ .ok true u := by
    rcases hi with rfl | hi
    · exact hroot rfl
    · by_cases hk0 : k = 0
      · exact hroot hk0
      · exact fun u hu => by cases (readBit_root (s := s.dropTree) hb hsize hk0 hi).symm.trans hu
  exact ⟨arena, by simpa using ha, runCommand_raise (deserializeBody_fails hroot' hrun)⟩

/-- A leaf whose symbol an earlier leaf had (spec R164). -/
theorem deserialize_dupSymbol {x : Byte} (hb : s.inputInBuffer) (hk : k ≤ 511) (hx : tr.nodes[k]? = some (some x))
    (hdup : x ∈ leafSymbols (tr.nodes.take k)) (hd : (leafSymbols (tr.nodes.take k)).Nodup)
    (hi : s.hasInput ((tr.nodes.take (k + 1)).flatMap nodeBits)) :
    ∃ arena, arena.length = k ∧ exec .deserialize s = .next
      (s.failedRead ((tr.nodes.take (k + 1)).flatMap nodeBits).length arena 0x09 (BitVec.ofNat 32 x.toNat)) := by
  have hpos : k ≠ 0 := by
    rintro rfl
    simp [leafSymbols] at hdup
  rw [nodeBits_take_succ hx] at hi ⊢
  obtain ⟨hbefore, hnode⟩ := State.hasInput_append hb hi
  refine deserialize_fails (e := .dupSymbol) hb hk (List.getElem?_eq_some_iff.1 hx).1 hd (.inr hbefore)
    (fun h => absurd h hpos) fun f arena seen _ hseen => ?_
  rw [readNode_leaf_dup (s := s.partRead _ arena) f hb (State.partRead_hasInput arena hnode) ((hseen x).2 hdup),
    State.partRead_consume 9 arena (hbefore.lt hb)]
  simp [nodeBits]

/-- A node too many (spec R34, R164, log entry 23). -/
theorem deserialize_treeTooBig {n : Option Byte} (hb : s.inputInBuffer) (hn : tr.nodes[511]? = some n)
    (hnew : ∀ x, n = some x → x ∉ leafSymbols (tr.nodes.take 511)) (hd : (leafSymbols (tr.nodes.take 511)).Nodup)
    (hi : s.hasInput ((tr.nodes.take (511 + 1)).flatMap nodeBits)) :
    ∃ arena, arena.length = 511 ∧ exec .deserialize s = .next
      (s.failedRead ((tr.nodes.take (511 + 1)).flatMap nodeBits).length arena 0x0A
        (BitVec.ofNat 32 (s.ibitpos.toNat + ((tr.nodes.take (511 + 1)).flatMap nodeBits).length))) := by
  rw [nodeBits_take_succ hn] at hi ⊢
  obtain ⟨hbefore, hnode⟩ := State.hasInput_append hb hi
  refine deserialize_fails (e := .treeTooBig) hb le_rfl (List.getElem?_eq_some_iff.1 hn).1 hd (.inr hbefore)
    (fun h => absurd h (by decide)) fun f arena seen ha hseen => ?_
  rw [readNode_full (s := s.partRead _ arena) f hb (State.partRead_hasInput arena hnode)
      (fun x hx hmem => hnew x hx ((hseen x).1 hmem)) ha,
    State.partRead_consume _ arena (hbefore.lt hb), List.length_append]
  rfl

/-- The input ends before a node bit (spec R76, R163). -/
theorem deserialize_endsAtNode (hb : s.inputInBuffer) (hk : k ≤ 511) (hsize : k < tr.nodes.length)
    (hd : (leafSymbols (tr.nodes.take k)).Nodup) (hi : k = 0 ∨ s.hasInput ((tr.nodes.take k).flatMap nodeBits))
    (hend : 8 * s.inLen.toNat < s.ibitpos.toNat + ((tr.nodes.take k).flatMap nodeBits).length + 1) :
    ∃ arena, arena.length = k ∧ exec .deserialize s = .next
      (s.failedRead ((tr.nodes.take k).flatMap nodeBits).length arena 0x06
        (BitVec.ofNat 32 (s.ibitpos.toNat + ((tr.nodes.take k).flatMap nodeBits).length))) := by
  have hlt : s.ibitpos.toNat + ((tr.nodes.take k).flatMap nodeBits).length < 2 ^ 32 := by
    rcases hi with rfl | hi
    · exact s.ibitpos.isLt
    · exact hi.lt hb
  refine deserialize_fails (e := .inExhausted) hb hk hsize hd hi ?_ fun f arena seen _ _ => readNode_end f seen ?_
  · rintro rfl u hu
    cases (readBit_end s.dropTree hend).symm.trans hu
  · exact hend.trans_eq (congrArg (· + 1) (State.consume_ibitpos_toNat hlt).symm)

/-- The input ends inside the symbol of a leaf, which at the root is the word of a marker (spec R77, R163, R165). -/
theorem deserialize_endsAtSymbol {x : Byte} (hb : s.inputInBuffer) (hk : k ≤ 511) (hx : tr.nodes[k]? = some (some x))
    (hd : (leafSymbols (tr.nodes.take k)).Nodup) (hi : s.hasInput ((tr.nodes.take k).flatMap nodeBits ++ [true]))
    (hend : 8 * s.inLen.toNat < s.ibitpos.toNat + ((tr.nodes.take k).flatMap nodeBits).length + 9) :
    ∃ arena, arena.length = k ∧ exec .deserialize s = .next
      (s.failedRead (((tr.nodes.take k).flatMap nodeBits).length + 1) arena 0x06
        (BitVec.ofNat 32 (s.ibitpos.toNat + ((tr.nodes.take k).flatMap nodeBits).length + 1))) := by
  obtain ⟨hbefore, hbit⟩ := State.hasInput_append hb hi
  have hlt := hbefore.lt hb
  by_cases hk0 : k = 0
  · subst hk0
    have hcur : (s.dropTree.consume 1).ibitpos.toNat = s.ibitpos.toNat + 1 := State.consume_ibitpos_toNat (hi.lt hb)
    have hroot := readBit_ok s.dropTree true hb hi
    have hsym := readWord8_end (s.dropTree.consume 1) (by rw [hcur]; exact hend)
    exact ⟨[], rfl, runCommand_raise ((deserializeBody_marker hroot).trans (Run.bind_error hsym))⟩
  · refine deserialize_fails (e := .inExhausted) hb hk (List.getElem?_eq_some_iff.1 hx).1 hd (.inr hbefore)
      (fun h => absurd h hk0) fun f arena seen _ _ => ?_
    have hcur : (s.partRead _ arena).ibitpos.toNat = _ := State.consume_ibitpos_toNat hlt
    rw [readNode_leaf_end (s := s.partRead _ arena) f seen hb (State.partRead_hasInput arena hbit)
      (by rw [hcur]; exact hend), State.partRead_consume 1 arena hlt]
    rfl

end Malformed

/-- Settles O40: each way a node cannot be taken makes `ReadNode` fail on it, and DESERIALIZE with it. -/
theorem deserializeMalformed : Obligations.DeserializeMalformed :=
  ⟨fun _ _ _ _ => deserialize_dupSymbol, fun _ _ _ => deserialize_treeTooBig, fun _ _ _ => deserialize_endsAtNode,
    fun _ _ _ _ => deserialize_endsAtSymbol⟩

/-! ### GETLEN -/

/-- Settles O43: GETLEN is one read of 32 bits. -/
theorem getlenResult : Obligations.GetlenResult := fun s v hb =>
  ⟨fun hi => runCommand_ok (m := getlenBody) (Run.bind_ok (readInt32_ok v s hb hi)),
    fun hend => runCommand_raise (m := getlenBody) (Run.bind_error (readInt32_end s hend))⟩

/-! ### The frame of the input commands -/

/-- What DESERIALIZE may end in where it raises nothing: entries were allocated, and ROOT and TREE_STATE written
(spec R163, R165). -/
def State.Deserialized (s t : State) : Prop :=
  ∃ new root treeState u, s.dropTree.Grown new u ∧ t = { u with root := root, treeState := treeState }

theorem readMarker_grows {s t : State} (h : s.dropTree.Grown [] t) :
    Run.Ends readMarker t (fun _ => s.Deserialized) s.dropTree.PartlyRead := by
  have hpart : ∀ u, s.dropTree.Grown [] u → s.dropTree.PartlyRead u := fun u hu =>
    State.partlyRead_of_grown hu (Nat.zero_le _)
  have hread : Run.Ends readWord8 t (fun _ u => s.dropTree.Grown [] u) s.dropTree.PartlyRead :=
    (Run.Sat.ends readWord8_readsInput trivial).mono (fun _ _ hu => h.trans hu.2) fun u hu => hpart u (h.trans hu.2)
  refine hread.bind fun x u hu => ?_
  split
  · exact .of_ok rfl ⟨[], u.root, .empty, u, hu, rfl⟩
  · exact .of_error rfl (hpart u hu)

theorem readTree_grows {s t : State} (h : s.dropTree.Grown [] t) :
    Run.Ends readTree t (fun _ => s.Deserialized) s.dropTree.PartlyRead := by
  have ha : t.arena = [] := h.arena
  rw [readTree_eq]
  refine ((readPair_ends (readNode_readsTrees _) [] t (by simp [ha])).mono_abort
    fun u hu => hu.after h (by simp)).bind ?_
  rintro p u ⟨l, r, hg, -⟩
  exact .of_ok rfl ⟨_, p.1, .loaded, u, h.trans hg, rfl⟩

/-- Whatever the input, DESERIALIZE drops the tree, reads and allocates, and ends with a tree or without (spec R163,
R166). -/
theorem deserializeBody_ends (s : State) :
    Run.Ends deserializeBody s (fun _ => s.Deserialized) s.dropTree.PartlyRead := by
  have hbody : Run.Ends (readBit >>= fun b => if b then readMarker else readTree) s.dropTree
      (fun _ => s.Deserialized) s.dropTree.PartlyRead :=
    (readBit_readsInput.ends s.dropTree (Nat.zero_le _)).bind fun b t ht => by
      split
      · exact readMarker_grows ht
      · exact readTree_grows ht
  exact hbody

/-- DESERIALIZE ends with a tree or without, or raises and leaves legal entries and no tree (spec R163, R166, R220). -/
theorem exec_deserialize_cases {s t : State} (h : exec .deserialize s = .next t) :
    (∃ u, s.Deserialized u ∧ t = u.complete) ∨
      ∃ e info u, s.dropTree.PartlyRead u ∧ t = (u.recordFault e info).complete := by
  rcases runCommand_next h with ⟨u, hu, rfl⟩ | ⟨e, info, u, hu, rfl⟩
  · exact .inl ⟨u, (deserializeBody_ends s).1 _ _ hu, rfl⟩
  · exact .inr ⟨e, info, u, (deserializeBody_ends s).2 _ _ hu, rfl⟩

/-- From `s` to `t` input was read and LEN written; nothing else changed. -/
def State.LenRead (s t : State) : Prop := ∃ v p d, t = { s with len := v, ibitpos := p, draws := d }

theorem readInt32_readsInput : Run.ReadsInput readInt32 :=
  Run.Sat.readInt32 State.grown_refl (fun _ _ _ h h' => h.trans h') readBit_readsInput fun _ => trivial

/-- Whatever the input, GETLEN reads it and writes LEN at most (spec R168). -/
theorem getlenBody_ends (s : State) : Run.Ends getlenBody s (fun _ => s.LenRead) s.LenRead := by
  have hread : ∀ v t, s.Grown [] t → s.LenRead { t with len := v } := by
    rintro v _ ⟨p, d, rfl⟩
    exact ⟨v, p, d, by simp⟩
  refine ((Run.Sat.ends readInt32_readsInput trivial).mono_abort fun t ht => ?_).bind fun v t ht =>
    .of_ok rfl (hread v t ht.2)
  obtain ⟨p, d, rfl⟩ := ht.2
  exact hread s.len _ ht.2

/-- Settles O41: an error of DESERIALIZE is one that this DESERIALIZE raised, and it leaves the tree dropped. -/
theorem deserializeFaultLeavesNoTree : Obligations.DeserializeFaultLeavesNoTree := by
  intro s t hs h ht
  rcases exec_deserialize_cases h with ⟨_, ⟨new, r, ts, u, ⟨p, d, rfl⟩, rfl⟩, rfl⟩ |
    ⟨e, info, u, ⟨new, ⟨p, d, rfl⟩, -, hlen⟩, rfl⟩
  · cases hs.symm.trans ht
  · exact ⟨rfl, rfl, rfl, hlen, rfl⟩

/-- Settles O56: DESERIALIZE drops the tree, reads and allocates; GETLEN reads and writes LEN. -/
theorem inputCommandsFrame : Obligations.InputCommandsFrame := by
  refine ⟨fun s t h => ?_, fun s t h => ?_⟩
  · rcases exec_deserialize_cases h with ⟨_, ⟨new, r, ts, u, ⟨p, d, rfl⟩, rfl⟩, rfl⟩ |
      ⟨e, info, u, ⟨new, ⟨p, d, rfl⟩, -⟩, rfl⟩
    · rfl
    · rfl
  · rcases runCommand_next h with ⟨u, hu, rfl⟩ | ⟨e, info, u, hu, rfl⟩
    · obtain ⟨v, p, d, rfl⟩ := (getlenBody_ends s).1 _ _ hu
      rfl
    · obtain ⟨v, p, d, rfl⟩ := (getlenBody_ends s).2 _ _ hu
      rfl

end Sys2Proof.Machine
end

section
/-! PROOFS. The round trip of a tree: SERIALIZE, then DESERIALIZE of the bits it wrote, on any machine (spec R169). -/

namespace Sys2Proof.Machine

/-- With room for its serial form SERIALIZE completes without an error, and its bits stand in the output from where the
cursor was (spec R79, R160). -/
theorem State.SerialForm.exec_lands {s : State} {items : List (List Bool)} (h : s.SerialForm items) (hs : s.SizesInv)
    (hroom : s.obitpos.toNat + items.flatten.length ≤ 8 * s.obufBytes) :
    ∃ t, exec .serialize s = .next t ∧ t.err = s.err ∧ t.obitpos.toNat = s.obitpos.toNat + items.flatten.length ∧
      ∀ j < items.flatten.length, t.outputBit? (s.obitpos.toNat + j) = items.flatten[j]? := by
  have hmax : s.obufBytes ≤ 2 ^ 28 := hs.2.2.2
  have hlt : s.obitpos.toNat + items.flatten.length < 2 ^ 32 := by omega
  exact ⟨_, h.exec_ok hroom, s.emit_err _, State.emit_obitpos_toNat hlt, fun j hj => s.emit_outputBit? _ hlt hj⟩

theorem State.Inv.inputInBuffer {s : State} (h : s.Inv) : s.inputInBuffer := ⟨h.cursor.1, h.sizes.2.1⟩

/-- GENCODES of one tree, wherever it stands, gives one code table (spec R152). -/
theorem exec_gencodes_same {s s' : State} {tr : CodeTree} (hs : s.hasTree) (hs' : s'.hasTree) (ht : s.tree? = some tr)
    (ht' : s'.tree? = some tr) :
    ∃ t t', exec .gencodes s = .next t ∧ exec .gencodes s' = .next t' ∧
      ∀ sym, t.codeLenOf sym = t'.codeLenOf sym ∧ t.codeBitsOf sym = t'.codeBitsOf sym := by
  obtain ⟨hlen, hbits⟩ := State.setCodes_congr (s := s.withoutCodes) (s' := s'.withoutCodes) rfl rfl 0 0 tr.codes
  refine ⟨_, _, runCommand_ok (gencodesBody_tree hs ht), runCommand_ok (gencodesBody_tree hs' ht'), fun sym => ?_⟩
  exact ⟨congrArg (·[sym.toNat]'sym.isLt) hlen, congrArg (·[sym.toNat]'sym.isLt) hbits⟩

/-- A tree laid out from index 0 is the tree that entry 0 names (spec R164). -/
theorem treeAt_layout_zero {t : CodeTree} (h : t.size ≤ Config.maxNodes) :
    treeAt (t.layout 0) Config.maxNodes 0 = some t := by
  simpa using treeAt_layout Config.maxNodes t [] [] h (by simpa using h)

/-- DESERIALIZE of the bits of a tree leaves that tree as the current one, LOADED (spec R164, R169). -/
theorem deserialize_loads {u : State} {l r : CodeTree} (hu : u.Inv) (hd : (CodeTree.node l r).leaves.Nodup)
    (hi : u.hasInput (CodeTree.node l r).preorder) :
    ∃ v, exec .deserialize u = .next v ∧ v.Inv ∧ v.err = u.err ∧
      v.ibitpos.toNat = u.ibitpos.toNat + (CodeTree.node l r).preorder.length ∧ v.treeState = .loaded ∧
      v.tree? = some (.node l r) ∧ v.arena = (CodeTree.node l r).layout 0 ∧ v.root = 0 := by
  have hexec := deserializeResult u l r hu.inputInBuffer hd hi
  exact ⟨_, hexec, hu.exec .deserialize hexec, rfl, State.consume_ibitpos_toNat (hi.lt hu.inputInBuffer), rfl,
    treeAt_layout_zero (CodeTree.size_le_maxNodes hd), rfl, rfl⟩

/-- Settles O51: the tree of a state that meets the invariant has an internal root and no symbol twice, so DESERIALIZE loads
it from its bits; what SERIALIZE and GENCODES make depends on that tree alone. -/
theorem treeRoundTrip : Obligations.TreeRoundTrip := by
  refine ⟨fun s tr hinv hs ht hroom => ?_, fun s hinv hs hroom => ?_⟩
  · obtain ⟨tr', ht', hd, -⟩ := hinv.tree.exists_tree hs
    obtain rfl := Option.some.inj (ht'.symm.trans ht)
    obtain ⟨l, r, rfl⟩ := hinv.tree.root_internal hs ht
    rw [← CodeTree.items_flatten] at hroom
    obtain ⟨t, hexec, herr, hcur, hbits⟩ := (State.serialForm_tree hs ht).exec_lands hinv.sizes hroom
    refine ⟨t, _, hexec, herr, hcur, hbits, fun u hu hi => ?_⟩
    rw [CodeTree.items_flatten] at hi
    obtain ⟨v, hv, hvinv, hverr, hvcur, hloaded, hvt, harena, hroot⟩ := deserialize_loads hu hd hi
    rw [← CodeTree.items_flatten] at hvcur
    exact ⟨v, hv, hverr, hvcur, hloaded, hvt, harena, hroot,
      fun hroom' => (State.serialForm_tree (.inr hloaded) hvt).exec_lands hvinv.sizes hroom',
      exec_gencodes_same hs (.inr hloaded) ht hvt⟩
  · obtain ⟨t, hexec, herr, hcur, hbits⟩ := (State.serialForm_empty hs).exec_lands hinv.sizes hroom
    refine ⟨t, _, hexec, herr, hcur, hbits, fun u hu hi => ?_⟩
    have hv := (deserializeMarker u 0x00 hu.inputInBuffer hi).1 rfl
    exact ⟨_, hv, rfl, State.consume_ibitpos_toNat (hi.lt hu.inputInBuffer), rfl, fun hroom' =>
      (State.serialForm_empty rfl).exec_lands (hu.exec .deserialize hv).sizes hroom'⟩

end Sys2Proof.Machine
end

section
/-! PROOFS. ENCSYMS and FLUSH: symbols read and codes written one after another, and the pad of the last byte (spec R77,
R80, R83, R180 to R182). -/

namespace Sys2Proof.Machine

/-! ### Both streams in one run -/

/-- An update that neither reads nor writes the three fields of the output stream (spec R31). -/
def State.KeepsOutput (f : State → State) : Prop :=
  ∀ (s : State) (q : Word) (acc : Byte) (mem : List Host.Cell),
    f { s with obitpos := q, oacc := acc, obuf := mem } = { f s with obitpos := q, oacc := acc, obuf := mem }

theorem State.KeepsOutput.emitBit {f : State → State} (h : State.KeepsOutput f) (s : State) (b : Bool) :
    (f s).emitBit b = f (s.emitBit b) := by
  have hself : f s = { f s with obitpos := s.obitpos, oacc := s.oacc, obuf := s.obuf } := h s s.obitpos s.oacc s.obuf
  rw [hself]
  unfold State.emitBit
  dsimp only
  split
  · exact (h s _ _ _).symm
  · exact (h s _ _ s.obuf).symm

/-- Such an update may as well come after the output as before it. -/
theorem State.KeepsOutput.emit {f : State → State} (h : State.KeepsOutput f) (s : State) (bits : List Bool) :
    (f s).emit bits = f (s.emit bits) := by
  induction bits generalizing s with
  | nil => rfl
  | cons b bits ih => rw [State.emit_cons, h.emitBit, ih, State.emit_cons]

/-- Consuming input and producing output do not touch each other's fields (spec R29, R31). -/
theorem State.consume_emit (s : State) (n : Nat) (bits : List Bool) : (s.consume n).emit bits = (s.emit bits).consume n :=
  State.KeepsOutput.emit (f := fun s => s.consume n) (fun _ _ _ _ => rfl) s bits

/-- One stretch of both streams after another. -/
theorem State.emit_consume_again {s : State} {m : Nat} (a b : List Bool) (n : Nat) (h : s.ibitpos.toNat + m < 2 ^ 32) :
    (((s.emit a).consume m).emit b).consume n = (s.emit (a ++ b)).consume (m + n) := by
  rw [State.consume_emit, State.consume_consume _ m n (by simpa using h), ← State.emit_append]

/-- Where the output fits in OBUF, its cursor does not wrap (spec R6, R31). -/
theorem State.emit_obitpos_of_room {s : State} {bits : List Bool} (hs : s.obufBytes ≤ Config.maxBufBytes)
    (h : s.obitpos.toNat + bits.length ≤ 8 * s.obufBytes) :
    (s.emit bits).obitpos.toNat = s.obitpos.toNat + bits.length := by
  have hmax : Config.maxBufBytes = 2 ^ 28 := rfl
  exact State.emit_obitpos_toNat (by omega)

/-- Output leaves the input as it is. -/
theorem State.hasInput_emit {s : State} (out : List Bool) (bits : List Bool) :
    (s.emit out).hasInput bits ↔ s.hasInput bits :=
  State.hasInput_congr (s.emit_ibuf out) (s.emit_inLen out) (s.emit_ibitpos out) bits

theorem State.hasInput_emit_consume {s : State} (out : List Bool) (n : Nat) (bits : List Bool) :
    ((s.emit out).consume n).hasInput bits ↔ (s.consume n).hasInput bits := by
  rw [← State.consume_emit]
  exact State.hasInput_emit out bits

theorem State.inputInBuffer_emit {s : State} (out : List Bool) : (s.emit out).inputInBuffer ↔ s.inputInBuffer := by
  rw [State.inputInBuffer, State.emit_inLen, State.emit_ibufBytes]

theorem State.inputInBuffer_emit_consume {s : State} (out : List Bool) (n : Nat) :
    ((s.emit out).consume n).inputInBuffer ↔ s.inputInBuffer := State.inputInBuffer_emit out

@[simp] theorem State.emit_codeLenOf (s : State) (bits : List Bool) (sym : Byte) :
    (s.emit bits).codeLenOf sym = s.codeLenOf sym := by
  simp [State.codeLenOf]

@[simp] theorem State.emit_codeOf (s : State) (bits : List Bool) (sym : Byte) :
    (s.emit bits).codeOf sym = s.codeOf sym := by
  simp [State.codeOf, State.codeBitsOf]

@[simp] theorem State.consume_codeLenOf (s : State) (n : Nat) (sym : Byte) :
    (s.consume n).codeLenOf sym = s.codeLenOf sym := rfl

@[simp] theorem State.consume_codeOf (s : State) (n : Nat) (sym : Byte) : (s.consume n).codeOf sym = s.codeOf sym := rfl

theorem State.codeBitsFor_congr {s t : State} {syms : List Byte} (h : ∀ sym, s.codeOf sym = t.codeOf sym) :
    s.codeBitsFor syms = t.codeBitsFor syms := congrArg syms.flatMap (funext h)

theorem State.codeBitsFor_append (s : State) (a b : List Byte) :
    s.codeBitsFor (a ++ b) = s.codeBitsFor a ++ s.codeBitsFor b := List.flatMap_append

theorem State.codeBitsFor_singleton (s : State) (x : Byte) : s.codeBitsFor [x] = s.codeOf x := List.flatMap_singleton ..

/-- A body run as many times in two goes. -/
theorem repeatRun_add (m n : Nat) (body : Run Unit) :
    repeatRun (m + n) body = repeatRun m body >>= fun _ => repeatRun n body := by
  induction m with
  | zero => simp [repeatRun]
  | succ m ih => rw [Nat.succ_add, repeatRun, ih, repeatRun, bind_assoc]

/-! ### One symbol -/

/-- Without room for all bits of a value, those that fit are written, up to the end of OBUF (spec R80). -/
theorem writeBits_full {w : Nat} (v : BitVec w) (n : Nat) (s : State) (hs : s.obufBytes ≤ Config.maxBufBytes)
    (hin : s.obitpos.toNat ≤ 8 * s.obufBytes) (h : 8 * s.obufBytes < s.obitpos.toNat + n) :
    writeBits v n s = .error (.raise .outFull (BitVec.ofNat 32 (8 * s.obufBytes)))
      (s.emit ((bitsOf v n).take (8 * s.obufBytes - s.obitpos.toNat))) := by
  have hmax : Config.maxBufBytes = 2 ^ 28 := rfl
  induction n generalizing s with
  | zero => omega
  | succ n ih =>
    rw [writeBits, bitsOf_succ]
    by_cases hroom : s.obitpos.toNat < 8 * s.obufBytes
    · have hcur := State.emitBit_obitpos_toNat_of_lt (s := s) (v.getLsbD n) (by omega)
      have hleft : 8 * s.obufBytes - s.obitpos.toNat = 8 * s.obufBytes - (s.obitpos.toNat + 1) + 1 := by omega
      rw [Run.bind_ok (writeBit_ok _ s hroom), ih (s.emitBit (v.getLsbD n)) (by simpa using hs)
        (by rw [hcur, State.emitBit_obufBytes]; omega) (by rw [hcur, State.emitBit_obufBytes]; omega), hcur,
        State.emitBit_obufBytes, hleft, List.take_succ_cons, State.emit_cons]
    · have hend : s.obitpos.toNat = 8 * s.obufBytes := by omega
      rw [Run.bind_error (writeBit_full _ s (by omega)), ← hend, Nat.sub_self, List.take_zero, State.emit_nil,
        BitVec.ofNat_toNat, BitVec.setWidth_eq]

/-- The symbol is read before its code is looked up (spec R180, R181). -/
theorem encodeSymbol_read {s : State} {x : Byte} (hb : s.inputInBuffer) (hi : s.hasInput (bitsOf x 8)) :
    encodeSymbol s =
      (if s.codeLenOf x = 0 then raise .noCode (x.setWidth 32)
        else writeBits (s.codeBitsOf x) (s.codeLenOf x).toNat : Run Unit) (s.consume 8) := by
  rw [encodeSymbol, Run.bind_ok (readWord8_ok x s hb hi)]
  rfl

/-- A symbol whose code fits (spec R180). -/
theorem encodeSymbol_ok {s : State} {x : Byte} (hb : s.inputInBuffer) (hi : s.hasInput (bitsOf x 8))
    (hx : s.codeLenOf x ≠ 0) (hroom : s.obitpos.toNat + (s.codeOf x).length ≤ 8 * s.obufBytes) :
    encodeSymbol s = .ok () ((s.emit (s.codeOf x)).consume 8) := by
  rw [s.codeOf_length] at hroom
  rw [encodeSymbol_read hb hi, if_neg hx, writeBits_ok _ _ (s.consume 8) hroom, State.consume_emit]
  rfl

/-- A symbol without a code (spec R181). -/
theorem encodeSymbol_noCode {s : State} {x : Byte} (hb : s.inputInBuffer) (hi : s.hasInput (bitsOf x 8))
    (hx : s.codeLenOf x = 0) :
    encodeSymbol s = .error (.raise .noCode (BitVec.ofNat 32 x.toNat)) ((s.emit []).consume 8) := by
  rw [encodeSymbol_read hb hi, if_pos hx, BitVec.ofNat_toNat]
  rfl

/-- A symbol whose code does not fit (spec R80, R180). -/
theorem encodeSymbol_full {s : State} {x : Byte} (hb : s.inputInBuffer) (hs : s.obufBytes ≤ Config.maxBufBytes)
    (hi : s.hasInput (bitsOf x 8)) (hx : s.codeLenOf x ≠ 0) (hin : s.obitpos.toNat ≤ 8 * s.obufBytes)
    (hfull : 8 * s.obufBytes < s.obitpos.toNat + (s.codeOf x).length) :
    encodeSymbol s = .error (.raise .outFull (BitVec.ofNat 32 (8 * s.obufBytes)))
      ((s.emit ((s.codeOf x).take (8 * s.obufBytes - s.obitpos.toNat))).consume 8) := by
  rw [s.codeOf_length] at hfull
  rw [encodeSymbol_read hb hi, if_neg hx, writeBits_full _ _ (s.consume 8) hs hin hfull, State.consume_emit]
  rfl

/-! ### A sequence of symbols -/

/-- A loop whose turn on `x` reads the bits `inp x` and writes the bits `out x`, wherever the two streams stand: it reads
and writes them one after another. `K` is what the turns need of the state; no movement of the streams ends it. -/
theorem repeatRun_streams {ι : Type} {body : Run Unit} {K : State → Prop} {inp out : ι → List Bool} {xs : List ι}
    (hmove : ∀ (t : State) (bits : List Bool) (n : Nat), K t → K ((t.emit bits).consume n))
    (hin : ∀ t, K t → t.inputInBuffer)
    (hbody : ∀ x ∈ xs, ∀ t, K t → t.hasInput (inp x) → t.obitpos.toNat + (out x).length ≤ 8 * t.obufBytes →
      body t = .ok () ((t.emit (out x)).consume (inp x).length))
    {s : State} (hs : K s) (hi : s.hasInput (xs.flatMap inp))
    (hroom : s.obitpos.toNat + (xs.flatMap out).length ≤ 8 * s.obufBytes) :
    repeatRun xs.length body s = .ok () ((s.emit (xs.flatMap out)).consume (xs.flatMap inp).length) := by
  induction xs generalizing s with
  | nil => simp [repeatRun]
  | cons x xs ih =>
    rw [List.flatMap_cons] at hi
    rw [List.flatMap_cons, List.length_append] at hroom
    obtain ⟨hx, hrest⟩ := State.hasInput_append (hin s hs) hi
    have hle := s.emit_obitpos_le (out x)
    rw [List.length_cons, repeatRun, Run.bind_ok (hbody x (by simp) s hs hx (by omega)),
      ih (fun y hy => hbody y (by simp [hy])) (hmove s _ _ hs) ((State.hasInput_emit_consume _ _ _).2 hrest)
        (by rw [State.consume_obitpos, State.consume_obufBytes, State.emit_obufBytes]; omega),
      State.emit_consume_again _ _ _ (hx.lt (hin s hs)), ← List.flatMap_cons, List.flatMap_cons (f := inp),
      List.length_append]

/-- What ENCSYMS leaves of both streams once it has read the symbols `syms` and written their codes (spec R180). -/
def State.encoded (s : State) (syms : List Byte) : State := (s.emit (s.codeBitsFor syms)).consume (8 * syms.length)

theorem State.encoded_obitpos {s : State} {syms : List Byte} (hs : s.obufBytes ≤ Config.maxBufBytes)
    (h : s.obitpos.toNat + (s.codeBitsFor syms).length ≤ 8 * s.obufBytes) :
    (s.encoded syms).obitpos.toNat = s.obitpos.toNat + (s.codeBitsFor syms).length := State.emit_obitpos_of_room hs h

@[simp] theorem State.encoded_inLen (s : State) (syms : List Byte) : (s.encoded syms).inLen = s.inLen := s.emit_inLen _

@[simp] theorem State.encoded_obufBytes (s : State) (syms : List Byte) : (s.encoded syms).obufBytes = s.obufBytes :=
  s.emit_obufBytes _

@[simp] theorem State.encoded_codeLenOf (s : State) (syms : List Byte) (sym : Byte) :
    (s.encoded syms).codeLenOf sym = s.codeLenOf sym := s.emit_codeLenOf _ sym

@[simp] theorem State.encoded_codeOf (s : State) (syms : List Byte) (sym : Byte) :
    (s.encoded syms).codeOf sym = s.codeOf sym := s.emit_codeOf _ sym

/-- A legal input, and the code table of `s`. -/
def State.EncodesAs (s t : State) : Prop :=
  t.inputInBuffer ∧ ∀ sym, t.codeLenOf sym = s.codeLenOf sym ∧ t.codeOf sym = s.codeOf sym

theorem State.EncodesAs.move {s t : State} (h : s.EncodesAs t) (bits : List Bool) (n : Nat) :
    s.EncodesAs ((t.emit bits).consume n) :=
  ⟨(State.inputInBuffer_emit_consume bits n).2 h.1, fun sym => by simpa using h.2 sym⟩

/-- Symbols that all have codes, with room for them (spec R180). -/
theorem encodeSymbols_ok {s : State} {syms : List Byte} (hb : s.inputInBuffer)
    (hi : syms = [] ∨ s.hasInput (symbolBits syms)) (hc : ∀ sym ∈ syms, s.codeLenOf sym ≠ 0)
    (hroom : s.obitpos.toNat + (s.codeBitsFor syms).length ≤ 8 * s.obufBytes) :
    repeatRun syms.length encodeSymbol s = .ok () (s.encoded syms) := by
  rcases hi with rfl | hi
  · simp [repeatRun, State.encoded, State.codeBitsFor]
  · have hturn : ∀ sym ∈ syms, ∀ t, s.EncodesAs t → t.hasInput (bitsOf sym 8) →
        t.obitpos.toNat + (s.codeOf sym).length ≤ 8 * t.obufBytes →
        encodeSymbol t = .ok () ((t.emit (s.codeOf sym)).consume (bitsOf sym 8).length) := by
      rintro sym hsym t ⟨ht, htable⟩ hi hroom
      obtain ⟨hlen, hcode⟩ := htable sym
      rw [← hcode] at hroom ⊢
      rw [bitsOf_length]
      exact encodeSymbol_ok ht hi (hlen ▸ hc sym hsym) hroom
    have hrun := repeatRun_streams (K := s.EncodesAs) (fun _ bits n h => h.move bits n) (fun _ h => h.1) hturn
      ⟨hb, fun _ => ⟨rfl, rfl⟩⟩ hi hroom
    rw [show (syms.flatMap fun sym => bitsOf sym 8).length = 8 * syms.length from symbolBits_length syms] at hrun
    exact hrun

/-- Where the symbol after `syms` fails, so does the body of ENCSYMS (spec R180, R222). -/
theorem encodeBody_fails {s t : State} {e : Abort} {syms : List Byte} (hb : s.inputInBuffer)
    (hlen : syms.length < s.len.toNat) (hi : syms = [] ∨ s.hasInput (symbolBits syms))
    (hc : ∀ sym ∈ syms, s.codeLenOf sym ≠ 0) (hroom : s.obitpos.toNat + (s.codeBitsFor syms).length ≤ 8 * s.obufBytes)
    (h : encodeSymbol (s.encoded syms) = .error e t) : encodeBody s = .error e t := by
  obtain ⟨n, hn⟩ : ∃ n, s.len.toNat = syms.length + (n + 1) := ⟨s.len.toNat - syms.length - 1, by omega⟩
  rw [encodeBody, Run.view_bind, hn, repeatRun_add, Run.bind_ok (encodeSymbols_ok hb hi hc hroom), repeatRun,
    Run.bind_error h]

/-- With a valid code table ENCSYMS is its loop (spec R180, R213). -/
theorem exec_encsyms_eq {s : State} (hv : s.codesValid = true) : exec .encsyms s = runCommand encodeBody s := by
  have hreq : requireCodes 0x30 s = .ok () s := if_pos hv
  have hbody : (do requireCodes 0x30; encodeBody : Run Unit) s = encodeBody s := Run.bind_ok hreq
  simp only [exec, execEncsyms, runCommand, hbody]

/-- The input after `syms` goes on with `x`. -/
theorem State.encoded_hasInput {s : State} {syms : List Byte} {x : Byte} (hb : s.inputInBuffer)
    (hi : s.hasInput (symbolBits (syms ++ [x]))) :
    s.hasInput (symbolBits syms) ∧ (s.encoded syms).hasInput (bitsOf x 8) := by
  rw [symbolBits_append] at hi
  obtain ⟨hsyms, hx⟩ := State.hasInput_append hb hi
  rw [symbolBits_length] at hx
  exact ⟨hsyms, (State.hasInput_emit_consume _ _ _).2 (by simpa using hx)⟩

/-- Bits written and a symbol read after `syms`. -/
theorem State.encoded_emit_consume {s : State} {syms : List Byte} (hb : s.inputInBuffer)
    (hi : s.hasInput (symbolBits syms)) (bits : List Bool) :
    ((s.encoded syms).emit bits).consume 8 = (s.emit (s.codeBitsFor syms ++ bits)).consume (8 * (syms.length + 1)) := by
  have hlt := hi.lt hb
  rw [symbolBits_length] at hlt
  exact State.emit_consume_again _ _ _ hlt

/-- All `LEN` symbols have codes, and there is room (spec R180). -/
theorem exec_encsyms_ok {s : State} {syms : List Byte} (hb : s.inputInBuffer) (hv : s.codesValid = true)
    (hlen : syms.length = s.len.toNat) (hi : s.hasInput (symbolBits syms)) (hc : ∀ sym ∈ syms, s.codeLenOf sym ≠ 0)
    (hroom : s.obitpos.toNat + (s.codeBitsFor syms).length ≤ 8 * s.obufBytes) :
    exec .encsyms s = .next (s.encoded syms).complete := by
  rw [exec_encsyms_eq hv]
  refine runCommand_ok ?_
  rw [encodeBody, Run.view_bind, ← hlen]
  exact encodeSymbols_ok hb (.inr hi) hc hroom

/-- The input ends before or inside a symbol (spec R77, R180). -/
theorem exec_encsyms_inExhausted {s : State} {syms : List Byte} (hb : s.inputInBuffer) (hv : s.codesValid = true)
    (hlen : syms.length < s.len.toNat) (hi : syms = [] ∨ s.hasInput (symbolBits syms))
    (hc : ∀ sym ∈ syms, s.codeLenOf sym ≠ 0) (hend : 8 * s.inLen.toNat < s.ibitpos.toNat + 8 * (syms.length + 1))
    (hroom : s.obitpos.toNat + (s.codeBitsFor syms).length ≤ 8 * s.obufBytes) :
    exec .encsyms s = .next ((s.encoded syms).recordFault .inExhausted
      (BitVec.ofNat 32 (s.ibitpos.toNat + 8 * syms.length))).complete := by
  have hlt : s.ibitpos.toNat + 8 * syms.length < 2 ^ 32 := by
    rcases hi with rfl | hi
    · exact s.ibitpos.isLt
    · simpa using hi.lt hb
  have hcur : (s.encoded syms).ibitpos = BitVec.ofNat 32 (s.ibitpos.toNat + 8 * syms.length) := by
    simp [State.encoded]
  have hsym := readWord8_end (s.encoded syms) (by
    rw [hcur, BitVec.toNat_ofNat, Nat.mod_eq_of_lt hlt, State.encoded_inLen]
    omega)
  rw [hcur] at hsym
  rw [exec_encsyms_eq hv]
  exact runCommand_raise (encodeBody_fails hb hlen hi hc hroom (Run.bind_error hsym))

/-- The code of a symbol does not fit (spec R80, R180). -/
theorem exec_encsyms_outFull {s : State} {syms : List Byte} {x : Byte} (hb : s.inputInBuffer)
    (hs : s.obufBytes ≤ Config.maxBufBytes) (hv : s.codesValid = true) (hlen : syms.length < s.len.toNat)
    (hi : s.hasInput (symbolBits (syms ++ [x]))) (hc : ∀ sym ∈ syms ++ [x], s.codeLenOf sym ≠ 0)
    (hroom : s.obitpos.toNat + (s.codeBitsFor syms).length ≤ 8 * s.obufBytes)
    (hfull : 8 * s.obufBytes < s.obitpos.toNat + (s.codeBitsFor (syms ++ [x])).length) :
    exec .encsyms s = .next
      (((s.emit ((s.codeBitsFor (syms ++ [x])).take (8 * s.obufBytes - s.obitpos.toNat))).consume
        (8 * (syms.length + 1))).recordFault .outFull (BitVec.ofNat 32 (8 * s.obufBytes))).complete := by
  obtain ⟨hsyms, hx⟩ := State.encoded_hasInput hb hi
  have hcur := State.encoded_obitpos hs hroom
  rw [State.codeBitsFor_append, State.codeBitsFor_singleton] at hfull ⊢
  rw [List.length_append] at hfull
  have hsym := encodeSymbol_full (s := s.encoded syms) ((State.inputInBuffer_emit_consume _ _).2 hb) (by simpa using hs)
    hx (by simpa using hc x (by simp)) (by rw [hcur, State.encoded_obufBytes]; exact hroom)
    (by rw [hcur, State.encoded_obufBytes, State.encoded_codeOf]; omega)
  rw [hcur, State.encoded_obufBytes, State.encoded_codeOf, State.encoded_emit_consume hb hsyms] at hsym
  have htake : (s.codeBitsFor syms ++ s.codeOf x).take (8 * s.obufBytes - s.obitpos.toNat) =
      s.codeBitsFor syms ++ (s.codeOf x).take (8 * s.obufBytes - (s.obitpos.toNat + (s.codeBitsFor syms).length)) := by
    rw [List.take_append, List.take_of_length_le (by omega), Nat.sub_sub]
  rw [exec_encsyms_eq hv, htake]
  exact runCommand_raise (encodeBody_fails hb hlen (.inr hsyms) (fun sym h => hc sym (by simp [h])) hroom hsym)

/-- Settles O44: the symbols that have codes are encoded one by one, and where the next one fails, so does ENCSYMS. -/
theorem encsymsResult : Obligations.EncsymsResult :=
  ⟨fun _ _ => exec_encsyms_ok, fun _ _ => exec_encsyms_inExhausted, fun _ _ _ => exec_encsyms_outFull⟩

/-- Settles O45: the symbols before it are encoded, and the one without a code has been read. -/
theorem encsymsNoCode : Obligations.EncsymsNoCode := by
  intro s syms x hb hv hlen hi hc hx hroom
  obtain ⟨hsyms, hnext⟩ := State.encoded_hasInput hb hi
  have hsym := encodeSymbol_noCode (s := s.encoded syms) ((State.inputInBuffer_emit_consume _ _).2 hb) hnext
    (by simpa using hx)
  rw [State.encoded_emit_consume hb hsyms, List.append_nil] at hsym
  rw [exec_encsyms_eq hv]
  exact runCommand_raise (encodeBody_fails hb hlen (.inr hsyms) hc hroom hsym)

/-! ### FLUSH -/

theorem padBits_length (q : Nat) : (padBits q).length = (8 - q % 8) % 8 := List.length_replicate

/-- The pad fits: OBUF holds whole bytes (spec R83). -/
theorem padBits_room {q n : Nat} (h : q ≤ 8 * n) : q + (padBits q).length ≤ 8 * n := by
  rw [padBits_length]
  omega

/-- Settles O47: the pad has fewer than 8 bits, and with the cursor inside OBUF, which holds whole bytes, it fits. -/
theorem flushResult : Obligations.FlushResult := by
  intro s hin
  have hexec : exec .flush s = _ := runCommand_ok (padToByte_ok s hin)
  refine ⟨hexec, fun hz => ?_, fun hmax => ?_⟩
  · have hpad : padBits s.obitpos.toNat = [] := List.eq_nil_of_length_eq_zero (by rw [padBits_length]; omega)
    rw [hexec, hpad]
    rfl
  · rw [State.emit_obitpos_of_room hmax (padBits_room hin), padBits_length]
    omega

end Sys2Proof.Machine
end

section
/-! PROOFS. The frame of the commands that use both streams: ENCSYMS, DECSYMS, ENCODE and DECODE (spec R79, R80, R180,
R184, R195, R197). -/

namespace Sys2Proof.Machine

variable {α : Type}

/-! ### What a body does to the streams -/

/-- The input cursor and the count of draws replaced (spec R29, R50). -/
def State.atInput (s : State) (p : Word) (d : Nat) : State := { s with ibitpos := p, draws := d }

theorem State.atInput_emit (s : State) (p : Word) (d : Nat) (bits : List Bool) :
    (s.atInput p d).emit bits = (s.emit bits).atInput p d :=
  State.KeepsOutput.emit (f := fun s => s.atInput p d) (fun _ _ _ _ => rfl) s bits

/-- From `s` to `t` input was read and bits were produced; nothing else changed. Where the buffers are of legal size the
output cursor did not wrap. -/
def State.Streamed (s t : State) : Prop :=
  ∃ bits p d, t = (s.emit bits).atInput p d ∧ (s.SizesInv → s.obitpos.toNat + bits.length < 2 ^ 32)

theorem State.streamed_refl (s : State) : s.Streamed s := ⟨[], s.ibitpos, s.draws, rfl, fun _ => s.obitpos.isLt⟩

theorem State.Streamed.trans (s t u : State) (h : s.Streamed t) (h' : t.Streamed u) : s.Streamed u := by
  obtain ⟨a, p, d, rfl, ha⟩ := h
  obtain ⟨b, p', d', rfl, hb⟩ := h'
  refine ⟨a ++ b, p', d', by rw [State.atInput_emit, State.emit_append]; rfl, fun hs => ?_⟩
  have hcur : ((s.emit a).atInput p d).obitpos.toNat = _ := State.emit_obitpos_toNat (ha hs)
  have hlt := hb (by simpa [State.SizesInv, State.atInput] using hs)
  rw [hcur] at hlt
  rw [List.length_append]
  omega

theorem State.Streamed.err {s t : State} (h : s.Streamed t) : t.err = s.err := by
  obtain ⟨bits, p, d, rfl, -⟩ := h
  exact s.emit_err bits

theorem State.Streamed.codesValid {s t : State} (h : s.Streamed t) : t.codesValid = s.codesValid := by
  obtain ⟨bits, p, d, rfl, -⟩ := h
  exact s.emit_codesValid bits

/-- A body that reads input, produces bits and changes nothing else. -/
abbrev Run.Streams (m : Run α) : Prop := Run.Sat (fun _ => True) State.Streamed (fun _ => True) m

theorem Run.Streams.bind {β : Type} {m : Run α} {f : α → Run β} (hm : Run.Streams m) (hf : ∀ a, Run.Streams (f a)) :
    Run.Streams (m >>= f) := Run.Sat.bind State.Streamed.trans hm hf

theorem Run.Streams.view (f : State → α) : Run.Streams (view f) := Run.Sat.view State.streamed_refl f

theorem Run.Streams.require (c : State → Bool) (e : Err) (info : Word) : Run.Streams (require c e info) :=
  Run.Sat.require State.streamed_refl c e info trivial

theorem Run.Streams.raise (e : Err) (info : Word) : Run.Streams (raise e info : Run α) :=
  Run.Sat.raise State.streamed_refl e info trivial

theorem Run.Streams.repeatRun {m : Run Unit} (hm : Run.Streams m) (n : Nat) : Run.Streams (repeatRun n m) :=
  Run.Sat.repeatRun State.streamed_refl State.Streamed.trans hm n

theorem readBit_streams : Run.Streams readBit :=
  Run.Sat.readBit State.streamed_refl
    (fun s _ _ d => ⟨trivial, [], (s.consume 1).ibitpos, d, rfl, fun _ => s.obitpos.isLt⟩) (fun _ => trivial)
    fun _ _ _ _ => trivial

theorem readWord8_streams : Run.Streams readWord8 :=
  Run.Sat.readWord8 State.streamed_refl State.Streamed.trans readBit_streams fun _ => trivial

/-- With room for a bit in a buffer of legal size the cursor is far from wrapping (spec R6, R80). -/
theorem State.streamed_emitBit {s : State} (b : Bool) (hroom : s.obitpos.toNat < 8 * s.obufBytes) :
    s.Streamed (s.emitBit b) := by
  refine ⟨[b], (s.emitBit b).ibitpos, (s.emitBit b).draws, rfl, fun hs => ?_⟩
  have hmax : s.obufBytes ≤ 2 ^ 28 := hs.2.2.2
  rw [List.length_singleton]
  omega

theorem writeBit_streams (b : Bool) : Run.Streams (writeBit b) :=
  Run.Sat.writeBit State.streamed_refl b (fun _ _ hroom => ⟨trivial, State.streamed_emitBit b hroom⟩) fun _ => trivial

theorem writeWord8_streams (v : Byte) : Run.Streams (writeWord8 v) :=
  Run.Sat.writeWord8 State.streamed_refl State.Streamed.trans writeBit_streams (fun _ => trivial) v

theorem padToByte_streams : Run.Streams padToByte :=
  Run.Sat.padLoop State.streamed_refl State.Streamed.trans (writeBit_streams false) 7

theorem serializeBody_streams : Run.Streams serializeBody := by
  refine .bind (.view _) fun st => .bind (.view _) fun r => ?_
  split
  · exact .bind (writeBit_streams true) fun _ => writeWord8_streams _
  · exact Run.Sat.writeNode State.streamed_refl State.Streamed.trans writeBit_streams (fun _ => trivial) trivial
      trivial _ _

theorem putlenBody_streams : Run.Streams putlenBody :=
  .bind (.view _) fun _ =>
    Run.Sat.writeInt32 State.streamed_refl State.Streamed.trans writeBit_streams (fun _ => trivial) _

theorem encodeSymbol_streams : Run.Streams encodeSymbol := by
  refine .bind readWord8_streams fun x => .bind (.view _) fun n => .bind (.view _) fun bits => ?_
  split
  · exact .raise _ _
  · exact Run.Sat.writeBits State.streamed_refl State.Streamed.trans writeBit_streams _ _

theorem encodeBody_streams : Run.Streams encodeBody := .bind (.view _) fun _ => encodeSymbol_streams.repeatRun _

theorem decodeSymbol_streams : Run.Streams decodeSymbol :=
  .bind (.view _) fun _ => .bind (.view _) fun _ =>
    .bind (Run.Sat.walk State.streamed_refl State.Streamed.trans readBit_streams trivial trivial _ _) fun _ =>
      writeWord8_streams _

theorem decodeBody_streams : Run.Streams decodeBody := by
  refine .bind (.view _) fun st => .bind (.view _) fun l => ?_
  split
  · split
    · exact Run.Sat.pure State.streamed_refl ()
    · exact .raise _ _
  · exact decodeSymbol_streams.repeatRun _

/-! ### ENCSYMS, DECSYMS and ENCODE -/

/-- Where the output of `t` is that of `s` after some bits, the cursor did not decrease, and only the bytes these bits
completed differ (spec R79, R80). -/
theorem storesOnlyOutput_of_emit {s t : State} {bits : List Bool} (h : s.obitpos.toNat + bits.length < 2 ^ 32)
    (hcur : t.obitpos = (s.emit bits).obitpos) (hmem : t.obuf = (s.emit bits).obuf) :
    s.obitpos.toNat ≤ t.obitpos.toNat ∧ storesOnlyOutput s t := by
  refine ⟨?_, fun a ha => ?_⟩
  · rw [hcur, State.emit_obitpos_toNat h]
    exact Nat.le_add_right _ _
  · rw [hmem]
    exact s.emit_stores bits h a (hcur ▸ ha)

/-- What a command changes whose body uses the streams only: the streams and what every command does (spec R79, R80). -/
theorem Run.Streams.frame {m : Run Unit} (hm : Run.Streams m) {s t : State} (hs : s.SizesInv)
    (h : runCommand m s = .next t) :
    t = { s with
      ibitpos := t.ibitpos, draws := t.draws, obitpos := t.obitpos, oacc := t.oacc, obuf := t.obuf,
      err := t.err, errCode := t.errCode, errInfo := t.errInfo, pend := none, done := true } ∧
    s.obitpos.toNat ≤ t.obitpos.toNat ∧ storesOnlyOutput s t := by
  rcases hm.next trivial h with ⟨_, -, ⟨bits, p, d, rfl, hlt⟩, rfl⟩ |
    ⟨e, info, _, -, ⟨bits, p, d, rfl, hlt⟩, -, rfl⟩
  · exact ⟨by rw [State.emit_frame]; rfl, storesOnlyOutput_of_emit (hlt hs) rfl rfl⟩
  · exact ⟨by rw [State.emit_frame]; rfl, storesOnlyOutput_of_emit (hlt hs) rfl rfl⟩

/-! ### DECODE -/

/-- From `s` to `t` the tree was dropped and perhaps another one read, LEN perhaps written, input read and bits produced
(spec R197). -/
def State.Decoded (s t : State) : Prop :=
  ∃ arena root treeState len bits p d,
    t = { (s.emit bits).atInput p d with
      arena := arena, root := root, treeState := treeState, codesValid := false, len := len } ∧
    (s.SizesInv → s.obitpos.toNat + bits.length < 2 ^ 32)

theorem State.Deserialized.decoded {s t : State} (h : s.Deserialized t) : s.Decoded t := by
  obtain ⟨new, root, treeState, _, ⟨p, d, rfl⟩, rfl⟩ := h
  exact ⟨_, root, treeState, s.len, [], p, d, rfl, fun _ => s.obitpos.isLt⟩

theorem State.PartlyRead.decoded {s t : State} (h : s.dropTree.PartlyRead t) : s.Decoded t := by
  obtain ⟨new, ⟨p, d, rfl⟩, -, -⟩ := h
  exact ⟨_, Config.nil, .invalid, s.len, [], p, d, rfl, fun _ => s.obitpos.isLt⟩

theorem State.Decoded.lenRead {s t u : State} (h : s.Decoded t) (h' : t.LenRead u) : s.Decoded u := by
  obtain ⟨arena, root, treeState, len, bits, p, d, rfl, hlt⟩ := h
  obtain ⟨v, p', d', rfl⟩ := h'
  exact ⟨arena, root, treeState, v, bits, p', d', rfl, hlt⟩

theorem State.Decoded.streamed {s t u : State} (h : s.Decoded t) (h' : t.Streamed u) : s.Decoded u := by
  obtain ⟨arena, root, treeState, len, a, p, d, rfl, ha⟩ := h
  obtain ⟨b, p', d', rfl, hb⟩ := h'
  obtain ⟨c, p'', d'', hu, hc⟩ := State.Streamed.trans s ((s.emit a).atInput p d)
    ((((s.emit a).atInput p d).emit b).atInput p' d') ⟨a, p, d, rfl, ha⟩ ⟨b, p', d', rfl, hb⟩
  refine ⟨arena, root, treeState, len, c, p'', d'', ?_, hc⟩
  rw [← hu]
  exact congrArg (·.atInput p' d') (State.KeepsOutput.emit (f := fun t => { t with
    arena := arena, root := root, treeState := treeState, codesValid := false, len := len }) (fun _ _ _ _ => rfl) _ b)

/-- Whatever the input, DECODE reads a tree or fails to, reads LEN and input, and produces bits (spec R197). -/
theorem decodeFileBody_ends (s : State) : Run.Ends decodeFileBody s (fun _ => s.Decoded) s.Decoded := by
  have htree : Run.Ends deserializeBody s (fun _ => s.Decoded) s.Decoded :=
    (deserializeBody_ends s).mono (fun _ _ h => h.decoded) fun _ h => h.decoded
  have hlen : ∀ t, s.Decoded t → Run.Ends getlenBody t (fun _ => s.Decoded) s.Decoded := fun t ht =>
    (getlenBody_ends t).mono (fun _ _ h => ht.lenRead h) fun _ h => ht.lenRead h
  have hstream : ∀ (m : Run Unit) t, Run.Streams m → s.Decoded t → Run.Ends m t (fun _ => s.Decoded) s.Decoded :=
    fun m t hm ht => (Run.Sat.ends hm trivial).mono (fun _ _ h => ht.streamed h.2) fun _ h => ht.streamed h.2
  exact htree.bind fun _ t ht => (hlen t ht).bind fun _ u hu => (hstream _ u decodeBody_streams hu).bind
    fun _ v hv => hstream _ v padToByte_streams hv

/-- What DECODE changes, whether it raises or not (spec R197, R220, R221). -/
theorem State.Decoded.frame {s t u : State} (hs : s.SizesInv) (h : s.Decoded u) (err : Bool) (code : Byte) (info : Word)
    (ht : t = { u with err := err, errCode := code, errInfo := info, pend := none, done := true }) :
    t = { s with
      arena := t.arena, root := t.root, treeState := t.treeState, codesValid := false, len := t.len,
      ibitpos := t.ibitpos, draws := t.draws, obitpos := t.obitpos, oacc := t.oacc, obuf := t.obuf,
      err := t.err, errCode := t.errCode, errInfo := t.errInfo, pend := none, done := true } ∧
    s.obitpos.toNat ≤ t.obitpos.toNat ∧ storesOnlyOutput s t := by
  obtain ⟨arena, root, treeState, len, bits, p, d, rfl, hlt⟩ := h
  subst ht
  exact ⟨by rw [State.emit_frame]; rfl, storesOnlyOutput_of_emit (hlt hs) rfl rfl⟩

/-- Settles O57: the bodies of ENCSYMS, DECSYMS and ENCODE use the streams only, and DECODE writes the tree and LEN
besides. -/
theorem streamCommandsFrame : Obligations.StreamCommandsFrame := by
  refine ⟨fun i hi s t hs h => ?_, fun s t hs h => ?_⟩
  · simp only [List.mem_cons, List.not_mem_nil, or_false] at hi
    rcases hi with rfl | rfl | rfl
    · exact Run.Streams.frame (.bind (.require _ _ _) fun _ => encodeBody_streams) hs h
    · exact Run.Streams.frame (.bind (.require _ _ _) fun _ => decodeBody_streams) hs h
    · exact Run.Streams.frame (.bind (.require _ _ _) fun _ => .bind (.require _ _ _) fun _ =>
        .bind serializeBody_streams fun _ => .bind putlenBody_streams fun _ => .bind encodeBody_streams fun _ =>
        padToByte_streams) hs h
  · rcases runCommand_next h with ⟨u, hu, rfl⟩ | ⟨e, info, u, hu, rfl⟩
    · exact ((decodeFileBody_ends s).1 _ _ hu).frame hs u.err u.errCode u.errInfo rfl
    · exact ((decodeFileBody_ends s).2 _ _ hu).frame hs true e.code info rfl

end Sys2Proof.Machine
end

section
/-! PROOFS. ENCODE: the whole file it writes, its size, and that it does what SERIALIZE, PUTLEN, ENCSYMS and FLUSH do one
after another (spec R110, R184, R185). -/

namespace Sys2Proof.Machine

variable {α β : Type}

/-! ### A command after a completed one -/

/-- How a body ends, with the state it leaves completed. -/
def completed : EStateM.Result Abort State α → EStateM.Result Abort State α
  | .ok a t => .ok a t.complete
  | .error e t => .error e t.complete

/-- A body that neither reads nor writes the two fields of completion: from a completed state it runs as before
(spec R221). -/
def Run.IgnoresCompletion (m : Run α) : Prop := ∀ s : State, m s.complete = completed (m s)

theorem Run.IgnoresCompletion.bind {m : Run α} {f : α → Run β} (hm : m.IgnoresCompletion)
    (hf : ∀ a, (f a).IgnoresCompletion) : (m >>= f).IgnoresCompletion := by
  intro s
  cases h : m s with
  | ok a t => rw [Run.bind_ok h, Run.bind_ok ((hm s).trans (congrArg completed h)), hf a t]
  | error e t =>
    rw [Run.bind_error h, Run.bind_error ((hm s).trans (congrArg completed h))]
    rfl

theorem Run.IgnoresCompletion.pure (a : α) : (pure a : Run α).IgnoresCompletion := fun _ => rfl

theorem Run.IgnoresCompletion.raise (e : Err) (info : Word) : (raise e info : Run α).IgnoresCompletion := fun _ => rfl

theorem Run.IgnoresCompletion.view {f : State → α} (h : ∀ s : State, f s.complete = f s) :
    (view f).IgnoresCompletion := fun s => congrArg (EStateM.Result.ok · s.complete) (h s)

/-- A body that does one thing or another, by a test that completion does not touch. -/
theorem Run.IgnoresCompletion.ite {m m' : Run α} (c : State → Prop) [DecidablePred c]
    (hc : ∀ s : State, c s.complete ↔ c s) (hm : m.IgnoresCompletion) (hm' : m'.IgnoresCompletion) :
    Run.IgnoresCompletion (fun s => if c s then m s else m' s : Run α) := by
  intro s
  by_cases h : c s
  · simp only [(hc s).2 h, h, if_true, hm s]
  · simp only [mt (hc s).1 h, h, if_false, hm' s]

theorem Run.IgnoresCompletion.repeatRun {m : Run Unit} (hm : m.IgnoresCompletion) (n : Nat) :
    (repeatRun n m).IgnoresCompletion := by
  induction n with
  | zero => exact .pure ()
  | succ n ih => exact .bind hm fun _ => ih

theorem readIbuf_ignoresCompletion (k : Nat) : (readIbuf k).IgnoresCompletion := by
  have hfetch : ∀ s : State,
      s.complete.fetchByte s.ibuf k = ((s.fetchByte s.ibuf k).1, (s.fetchByte s.ibuf k).2.complete) := by
    intro s
    unfold State.fetchByte
    cases memLookup s.ibuf k with
    | none => rfl
    | some v => rfl
  exact .ite (fun s => k < s.ibufBytes) (fun _ => Iff.rfl)
    (fun s => congrArg (fun p : Byte × State => EStateM.Result.ok p.1 p.2) (hfetch s)) (fun _ => rfl)

theorem readBit_ignoresCompletion : readBit.IgnoresCompletion := by
  intro s
  have hin : s.complete.inAvail 1 = s.inAvail 1 := rfl
  unfold readBit
  rw [hin, State.complete_ibitpos, readIbuf_ignoresCompletion]
  split
  · cases readIbuf (s.ibitpos.toNat / 8) s with
    | ok v t => rfl
    | error e t => rfl
  · rfl

theorem readBits_ignoresCompletion (n v : Nat) : (readBits n v).IgnoresCompletion := by
  induction n generalizing v with
  | zero => exact .pure v
  | succ n ih => exact .bind readBit_ignoresCompletion fun b => ih _

theorem readWord8_ignoresCompletion : readWord8.IgnoresCompletion := by
  have hreq : (requireInput 8).IgnoresCompletion :=
    .ite (fun s => s.inAvail 8 = true) (fun _ => Iff.rfl) (fun _ => rfl) (fun _ => rfl)
  exact .bind hreq fun _ => .bind (readBits_ignoresCompletion 8 0) fun _ => .pure _

theorem writeBit_ignoresCompletion (b : Bool) : (writeBit b).IgnoresCompletion := by
  have hbit : ∀ s : State, s.complete.emitBit b = (s.emitBit b).complete := fun s =>
    State.KeepsOutput.emitBit (f := State.complete) (fun _ _ _ _ => rfl) s b
  exact .ite (fun s => 8 * s.obufBytes ≤ s.obitpos.toNat) (fun _ => Iff.rfl) (fun _ => rfl)
    (fun s => congrArg (EStateM.Result.ok ()) (hbit s))

theorem writeBits_ignoresCompletion {w : Nat} (v : BitVec w) (n : Nat) : (writeBits v n).IgnoresCompletion := by
  induction n with
  | zero => exact .pure ()
  | succ n ih => exact .bind (writeBit_ignoresCompletion _) fun _ => ih

theorem putlenBody_ignoresCompletion : putlenBody.IgnoresCompletion := by
  have hreq : (requireRoom 32).IgnoresCompletion :=
    .ite (fun s => s.outRoom 32 = true) (fun _ => Iff.rfl) (fun _ => rfl) (fun _ => rfl)
  exact .bind (.view fun _ => rfl) fun _ => .bind hreq fun _ => writeBits_ignoresCompletion _ 32

theorem encodeSymbol_ignoresCompletion : encodeSymbol.IgnoresCompletion := by
  refine .bind readWord8_ignoresCompletion fun x => .bind (.view fun _ => rfl) fun n =>
    .bind (.view fun _ => rfl) fun bits => ?_
  split
  · exact .raise _ _
  · exact writeBits_ignoresCompletion _ _

theorem encodeBody_ignoresCompletion : encodeBody.IgnoresCompletion :=
  .bind (.view fun _ => rfl) fun _ => encodeSymbol_ignoresCompletion.repeatRun _

theorem padLoop_ignoresCompletion (n : Nat) : (padLoop n).IgnoresCompletion := by
  induction n with
  | zero => exact .pure ()
  | succ n ih =>
    exact .ite (fun s => s.obitpos.toNat % 8 = 0) (fun _ => Iff.rfl) (.pure ())
      (.bind (writeBit_ignoresCompletion false) fun _ => ih)

/-- A command from a completed state is the command from the state before its completion. -/
theorem runCommand_complete {m : Run Unit} (hm : m.IgnoresCompletion) (s : State) :
    runCommand m s.complete = runCommand m s := by
  unfold runCommand
  rw [hm s]
  cases m s with
  | ok a t => rfl
  | error e t => cases e <;> rfl

/-- Where a first body leaves no error, the command that runs a second body goes on as one body would (spec R184,
R222). -/
theorem thenExec_runCommand {i : Instr} {m m' : Run Unit} {s : State} (hm' : m'.IgnoresCompletion)
    (h : ∀ t, m s = .ok () t → t.err = false ∧ exec i t.complete = runCommand m' t.complete) :
    thenExec i (runCommand m s) = runCommand (m >>= fun _ => m') s := by
  cases hm : m s with
  | ok a t =>
    obtain ⟨herr, hexec⟩ := h t hm
    rw [runCommand_ok hm, thenExec, if_neg (by simp [herr]), hexec, runCommand_complete hm', runCommand, runCommand,
      Run.bind_ok hm]
  | error e t =>
    have hbind := Run.bind_error (f := fun _ => m') hm
    cases e with
    | raise e info =>
      rw [runCommand_raise hm, runCommand_raise hbind]
      rfl
    | stop f =>
      rw [runCommand, runCommand, hm, hbind]
      rfl

/-! ### ENCODE as a sequence -/

theorem exec_serialize_eq {s : State} (hs : s.treeState ≠ .invalid) : exec .serialize s = runCommand serializeBody s := by
  have hreq : requireTree 0x20 s = .ok () s := if_pos (decide_eq_true hs)
  have hbody : (do requireTree 0x20; serializeBody : Run Unit) s = serializeBody s := Run.bind_ok hreq
  simp only [exec, execSerialize, runCommand, hbody]

/-- With a tree and codes ENCODE is its four parts (spec R184, R213). -/
theorem encodeFileBody_eq {s : State} (hs : s.treeState ≠ .invalid) (hv : s.codesValid = true) :
    encodeFileBody s = (serializeBody >>= fun _ => putlenBody >>= fun _ => encodeBody >>= fun _ => padToByte) s := by
  have htree : requireTree 0x40 s = .ok () s := if_pos (decide_eq_true hs)
  have hcodes : requireCodes 0x40 s = .ok () s := if_pos hv
  rw [encodeFileBody, Run.bind_ok htree, Run.bind_ok hcodes]

/-- ENCODE does what SERIALIZE, PUTLEN, ENCSYMS and FLUSH do one after another (spec R184). -/
theorem exec_encode_parts {s : State} (he : s.err = false) (hs : s.treeState ≠ .invalid) (hv : s.codesValid = true) :
    exec .encode s = thenExec .flush (thenExec .encsyms (thenExec .putlen (exec .serialize s))) := by
  have hflags : ∀ {m : Run Unit} {t : State}, Run.Streams m → m s = .ok () t → t.err = false ∧ t.codesValid = true :=
    fun hm ht => ⟨(((hm s trivial).1 _ _ ht).2.err).trans he, (((hm s trivial).1 _ _ ht).2.codesValid).trans hv⟩
  have hput : Run.Streams (serializeBody >>= fun _ => putlenBody) :=
    serializeBody_streams.bind fun _ => putlenBody_streams
  have henc := hput.bind fun _ => encodeBody_streams
  rw [exec_serialize_eq hs,
    thenExec_runCommand putlenBody_ignoresCompletion fun t ht => ⟨(hflags serializeBody_streams ht).1, rfl⟩,
    thenExec_runCommand encodeBody_ignoresCompletion fun t ht =>
      ⟨(hflags hput ht).1, exec_encsyms_eq (s := t.complete) (hflags hput ht).2⟩,
    thenExec_runCommand (padLoop_ignoresCompletion 7) fun t ht => ⟨(hflags henc ht).1, rfl⟩]
  simp only [bind_assoc, exec, execEncode, runCommand, encodeFileBody_eq hs hv]
  rfl

/-! ### The whole file -/

/-- There is a tree that a command can walk, or the EMPTY tree. -/
def State.HasForm (s : State) : Prop := s.treeState = .empty ∨ (s.hasTree ∧ ∃ tr, s.tree? = some tr)

theorem State.Inv.hasForm {s : State} (h : s.Inv) (hs : s.treeState ≠ .invalid) : s.HasForm := by
  by_cases hempty : s.treeState = .empty
  · exact .inl hempty
  · have htree : s.hasTree := by
      cases hst : s.treeState <;> simp [State.hasTree, hst] at hs hempty ⊢
    obtain ⟨tr, ht, -⟩ := h.tree.exists_tree htree
    exact .inr ⟨htree, tr, ht⟩

theorem State.treeBits_empty {s : State} (hs : s.treeState = .empty) : s.treeBits = markerBits := if_pos hs

theorem State.treeBits_tree {s : State} {tr : CodeTree} (hs : s.hasTree) (ht : s.tree? = some tr) :
    s.treeBits = tr.preorder := by
  rw [State.treeBits, if_neg (by rcases hs with hs | hs <;> simp [hs]), ht]

/-- With room for it, the tree or the marker is written (spec R160 to R162). -/
theorem serializeBody_ok {s : State} (hs : s.HasForm) (hroom : s.obitpos.toNat + s.treeBits.length ≤ 8 * s.obufBytes) :
    serializeBody s = .ok () (s.emit s.treeBits) := by
  rw [serializeBody, Run.view_bind, Run.view_bind]
  rcases hs with hs | ⟨hs, tr, ht⟩
  · rw [State.treeBits_empty hs] at hroom ⊢
    rw [if_pos hs, writeLeaf_eq_writeItems]
    exact writeItems_ok (items := markerItems) hroom
  · rw [State.treeBits_tree hs ht] at hroom ⊢
    rw [if_neg (by rcases hs with hs | hs <;> simp [hs])]
    exact writeNode_ok _ _ tr s ht hroom

theorem State.encoded_emit (s : State) (out : List Bool) (syms : List Byte) :
    (s.emit out).encoded syms = (s.emit (out ++ s.codeBitsFor syms)).consume (8 * syms.length) := by
  rw [State.encoded, State.codeBitsFor_congr fun sym => s.emit_codeOf out sym, ← State.emit_append]

/-- With room for the file, ENCODE writes tree or marker, length, codes and pad, and reads the symbols (spec R184). -/
theorem encodeFileBody_ok {s : State} {syms : List Byte} (hb : s.inputInBuffer) (hs : s.obufBytes ≤ Config.maxBufBytes)
    (hform : s.HasForm) (hv : s.codesValid = true) (hlen : syms.length = s.len.toNat) (hi : s.hasInput (symbolBits syms))
    (hc : ∀ sym ∈ syms, s.codeLenOf sym ≠ 0) (hroom : s.obitpos.toNat + (s.fileBits syms).length ≤ 8 * s.obufBytes) :
    encodeFileBody s = .ok ()
      ((s.emit (s.fileBits syms ++ padBits (s.obitpos.toNat + (s.fileBits syms).length))).consume (8 * syms.length)) := by
  have hvalid : s.treeState ≠ .invalid := by
    rcases hform with h | ⟨h | h, -⟩ <;> simp [h]
  have hlength : (s.fileBits syms).length = s.treeBits.length + 32 + (s.codeBitsFor syms).length := by
    simp [State.fileBits, Nat.add_assoc]
  let header := s.treeBits ++ bitsOf s.len 32
  have hhead : s.obitpos.toNat + header.length ≤ 8 * s.obufBytes := by
    simp only [header, List.length_append, bitsOf_length]
    omega
  have htree := State.emit_obitpos_of_room (bits := s.treeBits) hs (by omega)
  have hcur := State.emit_obitpos_of_room hs hhead
  have hend := State.emit_obitpos_of_room hs hroom
  have hput : putlenBody (s.emit s.treeBits) = .ok () (s.emit header) := by
    rw [State.emit_append, ← s.emit_len s.treeBits]
    exact writeInt32_ok _ _ (by rw [htree, State.emit_obufBytes]; omega)
  have henc : encodeBody (s.emit header) = .ok () ((s.emit (s.fileBits syms)).consume (8 * syms.length)) := by
    rw [encodeBody, Run.view_bind, State.emit_len, ← hlen, encodeSymbols_ok ((State.inputInBuffer_emit _).2 hb)
      (.inr ((State.hasInput_emit _ _).2 hi)) (by simpa using hc)
      (by rw [hcur, State.emit_obufBytes, State.codeBitsFor_congr fun sym => s.emit_codeOf header sym]
          simp only [header, List.length_append, bitsOf_length]
          omega), State.encoded_emit]
    rfl
  have hpad := padToByte_ok ((s.emit (s.fileBits syms)).consume (8 * syms.length)) (by
    rw [State.consume_obitpos, hend, State.consume_obufBytes, State.emit_obufBytes]
    exact hroom)
  rw [State.consume_obitpos, hend, State.consume_emit, ← State.emit_append] at hpad
  rw [encodeFileBody_eq hvalid hv, Run.bind_ok (serializeBody_ok hform (by omega)), Run.bind_ok hput,
    Run.bind_ok henc, hpad]

/-- The size of the tree or the marker: ten bits a leaf less one (spec R185). -/
theorem State.Inv.treeBits_length {s : State} (h : s.Inv) (hs : s.treeState ≠ .invalid) :
    s.treeBits.length = if s.treeState = .empty then 9 else 10 * ((s.arena.length + 1) / 2) - 1 := by
  by_cases hempty : s.treeState = .empty
  · rw [State.treeBits_empty hempty, if_pos hempty]
    rfl
  · obtain ⟨htree, tr, ht⟩ := (h.hasForm hs).resolve_left hempty
    obtain ⟨tr', ht', -, hsize⟩ := h.tree.exists_tree htree
    obtain rfl := Option.some.inj (ht'.symm.trans ht)
    have hleaves := tr'.size_eq
    rw [State.treeBits_tree htree ht, if_neg hempty, CodeTree.preorder_length, ← hsize]
    omega

/-- The size of the codes (spec R185). -/
theorem State.codeBitsFor_length (s : State) (syms : List Byte) :
    (s.codeBitsFor syms).length = (syms.map (fun sym => (s.codeLenOf sym).toNat)).sum := by
  rw [State.codeBitsFor, List.length_flatMap]
  simp only [State.codeOf_length]

/-- Settles O48: the four parts write one stretch of the output after another, and each runs the same from the completed
state that the command before it leaves. -/
theorem encodeResult : Obligations.EncodeResult := by
  refine ⟨fun s syms hinv hs hv hlen hi hc hroom => ⟨?_, ?_⟩, fun s => exec_encode_parts⟩
  · exact runCommand_ok (encodeFileBody_ok hinv.inputInBuffer hinv.sizes.2.2.2 (hinv.hasForm hs) hv hlen hi hc hroom)
  · rw [State.fileBits, List.length_append, List.length_append, bitsOf_length, hinv.treeBits_length hs,
      s.codeBitsFor_length]

end Sys2Proof.Machine
end

section
/-! PROOFS. DECODE of a file that ENCODE wrote: the tree or the marker, the length, and one walk for each symbol
(spec R163, R165, R168, R195 to R200). -/

namespace Sys2Proof.Machine

/-! ### Walks -/

/-- A walk over the code of a symbol, then the symbol to the output (spec R195, R196). -/
theorem decodeSymbol_ok {s : State} {tr : CodeTree} {p : Byte × List Bool} (hb : s.inputInBuffer) (ht : s.tree? = some tr)
    (hp : p ∈ tr.codes) (hi : s.hasInput p.2) (hroom : s.obitpos.toNat + 8 ≤ 8 * s.obufBytes) :
    decodeSymbol s = .ok () ((s.emit (bitsOf p.1 8)).consume p.2.length) := by
  have hleft : p.2.length ≤ s.bitsLeft := by
    have := hi.1
    rw [State.bitsLeft]
    omega
  rw [decodeSymbol, Run.view_bind, Run.view_bind, Run.bind_ok (walk_ok _ _ _ tr p s ht hp hleft hb hi),
    writeWord8_ok _ (s.consume p.2.length) hroom, State.consume_emit]

/-- What DECSYMS leaves of both streams once it has walked over the codes `cs` and written their symbols (spec R195). -/
def State.decodedSymbols (s : State) (cs : List (Byte × List Bool)) : State :=
  (s.emit (symbolBits (cs.map Prod.fst))).consume (cs.flatMap Prod.snd).length

/-- Walks over the codes of symbols, with room for the symbols (spec R195, R196). -/
theorem decodeSymbols_ok {s : State} {tr : CodeTree} {cs : List (Byte × List Bool)} (hb : s.inputInBuffer)
    (ht : s.tree? = some tr) (hcs : ∀ p ∈ cs, p ∈ tr.codes) (hi : s.hasInput (cs.flatMap Prod.snd))
    (hroom : s.obitpos.toNat + 8 * cs.length ≤ 8 * s.obufBytes) :
    repeatRun cs.length decodeSymbol s = .ok () (s.decodedSymbols cs) := by
  have hout : symbolBits (cs.map Prod.fst) = cs.flatMap fun p => bitsOf p.1 8 := List.flatMap_map ..
  have hlen := symbolBits_length (cs.map Prod.fst)
  rw [List.length_map] at hlen
  rw [← hlen, hout] at hroom
  rw [State.decodedSymbols, hout]
  refine repeatRun_streams (K := fun t => t.inputInBuffer ∧ t.tree? = some tr) (fun t bits n h => ⟨?_, ?_⟩)
    (fun _ h => h.1) (fun p hp t h hi hroom => ?_) ⟨hb, ht⟩ hi hroom
  · exact (State.inputInBuffer_emit_consume bits n).2 h.1
  · simpa [State.tree?] using h.2
  · exact decodeSymbol_ok h.1 h.2 (hcs p hp) hi (by simpa using hroom)

/-- With a tree, the body of DECSYMS makes its walks (spec R195). -/
theorem decodeBody_ok {s : State} {tr : CodeTree} {cs : List (Byte × List Bool)} (hb : s.inputInBuffer) (hs : s.hasTree)
    (ht : s.tree? = some tr) (hcs : ∀ p ∈ cs, p ∈ tr.codes) (hlen : cs.length = s.len.toNat)
    (hi : s.hasInput (cs.flatMap Prod.snd)) (hroom : s.obitpos.toNat + 8 * cs.length ≤ 8 * s.obufBytes) :
    decodeBody s = .ok () (s.decodedSymbols cs) := by
  rw [decodeBody, Run.view_bind, Run.view_bind, if_neg (by rcases hs with hs | hs <;> simp [hs]), ← hlen]
  exact decodeSymbols_ok hb ht hcs hi hroom

/-- With the EMPTY tree and the length 0, DECSYMS does nothing (spec R198). -/
theorem decodeBody_empty {s : State} (hs : s.treeState = .empty) (hlen : s.len = 0) : decodeBody s = .ok () s := by
  rw [decodeBody, Run.view_bind, Run.view_bind, if_pos hs, if_pos hlen]
  rfl

/-! ### The header -/

/-- The tree registers and LEN as DESERIALIZE and GETLEN leave them (spec R163, R165, R168). -/
def State.load (s : State) (arena : List Node) (root : NodeIdx) (treeState : TreeState) (len : Word) : State :=
  { s with arena := arena, root := root, treeState := treeState, codesValid := false, len := len }

theorem State.load_emit (s : State) (arena : List Node) (root : NodeIdx) (treeState : TreeState) (len : Word)
    (bits : List Bool) : (s.load arena root treeState len).emit bits = (s.emit bits).load arena root treeState len :=
  State.KeepsOutput.emit (f := fun s => s.load arena root treeState len) (fun _ _ _ _ => rfl) s bits

/-- The body of DESERIALIZE on the bits of a tree with an internal root (spec R163, R164). -/
theorem deserializeBody_node {s : State} {l r : CodeTree} (hb : s.inputInBuffer) (hd : (CodeTree.node l r).leaves.Nodup)
    (hi : s.hasInput (CodeTree.node l r).preorder) :
    deserializeBody s = .ok ()
      ((s.consume (CodeTree.node l r).preorder.length).load ((CodeTree.node l r).layout 0) 0 .loaded s.len) := by
  have hsize := CodeTree.size_le_maxNodes hd
  have hbit : readBit s.dropTree = .ok false (s.dropTree.consume 1) :=
    readBit_ok s.dropTree false hb (State.hasInput_append (l := [false]) hb hi).1
  have hnode := readNode_ok (Config.maxNodes + 1) [] (.node l r) s.dropTree hb hi hd (fun _ _ => List.not_mem_nil)
    (by omega) (by simpa using hsize)
  rw [readNode_succ, Run.bind_ok hbit] at hnode
  exact (deserializeBody_tree hbit).trans (readTree_ok hnode)

/-- The body of DESERIALIZE on the empty-tree marker (spec R165). -/
theorem deserializeBody_empty {s : State} (hb : s.inputInBuffer) (hi : s.hasInput markerBits) :
    deserializeBody s = .ok () ((s.consume 9).load [] Config.nil .empty s.len) := by
  obtain ⟨hbit, hsym⟩ := State.hasInput_leaf (s := s.dropTree) (x := 0x00) hb hi
  exact (deserializeBody_marker hbit).trans (Run.bind_ok hsym)

/-! ### The whole file -/

/-- DECODE of a header of `a` bits of tree or marker and the length `n`, then of codes that decode to the bits `out`
(spec R197). -/
theorem decodeFileBody_ok {u : State} {arena : List Node} {root : NodeIdx} {treeState : TreeState} {n : Word} {a c : Nat}
    {out : List Bool} (hb : u.inputInBuffer) (hs : u.obufBytes ≤ Config.maxBufBytes)
    (htree : deserializeBody u = .ok () ((u.consume a).load arena root treeState u.len))
    (ha : u.ibitpos.toNat + (a + 32) < 2 ^ 32) (hn : (u.consume a).hasInput (bitsOf n 32))
    (hbody : decodeBody ((u.consume (a + 32)).load arena root treeState n) =
      .ok () ((((u.consume (a + 32)).load arena root treeState n).emit out).consume c))
    (hroom : u.obitpos.toNat + out.length ≤ 8 * u.obufBytes) :
    decodeFileBody u = .ok ()
      (((u.emit (out ++ padBits (u.obitpos.toNat + out.length))).consume (a + 32 + c)).load arena root treeState n) := by
  have hread := readInt32_ok n ((u.consume a).load arena root treeState u.len) hb
    ((State.hasInput_congr rfl rfl rfl _).2 hn)
  have hlen : getlenBody ((u.consume a).load arena root treeState u.len) =
      .ok () ((u.consume (a + 32)).load arena root treeState n) := by
    rw [← State.consume_consume u a 32 (by omega)]
    exact Run.bind_ok hread
  have hstate : (((u.consume (a + 32)).load arena root treeState n).emit out).consume c =
      ((u.emit out).consume (a + 32 + c)).load arena root treeState n := by
    rw [State.load_emit, State.consume_emit, ← State.consume_consume (u.emit out) (a + 32) c (by simpa using ha)]
    rfl
  have hcur : (((u.emit out).consume (a + 32 + c)).load arena root treeState n).obitpos.toNat = _ :=
    State.emit_obitpos_of_room hs hroom
  have hpad := padToByte_ok (((u.emit out).consume (a + 32 + c)).load arena root treeState n)
    (hcur.trans_le (hroom.trans_eq (congrArg (8 * ·) (u.emit_obufBytes out).symm)))
  rw [hcur, State.load_emit, State.consume_emit, ← State.emit_append] at hpad
  rw [decodeFileBody, Run.bind_ok htree, Run.bind_ok hlen, Run.bind_ok (hbody.trans (congrArg _ hstate)), hpad]

/-- The code of a symbol that has one is its path in the tree (spec R35, R150). -/
theorem State.HoldsCodes.code_mem {s : State} {tr : CodeTree} (h : s.HoldsCodes tr) {sym : Byte}
    (hc : s.codeLenOf sym ≠ 0) : (sym, s.codeOf sym) ∈ tr.codes := by
  by_cases hsym : sym ∈ tr.leaves
  · obtain ⟨bits, hbits⟩ := CodeTree.mem_leaves_iff.1 hsym
    rwa [h.codeOf_eq hbits]
  · exact absurd (h.2 sym hsym).1 hc

/-- With the EMPTY tree no symbol has a code (spec R36, R146). -/
theorem State.Inv.codeLenOf_empty {s : State} (h : s.Inv) (hs : s.treeState = .empty) (hv : s.codesValid = true)
    (sym : Byte) : s.codeLenOf sym = 0 := by
  have hc := h.codes hv
  rw [hs] at hc
  exact (hc sym).1

/-- A file that ENCODE can write from `s`, decoded on any machine `u`: LEN is that of `s`, and the symbols are written and
padded (spec R186, R197, R200). -/
theorem decodeFileBody_file {s u : State} {syms : List Byte} (hs : s.Inv) (hform : s.treeState ≠ .invalid)
    (hv : s.codesValid = true) (hlen : syms.length = s.len.toNat) (hc : ∀ sym ∈ syms, s.codeLenOf sym ≠ 0) (hu : u.Inv)
    (hi : u.hasInput (s.fileBits syms)) (hroom : u.obitpos.toNat + 8 * syms.length ≤ 8 * u.obufBytes) :
    ∃ n arena root treeState, decodeFileBody u = .ok ()
      (((u.emit (symbolBits syms ++ padBits (u.obitpos.toNat + 8 * syms.length))).consume n).load
        arena root treeState s.len) := by
  have hb := hu.inputInBuffer
  have hmax := hu.sizes.2.2.2
  have hlt := hi.lt hb
  obtain ⟨hhead, hcodes⟩ := State.hasInput_append hb hi
  obtain ⟨htree, hn⟩ := State.hasInput_append hb hhead
  simp only [State.fileBits, List.length_append, bitsOf_length] at hlt hcodes
  rw [← symbolBits_length syms] at hroom ⊢
  rcases hs.hasForm hform with hempty | ⟨hstree, tr, ht⟩
  · obtain rfl : syms = [] := List.eq_nil_iff_forall_not_mem.2 fun sym hsym =>
      hc sym hsym (hs.codeLenOf_empty hempty hv sym)
    have hzero : s.len = 0 := BitVec.eq_of_toNat_eq hlen.symm
    rw [State.treeBits_empty hempty] at htree hn hlt
    rw [show markerBits.length = 9 from rfl] at hlt
    exact ⟨_, _, _, _, decodeFileBody_ok (c := 0) hb hmax (deserializeBody_empty hb htree) (by omega) hn
      (by rw [State.consume_zero]; exact decodeBody_empty rfl hzero) hroom⟩
  · obtain ⟨tr', ht', hd, -⟩ := hs.tree.exists_tree hstree
    obtain rfl := Option.some.inj (ht'.symm.trans ht)
    obtain ⟨l, r, rfl⟩ := hs.tree.root_internal hstree ht
    have hholds := hs.holdsCodes hstree hv ht
    rw [State.treeBits_tree hstree ht] at htree hn hlt hcodes
    let cs := syms.map fun sym => (sym, s.codeOf sym)
    have hcs : ∀ p ∈ cs, p ∈ (CodeTree.node l r).codes := fun p hp => by
      obtain ⟨sym, hsym, rfl⟩ := List.mem_map.1 hp
      exact hholds.code_mem (hc sym hsym)
    have hfst : cs.map Prod.fst = syms := by simp [cs, Function.comp_def]
    have hsnd : cs.flatMap Prod.snd = s.codeBitsFor syms := by simp [cs, State.codeBitsFor, List.flatMap_map]
    let t := (u.consume ((CodeTree.node l r).preorder.length + 32)).load ((CodeTree.node l r).layout 0) 0 .loaded s.len
    have hbody : decodeBody t = .ok () (t.decodedSymbols cs) :=
      decodeBody_ok (s := t) hb (.inr rfl) (treeAt_layout_zero (CodeTree.size_le_maxNodes hd)) hcs
        (by rw [List.length_map]; exact hlen) (by rw [hsnd]; exact (State.hasInput_congr rfl rfl rfl _).2 hcodes)
        (by rw [List.length_map, ← symbolBits_length]; exact hroom)
    rw [State.decodedSymbols, hfst] at hbody
    exact ⟨_, _, _, _, decodeFileBody_ok hb hmax (deserializeBody_node hb hd htree) (by omega) hn hbody hroom⟩

end Sys2Proof.Machine
end

section
/-! PROOFS. Compressing a sequence of symbols and decompressing the file (spec R186). -/

namespace Sys2Proof.Machine

/-! ### The frequencies of a sequence -/

theorem mem_allSymbols (sym : Byte) : sym ∈ allSymbols :=
  List.mem_map.2 ⟨sym.toNat, List.mem_range.2 sym.isLt, by simp⟩

theorem allSymbols_nodup : allSymbols.Nodup :=
  List.nodup_range.map_on fun a ha b hb h => by
    have hval := congrArg BitVec.toNat h
    rw [List.mem_range] at ha hb
    simpa [Nat.mod_eq_of_lt ha, Nat.mod_eq_of_lt hb] using hval

theorem State.totalWeight_eq (s : State) : s.totalWeight = (allSymbols.map fun sym => (s.freqOf sym).toNat).sum := by
  rw [State.totalWeight]
  congr 1
  refine List.ext_getElem (by simp [allSymbols]) fun i hi _ => ?_
  have hlt : i < 256 := by simpa using hi
  simp [allSymbols, State.freqOf, Nat.mod_eq_of_lt hlt]

/-- The counts of a sequence's symbols add up to its length (spec R140, R186). -/
theorem State.totalWeight_of_counts {s : State} {syms : List Byte} (h : ∀ sym, (s.freqOf sym).toNat = syms.count sym) :
    s.totalWeight = syms.length := by
  have hcount := Multiset.sum_count_eq_card (s := allSymbols.toFinset) (m := (syms : Multiset Byte))
    fun sym _ => List.mem_toFinset.2 (mem_allSymbols sym)
  rw [s.totalWeight_eq, ← List.sum_toFinset _ allSymbols_nodup]
  simpa [h] using hcount

/-! ### BUILD and GENCODES -/

/-- A present symbol stands on a leaf of the built tree (spec R141). -/
theorem Merged.mem_leaves {s : State} {arena : List Node} {k : Key} {t : CodeTree}
    (hm : Merged (withPlaceholder s.presentSymbols) arena [k]) (ht : treeAt arena Config.maxNodes k.idx = some t)
    {sym : Byte} (hsym : s.freqOf sym ≠ 0) : sym ∈ t.leaves := by
  obtain ⟨i, hi⟩ := List.getElem?_of_mem (State.mem_presentSymbols (p := (sym, s.freqOf sym)).2 ⟨rfl, hsym⟩)
  have hn := hm.leaf i _ (withPlaceholder_getElem? hi)
  obtain ⟨d, hd⟩ := hm.atDepth (List.getElem?_eq_some_iff.1 hn).1
  obtain ⟨bits, hbits, -⟩ := hd.leaf_code ht hn rfl
  exact CodeTree.mem_leaves_iff.2 ⟨bits, hbits⟩

/-- From `s` to `t` a tree was made, with a code for every symbol that FREQ counts; nothing else changed but completion
(spec R186). -/
structure State.Coded (s t : State) : Prop where
  inv : t.Inv
  frame : t = { s with
    arena := t.arena, root := t.root, treeState := t.treeState, codeLen := t.codeLen, codeBits := t.codeBits,
    codesValid := true, pend := none, done := true }
  hasTree : t.treeState ≠ .invalid
  coded : ∀ sym, s.freqOf sym ≠ 0 → t.codeLenOf sym ≠ 0

/-- BUILD and GENCODES complete without a fault, unless the weights overflow (spec R148, R186). -/
theorem State.build_gencodes {s : State} (hs : s.Inv) (hw : s.totalWeight ≤ Config.wMax) :
    ∃ t u, exec .build s = .next t ∧ exec .gencodes t = .next u ∧ t.err = s.err ∧ s.Coded u := by
  by_cases hne : s.presentSymbols = []
  · have hbuild := State.exec_build_empty hne
    have hgen : exec .gencodes s.builtEmpty = _ := State.exec_gencodes_empty rfl
    exact ⟨_, _, hbuild, hgen, rfl, {
      inv := (hs.exec .build hbuild).exec .gencodes hgen
      frame := rfl
      hasTree := nofun
      coded := fun sym hsym => absurd hne (State.presentSymbols_ne_nil_iff.2 ⟨sym, hsym⟩) }⟩
  · obtain ⟨k, arena, ts, hexec, hf, hm⟩ := State.exec_build hw hne
    obtain ⟨tr, ht, hd, hsize⟩ := hf.tree
    have hbuild := hexec s rfl
    obtain ⟨u, hgen, hframe, -⟩ := State.exec_gencodes_tree (s := s.built arena k.idx) (.inl rfl) ht hd hsize
    have hinv := (hs.exec .build hbuild).exec .gencodes hgen
    have htree : u.hasTree := .inl (congrArg State.treeState hframe :)
    have hu : u.tree? = some tr := by
      rw [hframe]
      exact ht
    have hvalid : u.codesValid = true := (congrArg State.codesValid hframe :)
    refine ⟨_, u, hbuild, hgen, rfl, hinv, ?_, by rcases htree with h | h <;> simp [h], fun sym hsym => ?_⟩
    · rw [hframe]
      rfl
    · exact ((codesArePrefixFree u tr hinv htree hvalid hu).1 sym).1 (hm.mem_leaves ht hsym)

/-! ### Both halves of the round trip -/

/-- With room, ENCODE puts the file and its pad into the output from the cursor on and ends at a whole byte (spec R79,
R184). -/
theorem exec_encode_file {s : State} {syms : List Byte} (hs : s.Inv) (hform : s.treeState ≠ .invalid)
    (hv : s.codesValid = true) (hlen : syms.length = s.len.toNat) (hi : s.hasInput (symbolBits syms))
    (hc : ∀ sym ∈ syms, s.codeLenOf sym ≠ 0) (hroom : s.obitpos.toNat + (s.fileBits syms).length ≤ 8 * s.obufBytes) :
    ∃ t pad, exec .encode s = .next t ∧ t.err = s.err ∧
      t.obitpos.toNat = s.obitpos.toNat + (s.fileBits syms ++ pad).length ∧ t.obitpos.toNat % 8 = 0 ∧
      ∀ j < (s.fileBits syms ++ pad).length, t.outputBit? (s.obitpos.toNat + j) = (s.fileBits syms ++ pad)[j]? := by
  let pad := padBits (s.obitpos.toNat + (s.fileBits syms).length)
  have hmax : s.obufBytes ≤ 2 ^ 28 := hs.sizes.2.2.2
  have hpad : s.obitpos.toNat + (s.fileBits syms ++ pad).length ≤ 8 * s.obufBytes := by
    rw [List.length_append, ← Nat.add_assoc]
    exact padBits_room hroom
  have hcur := State.emit_obitpos_of_room hmax hpad
  have hlt : s.obitpos.toNat + (s.fileBits syms ++ pad).length < 2 ^ 32 := by omega
  refine ⟨_, pad, (encodeResult.1 s syms hs hform hv hlen hi hc hroom).1, s.emit_err _, hcur, ?_,
    fun _ hj => s.emit_outputBit? _ hlt hj⟩
  refine (congrArg (· % 8) hcur).trans ?_
  rw [List.length_append, padBits_length]
  omega

/-- On any machine with room, DECODE of such a file completes without a fault, and its output from the cursor on is the
sequence (spec R79, R186). -/
theorem exec_decode_file {s u : State} {syms : List Byte} (hs : s.Inv) (hform : s.treeState ≠ .invalid)
    (hv : s.codesValid = true) (hlen : syms.length = s.len.toNat) (hc : ∀ sym ∈ syms, s.codeLenOf sym ≠ 0) (hu : u.Inv)
    (hi : u.hasInput (s.fileBits syms)) (hroom : u.obitpos.toNat + 8 * syms.length ≤ 8 * u.obufBytes) :
    ∃ v, exec .decode u = .next v ∧ v.err = u.err ∧ v.len = s.len ∧
      (u.obitpos = 0 → v.obitpos.toNat = 8 * syms.length) ∧
      ∀ j < 8 * syms.length, v.outputBit? (u.obitpos.toNat + j) = (symbolBits syms)[j]? := by
  obtain ⟨n, arena, root, treeState, hdecode⟩ := decodeFileBody_file hs hform hv hlen hc hu hi hroom
  let out := symbolBits syms ++ padBits (u.obitpos.toNat + 8 * syms.length)
  have hmax : u.obufBytes ≤ 2 ^ 28 := hu.sizes.2.2.2
  have hout : u.obitpos.toNat + out.length ≤ 8 * u.obufBytes := by
    rw [List.length_append, symbolBits_length, ← Nat.add_assoc]
    exact padBits_room hroom
  refine ⟨_, runCommand_ok hdecode, u.emit_err out, rfl, fun hzero => ?_, fun j hj => ?_⟩
  · refine (State.emit_obitpos_of_room hmax hout).trans ?_
    rw [List.length_append, symbolBits_length, padBits_length, hzero]
    simp
  · rw [← symbolBits_length] at hj
    have hbit := u.emit_outputBit? out (by omega) (hj.trans_le (by simp [out]))
    rw [List.getElem?_append_left hj] at hbit
    exact hbit

/-- Settles O53: the codes of the tree that BUILD makes cover the sequence, ENCODE writes the file from them, and DECODE,
which reads the tree back, walks over the same codes. -/
theorem compressDecompress : Obligations.CompressDecompress := by
  intro s syms hs hlen hi hfreq hpos
  have hw : s.totalWeight ≤ Config.wMax := by
    have hlt := hi.lt hs.inputInBuffer
    have hwmax : Config.wMax = 0xFFFFFFFE := rfl
    rw [symbolBits_length] at hlt
    rw [State.totalWeight_of_counts hfreq]
    omega
  obtain ⟨t1, t2, hbuild, hgen, herr1, ht2⟩ := State.build_gencodes hs hw
  have herr2 : t2.err = s.err := (congrArg State.err ht2.frame :)
  have hlen2 : t2.len = s.len := (congrArg State.len ht2.frame :)
  have hobuf : t2.obufBytes = s.obufBytes := (congrArg State.obufBytes ht2.frame :)
  have hpos2 : t2.obitpos.toNat = 0 := congrArg BitVec.toNat ((congrArg State.obitpos ht2.frame :).trans hpos)
  have hvalid : t2.codesValid = true := (congrArg State.codesValid ht2.frame :)
  have hi2 : t2.hasInput (symbolBits syms) := by
    refine (State.hasInput_congr ?_ ?_ ?_ _).2 hi
    · exact (congrArg State.ibuf ht2.frame :)
    · exact (congrArg State.inLen ht2.frame :)
    · exact (congrArg State.ibitpos ht2.frame :)
  have hcodes : ∀ sym ∈ syms, t2.codeLenOf sym ≠ 0 := fun sym hsym => ht2.coded sym fun hz => by
    have hcount := hfreq sym
    rw [hz] at hcount
    exact (List.count_pos_iff.2 hsym).ne hcount
  have hsyms : syms.length = t2.len.toNat := by rw [hlen2, hlen]
  refine ⟨t1, t2, hbuild, hgen, herr1, herr2, fun hroom => ?_⟩
  obtain ⟨t3, pad, hencode, herr3, hcur, hwhole, hbits⟩ := exec_encode_file ht2.inv ht2.hasTree hvalid hsyms hi2 hcodes
    (by rw [hpos2, Nat.zero_add, hobuf]; exact hroom)
  rw [hpos2, Nat.zero_add] at hcur
  simp only [hpos2, Nat.zero_add] at hbits
  refine ⟨t3, _, hencode, herr3.trans herr2, hcur, hcur ▸ hwhole, hbits, fun u hu hui huroom => ?_⟩
  rw [← hlen2]
  exact exec_decode_file ht2.inv ht2.hasTree hvalid hsyms hcodes hu (State.hasInput_append hu.inputInBuffer hui).1 huroom

end Sys2Proof.Machine
end

section
/-! PROOFS. DECSYMS: walks over the current tree and the symbols they reach, up to the end of the input or of OBUF (spec
R76, R81, R195, R196, R200). -/

namespace Sys2Proof.Machine

/-! ### A walk that the input does not end -/

/-- A code that is not empty is that of a leaf below an internal node. -/
theorem CodeTree.internal_of_code_ne_nil {t : CodeTree} {p : Byte × List Bool} (hp : p ∈ t.codes) (hne : p.2 ≠ []) :
    ∃ l r, t = .node l r := by
  cases t with
  | leaf x => exact absurd (congrArg Prod.snd (List.mem_singleton.1 hp)) hne
  | node l r => exact ⟨l, r, rfl⟩

/-- The first bit of a code picks the side that the rest of it leads through (spec R150). -/
theorem CodeTree.mem_codes_cons {l r : CodeTree} {sym : Byte} {b : Bool} {bits : List Bool} :
    (sym, b :: bits) ∈ (CodeTree.node l r).codes ↔ (sym, bits) ∈ (if b then r else l).codes := by
  cases b <;> simp [CodeTree.mem_codes_node]

/-- An internal node of a tree in the arena, with a tree on either side. -/
theorem treeAt_children {arena : List Node} {g : Nat} {i : NodeIdx} {l r : CodeTree}
    (h : treeAt arena g i = some (.node l r)) :
    ∃ g' n, arena[i.toNat]? = some n ∧ n.leaf = false ∧
      ∀ b : Bool, treeAt arena g' (if b then n.right else n.left) = some (if b then r else l) := by
  obtain ⟨g', n, -, hn, ⟨-, ht⟩ | ⟨hleaf, l', r', hl, hr, ht⟩⟩ := treeAt_cases h
  · cases ht
  · cases ht
    exact ⟨g', n, hn, hleaf, Bool.rec hl hr⟩

/-- A walk along the path of a leaf, of which the input holds only the first part `q`, consumes all of the input and
raises IN_EXHAUSTED at its end (spec R76, R196). -/
theorem walk_end {f g : Nat} {i : NodeIdx} {t : CodeTree} {p : Byte × List Bool} {q : List Bool} {s : State}
    (h : treeAt s.arena g i = some t) (hp : p ∈ t.codes) (hq : q <+: p.2) (hne : q ≠ p.2) (hf : q.length ≤ f)
    (hb : s.inputInBuffer) (hi : q = [] ∨ s.hasInput q) (hend : 8 * s.inLen.toNat < s.ibitpos.toNat + q.length + 1) :
    walk f i s = .error (.raise .inExhausted (BitVec.ofNat 32 (s.ibitpos.toNat + q.length))) (s.consume q.length) := by
  induction q generalizing f g i t p s with
  | nil =>
    obtain ⟨l, r, rfl⟩ := CodeTree.internal_of_code_ne_nil hp hne.symm
    obtain ⟨g', n, hn, hleaf, -⟩ := treeAt_children h
    have hbit := readBit_end s hend
    rw [List.length_nil, State.consume_zero, Nat.add_zero, BitVec.ofNat_toNat, BitVec.setWidth_eq]
    cases f <;> rw [walk, Run.bind_ok (loadNode_ok i s n hn), hleaf] <;> exact Run.bind_error hbit
  | cons b q ih =>
    obtain ⟨sym, path⟩ := p
    obtain ⟨rest, rfl⟩ := hq
    obtain ⟨l, r, rfl⟩ := CodeTree.internal_of_code_ne_nil hp (List.cons_ne_nil _ _)
    obtain ⟨g', n, hn, hleaf, hside⟩ := treeAt_children h
    obtain ⟨f, rfl⟩ : ∃ k, f = k + 1 := ⟨f - 1, by simp at hf; omega⟩
    obtain ⟨hbit, hrest⟩ := State.hasInput_append (l := [b]) hb (hi.resolve_left (List.cons_ne_nil _ _))
    have hlt : s.ibitpos.toNat + 1 < 2 ^ 32 := hbit.lt hb
    have hcur := State.consume_ibitpos_toNat hlt
    have hwalk := ih (f := f) (s := s.consume 1) (hside b) (CodeTree.mem_codes_cons.1 hp) (List.prefix_append q rest)
      (fun he => hne (congrArg (b :: ·) he)) (by simpa using hf) hb (.inr hrest)
      (by rw [hcur, State.consume_inLen]; simp at hend; omega)
    rw [hcur, State.consume_consume s 1 _ hlt, Nat.add_assoc, Nat.add_comm 1] at hwalk
    rw [walk, Run.bind_ok (loadNode_ok i s n hn), hleaf]
    exact (Run.bind_ok (readBit_ok s b hb hbit)).trans hwalk

/-! ### One symbol -/

/-- The input ends before the walk reaches its leaf (spec R76, R195). -/
theorem decodeSymbol_end {s : State} {tr : CodeTree} {p : Byte × List Bool} {q : List Bool} (hb : s.inputInBuffer)
    (ht : s.tree? = some tr) (hp : p ∈ tr.codes) (hq : q <+: p.2) (hne : q ≠ p.2) (hi : q = [] ∨ s.hasInput q)
    (hend : 8 * s.inLen.toNat < s.ibitpos.toNat + q.length + 1) :
    decodeSymbol s =
      .error (.raise .inExhausted (BitVec.ofNat 32 (s.ibitpos.toNat + q.length))) (s.consume q.length) := by
  have hleft : q.length ≤ s.bitsLeft := by
    rcases hi with rfl | hi
    · exact Nat.zero_le _
    · exact Nat.le_sub_of_add_le' hi.1
  rw [decodeSymbol, Run.view_bind, Run.view_bind, Run.bind_error (walk_end ht hp hq hne hleft hb hi hend)]

/-- Without room for the symbol its walk is made, and none of its bits is produced (spec R81, R195). -/
theorem decodeSymbol_full {s : State} {tr : CodeTree} {p : Byte × List Bool} (hb : s.inputInBuffer)
    (ht : s.tree? = some tr) (hp : p ∈ tr.codes) (hi : s.hasInput p.2) (hfull : 8 * s.obufBytes < s.obitpos.toNat + 8) :
    decodeSymbol s = .error (.raise .outFull s.obitpos) (s.consume p.2.length) := by
  have hleft : p.2.length ≤ s.bitsLeft := Nat.le_sub_of_add_le' hi.1
  rw [decodeSymbol, Run.view_bind, Run.view_bind, Run.bind_ok (walk_ok _ _ _ tr p s ht hp hleft hb hi)]
  exact writeWord8_full _ (s.consume p.2.length) hfull

/-! ### A sequence of symbols -/

theorem State.hasTree.ne_empty {s : State} (h : s.hasTree) : s.treeState ≠ .empty := by
  rcases h with h | h <;> simp [h]

theorem State.hasTree.ne_invalid {s : State} (h : s.hasTree) : s.treeState ≠ .invalid := by
  rcases h with h | h <;> simp [h]

/-- The walks over the codes `cs`, and the input that goes on with `q` behind them; nothing is asked of the input where
there is nothing to read (spec R75, R195). -/
theorem decodeSymbols_then {s : State} {tr : CodeTree} {cs : List (Byte × List Bool)} {q : List Bool}
    (hb : s.inputInBuffer) (ht : s.tree? = some tr) (hcs : ∀ p ∈ cs, p ∈ tr.codes)
    (hi : (cs = [] ∧ q = []) ∨ s.hasInput (cs.flatMap Prod.snd ++ q))
    (hroom : s.obitpos.toNat + 8 * cs.length ≤ 8 * s.obufBytes) :
    repeatRun cs.length decodeSymbol s = .ok () (s.decodedSymbols cs) ∧ (q = [] ∨ (s.decodedSymbols cs).hasInput q) ∧
      s.ibitpos.toNat + (cs.flatMap Prod.snd).length < 2 ^ 32 := by
  rcases hi with ⟨rfl, rfl⟩ | hi
  · exact ⟨by simp [repeatRun, State.decodedSymbols], .inl rfl, s.ibitpos.isLt⟩
  · obtain ⟨hwalks, hq⟩ := State.hasInput_append hb hi
    exact ⟨decodeSymbols_ok hb ht hcs hwalks hroom, .inr ((State.hasInput_emit_consume _ _ _).2 hq), hwalks.lt hb⟩

@[simp] theorem State.decodedSymbols_tree? (s : State) (cs : List (Byte × List Bool)) :
    (s.decodedSymbols cs).tree? = s.tree? := by
  simp [State.tree?, State.decodedSymbols]

@[simp] theorem State.decodedSymbols_inLen (s : State) (cs : List (Byte × List Bool)) :
    (s.decodedSymbols cs).inLen = s.inLen := s.emit_inLen _

@[simp] theorem State.decodedSymbols_obufBytes (s : State) (cs : List (Byte × List Bool)) :
    (s.decodedSymbols cs).obufBytes = s.obufBytes := s.emit_obufBytes _

theorem State.decodedSymbols_inputInBuffer {s : State} (cs : List (Byte × List Bool)) :
    (s.decodedSymbols cs).inputInBuffer ↔ s.inputInBuffer := State.inputInBuffer_emit_consume _ _

theorem State.decodedSymbols_ibitpos {s : State} {cs : List (Byte × List Bool)}
    (h : s.ibitpos.toNat + (cs.flatMap Prod.snd).length < 2 ^ 32) :
    (s.decodedSymbols cs).ibitpos.toNat = s.ibitpos.toNat + (cs.flatMap Prod.snd).length := by
  rw [State.decodedSymbols, State.consume_ibitpos_toNat (by simpa using h), State.emit_ibitpos]

theorem State.decodedSymbols_obitpos (s : State) (cs : List (Byte × List Bool)) :
    (s.decodedSymbols cs).obitpos = BitVec.ofNat 32 (s.obitpos.toNat + 8 * cs.length) := by
  rw [State.decodedSymbols, State.consume_obitpos, State.emit_obitpos, symbolBits_length, List.length_map]

/-- Bits consumed behind the walks. -/
theorem State.decodedSymbols_consume {s : State} {cs : List (Byte × List Bool)} (bits : List Bool)
    (h : s.ibitpos.toNat + (cs.flatMap Prod.snd).length < 2 ^ 32) :
    (s.decodedSymbols cs).consume bits.length =
      (s.emit (symbolBits (cs.map Prod.fst))).consume (cs.flatMap Prod.snd ++ bits).length := by
  rw [State.decodedSymbols, State.consume_consume _ _ _ (by simpa using h), List.length_append]

/-- Where the symbol after the walks fails, so does the body of DECSYMS (spec R195, R222). -/
theorem decodeBody_fails {s t u : State} {e : Abort} {k : Nat} (hs : s.hasTree) (hlen : k < s.len.toNat)
    (hrun : repeatRun k decodeSymbol s = .ok () t) (h : decodeSymbol t = .error e u) : decodeBody s = .error e u := by
  obtain ⟨n, hn⟩ : ∃ n, s.len.toNat = k + (n + 1) := ⟨s.len.toNat - k - 1, by omega⟩
  rw [decodeBody, Run.view_bind, Run.view_bind, if_neg hs.ne_empty, hn, repeatRun_add, Run.bind_ok hrun, repeatRun,
    Run.bind_error h]

/-- With a tree or the EMPTY tree DECSYMS is its loop (spec R195, R213). -/
theorem exec_decsyms_eq {s : State} (hs : s.treeState ≠ .invalid) : exec .decsyms s = runCommand decodeBody s := by
  have hreq : requireTree 0x31 s = .ok () s := if_pos (decide_eq_true hs)
  have hbody : (do requireTree 0x31; decodeBody : Run Unit) s = decodeBody s := Run.bind_ok hreq
  simp only [exec, execDecsyms, runCommand, hbody]

/-- The input holds all `LEN` walks, and there is room (spec R195). -/
theorem exec_decsyms_ok {s : State} {tr : CodeTree} {cs : List (Byte × List Bool)} (hb : s.inputInBuffer)
    (hs : s.hasTree) (ht : s.tree? = some tr) (hcs : ∀ p ∈ cs, p ∈ tr.codes) (hlen : cs.length = s.len.toNat)
    (hi : s.hasInput (cs.flatMap Prod.snd)) (hroom : s.obitpos.toNat + 8 * cs.length ≤ 8 * s.obufBytes) :
    exec .decsyms s = .next (s.decodedSymbols cs).complete := by
  rw [exec_decsyms_eq hs.ne_invalid]
  exact runCommand_ok (decodeBody_ok hb hs ht hcs hlen hi hroom)

/-- The input ends before or inside a walk (spec R76, R195). -/
theorem exec_decsyms_inExhausted {s : State} {tr : CodeTree} {cs : List (Byte × List Bool)} {p : Byte × List Bool}
    {q : List Bool} (hb : s.inputInBuffer) (hs : s.hasTree) (ht : s.tree? = some tr) (hcs : ∀ c ∈ cs, c ∈ tr.codes)
    (hp : p ∈ tr.codes) (hq : q <+: p.2) (hne : q ≠ p.2) (hlen : cs.length < s.len.toNat)
    (hi : (cs = [] ∧ q = []) ∨ s.hasInput (cs.flatMap Prod.snd ++ q))
    (hend : 8 * s.inLen.toNat < s.ibitpos.toNat + (cs.flatMap Prod.snd ++ q).length + 1)
    (hroom : s.obitpos.toNat + 8 * cs.length ≤ 8 * s.obufBytes) :
    exec .decsyms s = .next
      (((s.emit (symbolBits (cs.map Prod.fst))).consume (cs.flatMap Prod.snd ++ q).length).recordFault .inExhausted
        (BitVec.ofNat 32 (s.ibitpos.toNat + (cs.flatMap Prod.snd ++ q).length))).complete := by
  obtain ⟨hrun, hrest, hlt⟩ := decodeSymbols_then hb ht hcs hi hroom
  have hcur := State.decodedSymbols_ibitpos hlt
  rw [List.length_append] at hend
  have hsym := decodeSymbol_end ((State.decodedSymbols_inputInBuffer cs).2 hb) (by simpa using ht) hp hq hne hrest
    (by rw [hcur, State.decodedSymbols_inLen]; omega)
  rw [hcur, State.decodedSymbols_consume q hlt, Nat.add_assoc, ← List.length_append] at hsym
  rw [exec_decsyms_eq hs.ne_invalid]
  exact runCommand_raise (decodeBody_fails hs hlen hrun hsym)

/-- A symbol does not fit whole (spec R81, R195). -/
theorem exec_decsyms_outFull {s : State} {tr : CodeTree} {cs : List (Byte × List Bool)} {p : Byte × List Bool}
    (hb : s.inputInBuffer) (hmax : s.obufBytes ≤ Config.maxBufBytes) (hs : s.hasTree) (ht : s.tree? = some tr)
    (hcs : ∀ c ∈ cs, c ∈ tr.codes) (hp : p ∈ tr.codes) (hlen : cs.length < s.len.toNat)
    (hi : s.hasInput ((cs ++ [p]).flatMap Prod.snd)) (hroom : s.obitpos.toNat + 8 * cs.length ≤ 8 * s.obufBytes)
    (hfull : 8 * s.obufBytes < s.obitpos.toNat + 8 * (cs.length + 1)) :
    exec .decsyms s = .next
      (((s.emit (symbolBits (cs.map Prod.fst))).consume ((cs ++ [p]).flatMap Prod.snd).length).recordFault .outFull
        (BitVec.ofNat 32 (s.obitpos.toNat + 8 * cs.length))).complete := by
  have hbytes : Config.maxBufBytes = 2 ^ 28 := rfl
  rw [List.flatMap_append, List.flatMap_singleton] at hi ⊢
  obtain ⟨hwalks, hpath⟩ := State.hasInput_append hb hi
  have hsym := decodeSymbol_full ((State.decodedSymbols_inputInBuffer cs).2 hb) (by simpa using ht) hp
    ((State.hasInput_emit_consume _ _ _).2 hpath)
    (by rw [State.decodedSymbols_obitpos, State.decodedSymbols_obufBytes, BitVec.toNat_ofNat,
          Nat.mod_eq_of_lt (by omega)]
        omega)
  rw [State.decodedSymbols_obitpos, State.decodedSymbols_consume p.2 (hwalks.lt hb)] at hsym
  rw [exec_decsyms_eq hs.ne_invalid]
  exact runCommand_raise (decodeBody_fails hs hlen (decodeSymbols_ok hb ht hcs hwalks hroom) hsym)

/-- Settles O46: the walks that the input holds are made one by one, and where the next one ends early or its symbol does
not fit, DECSYMS fails as that symbol does. -/
theorem decsymsResult : Obligations.DecsymsResult :=
  ⟨fun _ _ _ => exec_decsyms_ok, fun _ _ _ _ _ => exec_decsyms_inExhausted, fun _ _ _ _ => exec_decsyms_outFull⟩

/-! ### The codes of a sequence -/

/-- The walks that the codes of some symbols ask for. -/
def State.walksOf (s : State) (syms : List Byte) : List (Byte × List Bool) := syms.map fun sym => (sym, s.codeOf sym)

theorem State.walksOf_fst (s : State) (syms : List Byte) : (s.walksOf syms).map Prod.fst = syms := by
  simp [State.walksOf, Function.comp_def]

theorem State.walksOf_snd (s : State) (syms : List Byte) : (s.walksOf syms).flatMap Prod.snd = s.codeBitsFor syms := by
  simp [State.walksOf, State.codeBitsFor, List.flatMap_map]

theorem State.walksOf_length (s : State) (syms : List Byte) : (s.walksOf syms).length = syms.length := List.length_map _

/-- Settles O52: in a state that meets the invariant the code of a symbol is its path in the current tree, so the codes of
the sequence are walks that reach its symbols. -/
theorem decodingInvertsEncoding : Obligations.DecodingInvertsEncoding := by
  intro s syms hinv hs hv hc hlen hi hroom
  obtain ⟨tr, ht, -⟩ := hinv.tree.exists_tree hs
  have hwalks : ∀ p ∈ s.walksOf syms, p ∈ tr.codes := fun p hp => by
    obtain ⟨sym, hsym, rfl⟩ := List.mem_map.1 hp
    exact (hinv.holdsCodes hs hv ht).code_mem (hc sym hsym)
  rw [← s.walksOf_length] at hlen hroom
  rw [← s.walksOf_snd] at hi
  have hexec := exec_decsyms_ok hinv.inputInBuffer hs ht hwalks hlen hi hroom
  rw [State.decodedSymbols, State.walksOf_fst, State.walksOf_snd] at hexec
  exact hexec

end Sys2Proof.Machine
end

section
/-! PROOFS. DECODE: a whole file with a tree, the file of the EMPTY tree, and DECODE as DESERIALIZE, GETLEN, DECSYMS and
FLUSH one after another (spec R197 to R199). -/

namespace Sys2Proof.Machine

variable {α : Type}

/-! ### A file with a tree -/

/-- With room, DECODE of a tree, the length and that many walks loads the tree and the length, and writes the symbols and
the pad (spec R197). -/
theorem decodeFileBody_tree {s : State} {l r : CodeTree} {n : Word} {cs : List (Byte × List Bool)}
    (hb : s.inputInBuffer) (hmax : s.obufBytes ≤ Config.maxBufBytes) (hd : (CodeTree.node l r).leaves.Nodup)
    (hcs : ∀ p ∈ cs, p ∈ (CodeTree.node l r).codes) (hlen : cs.length = n.toNat)
    (hi : s.hasInput ((CodeTree.node l r).preorder ++ bitsOf n 32 ++ cs.flatMap Prod.snd))
    (hroom : s.obitpos.toNat + 8 * cs.length ≤ 8 * s.obufBytes) :
    decodeFileBody s = .ok ()
      (((s.emit (symbolBits (cs.map Prod.fst) ++ padBits (s.obitpos.toNat + 8 * cs.length))).consume
        ((CodeTree.node l r).preorder ++ bitsOf n 32 ++ cs.flatMap Prod.snd).length).load
          ((CodeTree.node l r).layout 0) 0 .loaded n) := by
  obtain ⟨hhead, hwalks⟩ := State.hasInput_append hb hi
  obtain ⟨htree, hn⟩ := State.hasInput_append hb hhead
  have hlt := hhead.lt hb
  rw [List.length_append, bitsOf_length] at hlt hwalks
  let t := (s.consume ((CodeTree.node l r).preorder.length + 32)).load ((CodeTree.node l r).layout 0) 0 .loaded n
  have hbody : decodeBody t = .ok () (t.decodedSymbols cs) :=
    decodeBody_ok (s := t) hb (.inr rfl) (treeAt_layout_zero (CodeTree.size_le_maxNodes hd)) hcs hlen
      ((State.hasInput_congr rfl rfl rfl _).2 hwalks) hroom
  have hout : (symbolBits (cs.map Prod.fst)).length = 8 * cs.length := by rw [symbolBits_length, List.length_map]
  have hfile := decodeFileBody_ok hb hmax (deserializeBody_node hb hd htree) hlt hn hbody (hout ▸ hroom)
  rw [hout] at hfile
  rw [hfile, List.length_append, List.length_append, bitsOf_length]

/-! ### The EMPTY tree -/

/-- With the EMPTY tree a length other than 0 is an error (spec R198). -/
theorem decodeBody_badLen {s : State} (hs : s.treeState = .empty) (hlen : s.len ≠ 0) :
    decodeBody s = .error (.raise .badEmptyLen s.len) s := by
  rw [decodeBody, Run.view_bind, Run.view_bind, if_pos hs, if_neg hlen]
  rfl

/-- GETLEN reads the length (spec R168). -/
theorem getlenBody_ok {s : State} {n : Word} (hb : s.inputInBuffer) (hi : s.hasInput (bitsOf n 32)) :
    getlenBody s = .ok () { s.consume 32 with len := n } := Run.bind_ok (readInt32_ok n s hb hi)

/-- DECODE of the marker and the length 0 writes the pad only (spec R198). -/
theorem decodeFileBody_marker {s : State} (hb : s.inputInBuffer) (hmax : s.obufBytes ≤ Config.maxBufBytes)
    (hroom : s.obitpos.toNat ≤ 8 * s.obufBytes) (hi : s.hasInput (markerBits ++ bitsOf (0 : Word) 32)) :
    decodeFileBody s = .ok () (((s.emit (padBits s.obitpos.toNat)).consume 41).load [] Config.nil .empty 0) := by
  obtain ⟨hmarker, hn⟩ := State.hasInput_append hb hi
  exact decodeFileBody_ok (c := 0) (out := []) hb hmax (deserializeBody_empty hb hmarker) (hi.lt hb) hn
    (by rw [State.consume_zero]; exact decodeBody_empty rfl rfl) hroom

/-- DECODE of the marker and a length other than 0 raises once it has read both (spec R198). -/
theorem decodeFileBody_markerBadLen {s : State} {n : Word} (hb : s.inputInBuffer) (hn : n ≠ 0)
    (hi : s.hasInput (markerBits ++ bitsOf n 32)) :
    decodeFileBody s = .error (.raise .badEmptyLen n) ((s.consume 41).load [] Config.nil .empty n) := by
  obtain ⟨hmarker, hlen⟩ := State.hasInput_append hb hi
  have hget := getlenBody_ok (s := (s.consume 9).load [] Config.nil .empty s.len) hb
    ((State.hasInput_congr rfl rfl rfl _).2 hlen)
  have hcur : (s.consume 9).consume 32 = s.consume 41 := State.consume_consume s 9 32 (hmarker.lt hb)
  have hbody := decodeBody_badLen (s := ((s.consume 9).consume 32).load [] Config.nil .empty n) rfl hn
  rw [decodeFileBody, Run.bind_ok (deserializeBody_empty hb hmarker), Run.bind_ok hget, ← hcur]
  exact Run.bind_error hbody

/-- Settles O50: the length decides, read from LEN or, by DECODE, from the 32 bits after the marker. -/
theorem emptyTreeDecoding : Obligations.EmptyTreeDecoding := by
  refine ⟨fun s hs => ?_, fun s n hinv hi => ⟨?_, fun hn => ?_⟩⟩
  · rw [exec_decsyms_eq (by rw [hs]; decide)]
    exact ⟨fun hlen => runCommand_ok (decodeBody_empty hs hlen), fun hlen => runCommand_raise (decodeBody_badLen hs hlen)⟩
  · rintro rfl
    exact runCommand_ok (decodeFileBody_marker hinv.inputInBuffer hinv.sizes.2.2.2 hinv.cursor.2.1 hi)
  · exact runCommand_raise (decodeFileBody_markerBadLen hinv.inputInBuffer hn hi)

/-! ### DECODE as a sequence -/

theorem Run.IgnoresCompletion.update {f : State → State} (h : ∀ s : State, f s.complete = (f s).complete) :
    (update f).IgnoresCompletion := fun s => congrArg (EStateM.Result.ok ()) (h s)

theorem Run.IgnoresCompletion.halt (f : Fault) : (halt f : Run α).IgnoresCompletion := fun _ => rfl

theorem loadNode_ignoresCompletion (i : NodeIdx) : (loadNode i).IgnoresCompletion := by
  intro s
  have hnode : s.complete.node? i = s.node? i := rfl
  unfold loadNode
  rw [hnode]
  cases s.node? i with
  | none => rfl
  | some n => rfl

theorem getlenBody_ignoresCompletion : getlenBody.IgnoresCompletion := by
  have hreq : (requireInput 32).IgnoresCompletion :=
    .ite (fun s => s.inAvail 32 = true) (fun _ => Iff.rfl) (fun _ => rfl) (fun _ => rfl)
  have hread : readInt32.IgnoresCompletion :=
    .bind hreq fun _ => .bind (readBits_ignoresCompletion 32 0) fun _ => .pure _
  exact .bind hread fun _ => .update fun _ => rfl

theorem walk_ignoresCompletion (f : Nat) (i : NodeIdx) : (walk f i).IgnoresCompletion := by
  induction f generalizing i with
  | zero =>
    refine .bind (loadNode_ignoresCompletion i) fun n => ?_
    split
    · exact .pure _
    · exact .bind readBit_ignoresCompletion fun _ => .halt _
  | succ f ih =>
    refine .bind (loadNode_ignoresCompletion i) fun n => ?_
    split
    · exact .pure _
    · exact .bind readBit_ignoresCompletion fun _ => ih _

theorem writeWord8_ignoresCompletion (v : Byte) : (writeWord8 v).IgnoresCompletion := by
  have hreq : (requireRoom 8).IgnoresCompletion :=
    .ite (fun s => s.outRoom 8 = true) (fun _ => Iff.rfl) (fun _ => rfl) (fun _ => rfl)
  exact .bind hreq fun _ => writeBits_ignoresCompletion v 8

theorem decodeSymbol_ignoresCompletion : decodeSymbol.IgnoresCompletion :=
  .bind (.view fun _ => rfl) fun f => .bind (.view fun _ => rfl) fun r => .bind (walk_ignoresCompletion f r) fun _ =>
    writeWord8_ignoresCompletion _

theorem decodeBody_ignoresCompletion : decodeBody.IgnoresCompletion := by
  refine .bind (.view fun _ => rfl) fun st => .bind (.view fun _ => rfl) fun l => ?_
  split
  · split
    · exact .pure _
    · exact .raise _ _
  · exact decodeSymbol_ignoresCompletion.repeatRun _

/-- The claim that says nothing: for a body whose end does not matter to what follows it. -/
theorem Run.ends_any (m : Run α) (s : State) : Run.Ends m s (fun _ _ => True) (fun _ => True) :=
  ⟨fun _ _ _ => trivial, fun _ _ _ => trivial⟩

/-- A DESERIALIZE that raises nothing leaves a tree or the EMPTY tree: it writes TREE_STATE last (spec R163, R165). -/
theorem deserializeBody_treeState (s : State) :
    Run.Ends deserializeBody s (fun _ t => t.treeState ≠ .invalid) (fun _ => True) := by
  have hmarker : ∀ t, Run.Ends readMarker t (fun _ u => u.treeState ≠ .invalid) (fun _ => True) := fun t =>
    (Run.ends_any readWord8 t).bind fun x u _ => by
      split
      · exact .of_ok rfl (by simp)
      · exact .of_error rfl trivial
  have htree : ∀ t, Run.Ends readTree t (fun _ u => u.treeState ≠ .invalid) (fun _ => True) := fun t => by
    rw [readTree_eq]
    exact (Run.ends_any _ t).bind fun p u _ => .of_ok rfl (by simp)
  have hbody : Run.Ends (readBit >>= fun b => if b then readMarker else readTree) s.dropTree
      (fun _ t => t.treeState ≠ .invalid) (fun _ => True) :=
    (Run.ends_any readBit _).bind fun b t _ => by
      split
      · exact hmarker t
      · exact htree t
  exact hbody

theorem State.Decoded.err {s t : State} (h : s.Decoded t) : t.err = s.err := by
  obtain ⟨arena, root, treeState, len, bits, p, d, rfl, -⟩ := h
  exact s.emit_err bits

/-- DECODE does what DESERIALIZE, GETLEN, DECSYMS and FLUSH do one after another (spec R197). -/
theorem exec_decode_parts {s : State} (he : s.err = false) :
    exec .decode s = thenExec .flush (thenExec .decsyms (thenExec .getlen (exec .deserialize s))) := by
  have htree : Run.Ends deserializeBody s (fun _ t => t.err = false ∧ t.treeState ≠ .invalid) (fun _ => True) :=
    ⟨fun _ t ht => ⟨((deserializeBody_ends s).1 _ _ ht).decoded.err.trans he, (deserializeBody_treeState s).1 _ _ ht⟩,
      fun _ _ _ => trivial⟩
  have hget : Run.Ends (deserializeBody >>= fun _ => getlenBody) s
      (fun _ t => t.err = false ∧ t.treeState ≠ .invalid) (fun _ => True) :=
    htree.bind fun _ t ht => (getlenBody_ends t).mono (fun _ u ⟨_, _, _, hu⟩ => hu ▸ ht) fun _ _ => trivial
  have hdec : Run.Ends ((deserializeBody >>= fun _ => getlenBody) >>= fun _ => decodeBody) s
      (fun _ t => t.err = false) (fun _ => True) :=
    hget.bind fun _ t ht => (Run.Sat.ends decodeBody_streams trivial).mono (fun _ _ hu => hu.2.err.trans ht.1)
      fun _ _ => trivial
  have hparts : exec .deserialize s = runCommand deserializeBody s := rfl
  rw [hparts,
    thenExec_runCommand getlenBody_ignoresCompletion fun t ht => ⟨(htree.1 _ _ ht).1, rfl⟩,
    thenExec_runCommand decodeBody_ignoresCompletion fun t ht =>
      ⟨(hget.1 _ _ ht).1, exec_decsyms_eq (s := t.complete) (hget.1 _ _ ht).2⟩,
    thenExec_runCommand (padLoop_ignoresCompletion 7) fun t ht => ⟨hdec.1 _ _ ht, rfl⟩]
  simp only [bind_assoc]
  rfl

/-- Settles O49: the header loads the tree that the walks then lead through, and each part runs the same from the completed
state that the command before it leaves. -/
theorem decodeResult : Obligations.DecodeResult :=
  ⟨fun _ _ _ _ _ hinv hd hcs hlen hi hroom =>
    runCommand_ok (decodeFileBody_tree hinv.inputInBuffer hinv.sizes.2.2.2 hd hcs hlen hi hroom),
    fun _ => exec_decode_parts⟩

end Sys2Proof.Machine
end

section
/-! PROOFS. What a command raises: the errors its body can raise, with the error record unchanged until then, and the
checks that come before everything else (spec R210, R213, R220, R222). -/

namespace Sys2Proof.Machine

variable {α : Type} {E : Abort → Prop}

/-! ### The ways a body can abort, with the errors recorded before unchanged -/

/-- The record of the last error (spec R25, R39, R220). -/
def State.errRecord (s : State) : Bool × Byte × Word := (s.err, s.errCode, s.errInfo)

/-- From `s` to `t` no error was recorded or cleared. -/
def State.SameErrors (s t : State) : Prop := t.errRecord = s.errRecord

theorem State.sameErrors_refl (s : State) : s.SameErrors s := rfl

theorem State.SameErrors.trans (s t u : State) (h : s.SameErrors t) (h' : t.SameErrors u) : s.SameErrors u :=
  Eq.trans h' h

/-- With the input in its buffer, the body writes no error record, and aborts only as `E` says. -/
abbrev Run.Within (E : Abort → Prop) (m : Run α) : Prop := Run.Sat State.inputInBuffer State.SameErrors E m

theorem Run.Within.bind {β : Type} {m : Run α} {f : α → Run β} (hm : Run.Within E m) (hf : ∀ a, Run.Within E (f a)) :
    Run.Within E (m >>= f) := Run.Sat.bind State.SameErrors.trans hm hf

theorem Run.Within.pure (a : α) : Run.Within E (pure a : Run α) := Run.Sat.pure State.sameErrors_refl a

theorem Run.Within.view (f : State → α) : Run.Within E (view f) := Run.Sat.view State.sameErrors_refl f

theorem Run.Within.raise {e : Err} (he : ∀ info, E (.raise e info)) (info : Word) :
    Run.Within E (raise e info : Run α) := Run.Sat.raise State.sameErrors_refl e info (he info)

theorem Run.Within.require {e : Err} (he : ∀ info, E (.raise e info)) (c : State → Bool) (info : Word) :
    Run.Within E (require c e info) := Run.Sat.require State.sameErrors_refl c e info (he info)

/-- A write that leaves IN_LEN, the size of IBUF and the error record alone. -/
theorem Run.Within.update {f : State → State} (hb : ∀ s : State, s.inputInBuffer → (f s).inputInBuffer)
    (he : ∀ s : State, s.SameErrors (f s)) : Run.Within E (update f) :=
  Run.Sat.update fun s hs => ⟨hb s hs, he s⟩

theorem Run.Within.repeatRun {m : Run Unit} (hm : Run.Within E m) (n : Nat) : Run.Within E (repeatRun n m) :=
  Run.Sat.repeatRun State.sameErrors_refl State.SameErrors.trans hm n

/-! ### The streams -/

theorem State.emitBit_inputInBuffer {s : State} (b : Bool) (h : s.inputInBuffer) : (s.emitBit b).inputInBuffer := by
  simpa [State.inputInBuffer] using h

theorem State.emitBit_sameErrors (s : State) (b : Bool) : s.SameErrors (s.emitBit b) := by
  simp [State.SameErrors, State.errRecord]

/-- Before the end of the input, the cursor's byte exists: reading it stops nothing (spec R28, R76). -/
theorem readBit_within (hin : ∀ info, E (.raise .inExhausted info)) : Run.Within E readBit :=
  Run.Sat.readBit State.sameErrors_refl (fun _ hs _ _ => ⟨hs, rfl⟩) hin fun s hs hpast havail => by
    have hlen := hs.1
    have hend : s.ibitpos.toNat + 1 ≤ 8 * s.inLen.toNat := of_decide_eq_true havail
    omega

theorem readWord8_within (hin : ∀ info, E (.raise .inExhausted info)) : Run.Within E readWord8 :=
  Run.Sat.readWord8 State.sameErrors_refl State.SameErrors.trans (readBit_within hin) hin

theorem writeBit_within (hout : ∀ info, E (.raise .outFull info)) (b : Bool) : Run.Within E (writeBit b) :=
  Run.Sat.writeBit State.sameErrors_refl b (fun s hs _ => ⟨s.emitBit_inputInBuffer b hs, s.emitBit_sameErrors b⟩) hout

theorem writeWord8_within (hout : ∀ info, E (.raise .outFull info)) (v : Byte) : Run.Within E (writeWord8 v) :=
  Run.Sat.writeWord8 State.sameErrors_refl State.SameErrors.trans (writeBit_within hout) hout v

theorem padToByte_within (hout : ∀ info, E (.raise .outFull info)) : Run.Within E padToByte :=
  Run.Sat.padLoop State.sameErrors_refl State.SameErrors.trans (writeBit_within hout false) 7

theorem putlenBody_within (hout : ∀ info, E (.raise .outFull info)) : Run.Within E putlenBody :=
  .bind (.view _) fun _ =>
    Run.Sat.writeInt32 State.sameErrors_refl State.SameErrors.trans (writeBit_within hout) hout _

theorem getlenBody_within (hin : ∀ info, E (.raise .inExhausted info)) : Run.Within E getlenBody :=
  .bind (Run.Sat.readInt32 State.sameErrors_refl State.SameErrors.trans (readBit_within hin) hin) fun _ =>
    .update (fun _ hs => hs) fun _ => rfl

theorem encodeSymbol_within (hcode : ∀ info, E (.raise .noCode info)) (hin : ∀ info, E (.raise .inExhausted info))
    (hout : ∀ info, E (.raise .outFull info)) : Run.Within E encodeSymbol := by
  refine .bind (readWord8_within hin) fun x => .bind (.view _) fun n => .bind (.view _) fun bits => ?_
  split
  · exact .raise hcode _
  · exact Run.Sat.writeBits State.sameErrors_refl State.SameErrors.trans (writeBit_within hout) _ _

theorem encodeBody_within (hcode : ∀ info, E (.raise .noCode info)) (hin : ∀ info, E (.raise .inExhausted info))
    (hout : ∀ info, E (.raise .outFull info)) : Run.Within E encodeBody :=
  .bind (.view _) fun _ => (encodeSymbol_within hcode hin hout).repeatRun _

/-! ### The traversals -/

theorem serializeBody_within (hout : ∀ info, E (.raise .outFull info)) (hdead : E (.stop .deadNode))
    (hloop : E (.stop .endlessTraversal)) : Run.Within E serializeBody := by
  refine .bind (.view _) fun st => .bind (.view _) fun r => ?_
  split
  · exact .bind (writeBit_within hout true) fun _ => writeWord8_within hout _
  · exact Run.Sat.writeNode State.sameErrors_refl State.SameErrors.trans (writeBit_within hout) hout hdead hloop _ _

theorem decodeSymbol_within (hin : ∀ info, E (.raise .inExhausted info)) (hout : ∀ info, E (.raise .outFull info))
    (hdead : E (.stop .deadNode)) (hloop : E (.stop .endlessTraversal)) : Run.Within E decodeSymbol :=
  .bind (.view _) fun _ => .bind (.view _) fun _ =>
    .bind (Run.Sat.walk State.sameErrors_refl State.SameErrors.trans (readBit_within hin) hdead hloop _ _) fun _ =>
      writeWord8_within hout _

theorem decodeBody_within (hlen : ∀ info, E (.raise .badEmptyLen info)) (hin : ∀ info, E (.raise .inExhausted info))
    (hout : ∀ info, E (.raise .outFull info)) (hdead : E (.stop .deadNode)) (hloop : E (.stop .endlessTraversal)) :
    Run.Within E decodeBody := by
  refine .bind (.view _) fun st => .bind (.view _) fun l => ?_
  split
  · split
    · exact .pure ()
    · exact .raise hlen _
  · exact (decodeSymbol_within hin hout hdead hloop).repeatRun _

theorem alloc_within (hbig : ∀ info, E (.raise .treeTooBig info)) (n : Node) : Run.Within E (alloc n) :=
  Run.Sat.alloc State.sameErrors_refl hbig n fun _ hs _ => ⟨hs, rfl⟩

theorem readMarker_within (hmark : ∀ info, E (.raise .badMarker info)) (hin : ∀ info, E (.raise .inExhausted info)) :
    Run.Within E readMarker := by
  refine .bind (readWord8_within hin) fun x => ?_
  split
  · exact .update (fun _ hs => hs) fun _ => rfl
  · exact .raise hmark _

theorem readTree_within (hin : ∀ info, E (.raise .inExhausted info)) (hdup : ∀ info, E (.raise .dupSymbol info))
    (hbig : ∀ info, E (.raise .treeTooBig info)) (hloop : E (.stop .endlessTraversal)) : Run.Within E readTree := by
  have hnode : ∀ seen, Run.Within E (readNode Config.maxNodes seen) :=
    Run.Sat.readNode State.sameErrors_refl State.SameErrors.trans (readBit_within hin) hin hdup
      (fun n _ _ => alloc_within hbig n) (fun _ _ _ _ hs => ⟨hs, rfl⟩) hloop _
  exact .bind (alloc_within hbig _) fun r => .bind (hnode _) fun l => .bind (hnode _) fun q =>
    .update (fun _ hs => hs) fun _ => rfl

theorem deserializeBody_within (hin : ∀ info, E (.raise .inExhausted info)) (hmark : ∀ info, E (.raise .badMarker info))
    (hdup : ∀ info, E (.raise .dupSymbol info)) (hbig : ∀ info, E (.raise .treeTooBig info))
    (hloop : E (.stop .endlessTraversal)) : Run.Within E deserializeBody := by
  refine .bind (.update (fun _ hs => hs) fun _ => rfl) fun _ => .bind (readBit_within hin) fun b => ?_
  split
  · exact readMarker_within hmark hin
  · exact readTree_within hin hdup hbig hloop

/-! ### The errors listed for a command -/

/-- The body raises one of the errors `es`, or the machine stops. -/
def Abort.among (es : List Err) : Abort → Prop
  | .raise e _ => e ∈ es
  | .stop _ => True

/-- No error is recorded, or one of `es` (spec R210). -/
def State.ErrorAmong (t : State) (es : List Err) : Prop :=
  (t.err = false ∧ t.errCode = 0 ∧ t.errInfo = 0) ∨ (t.err = true ∧ ∃ e ∈ es, t.errCode = e.code)

/-- With no error recorded before, the record is the one that the command's own body raised. -/
theorem Run.Within.errorAmong {m : Run Unit} {es : List Err} (hm : Run.Within (Abort.among es) m) {s t : State}
    (hb : s.inputInBuffer) (hs : s.errRecord = (false, 0, 0)) (h : runCommand m s = .next t) : t.ErrorAmong es := by
  rcases hm.next hb h with ⟨u, -, hu, rfl⟩ | ⟨e, info, u, -, -, he, rfl⟩
  · obtain ⟨herr, hcode, hinfo⟩ : u.err = false ∧ u.errCode = 0 ∧ u.errInfo = 0 := by
      simpa [State.errRecord] using Eq.trans hu hs
    exact .inl ⟨herr, hcode, hinfo⟩
  · exact .inr ⟨rfl, e, he, rfl⟩

/-- BUILD raises WEIGHT_OVF, and nothing where the sum is in range: its entries fit the arena (spec R140, R147, R148). -/
theorem exec_build_cases (s : State) :
    exec .build s = .next (s.recordFault .weightOvf 0).complete ∨ exec .build s = .next s.builtEmpty ∨
      ∃ arena root, exec .build s = .next (s.built arena root) := by
  by_cases hw : s.totalWeight ≤ Config.wMax
  · by_cases hne : s.presentSymbols = []
    · exact .inr (.inl (State.exec_build_empty hne))
    · obtain ⟨k, arena, ts, hexec, -⟩ := State.exec_build hw hne
      exact .inr (.inr ⟨arena, k.idx, hexec s rfl⟩)
  · exact .inl (buildOverflow s (Nat.not_le.1 hw))

theorem exec_flush {s : State} (hin : s.obitpos.toNat ≤ 8 * s.obufBytes) :
    exec .flush s = .next (s.emit (padBits s.obitpos.toNat)).complete := runCommand_ok (padToByte_ok s hin)

/-- Settles O26: each body raises within the row of its command, BUILD's entries fit the arena, and FLUSH's pad fits OBUF. -/
theorem errorsPerCommand : Obligations.ErrorsPerCommand := by
  intro i s t hsize hcur herr hcode hinfo h
  have hb : s.inputInBuffer := ⟨hcur.1, hsize.2.1⟩
  have hclean : s.err = false ∧ s.errCode = 0 ∧ s.errInfo = 0 := ⟨herr, hcode, hinfo⟩
  have hs : s.errRecord = (false, 0, 0) := by simp [State.errRecord, hclean]
  have row : ∀ {e es}, e ∈ es → ∀ info, Abort.among es (.raise e info) := fun h _ => h
  change t.ErrorAmong (raisesOf i)
  cases i with
  | nop =>
    cases (exec_nop s).symm.trans h
    exact .inl hclean
  | clear =>
    cases (exec_clear s).symm.trans h
    exact .inl ⟨rfl, rfl, rfl⟩
  | rstio =>
    cases (exec_rstio s).symm.trans h
    exact .inl hclean
  | build =>
    rcases exec_build_cases s with hexec | hexec | ⟨arena, root, hexec⟩ <;> cases hexec.symm.trans h
    · exact .inr ⟨rfl, .weightOvf, by decide, rfl⟩
    · exact .inl hclean
    · exact .inl hclean
  | gencodes =>
    rcases State.exec_gencodes_cases h with ⟨-, rfl⟩ | ⟨-, rfl⟩ | ⟨-, tr, -, rfl⟩
    · exact .inr ⟨rfl, .noTree, by decide, rfl⟩
    · exact .inl hclean
    · rw [State.setCodes_frame]
      exact .inl hclean
  | serialize =>
    exact Run.Within.errorAmong (.bind (.require (row (by decide)) _ _) fun _ =>
      serializeBody_within (row (by decide)) trivial trivial) hb hs h
  | deserialize =>
    exact (deserializeBody_within (row (by decide)) (row (by decide)) (row (by decide)) (row (by decide))
      trivial).errorAmong hb hs h
  | putlen => exact (putlenBody_within (row (by decide))).errorAmong hb hs h
  | getlen => exact (getlenBody_within (row (by decide))).errorAmong hb hs h
  | encsyms =>
    exact Run.Within.errorAmong (.bind (.require (row (by decide)) _ _) fun _ =>
      encodeBody_within (row (by decide)) (row (by decide)) (row (by decide))) hb hs h
  | decsyms =>
    exact Run.Within.errorAmong (.bind (.require (row (by decide)) _ _) fun _ =>
      decodeBody_within (row (by decide)) (row (by decide)) (row (by decide)) trivial trivial) hb hs h
  | flush =>
    cases (exec_flush hcur.2.1).symm.trans h
    exact .inl (by simpa using hclean)
  | encode =>
    have hout := row (e := .outFull) (es := raisesOf .encode) (by decide)
    exact Run.Within.errorAmong (.bind (.require (row (by decide)) _ _) fun _ =>
      .bind (.require (row (by decide)) _ _) fun _ => .bind (serializeBody_within hout trivial trivial) fun _ =>
      .bind (putlenBody_within hout) fun _ => .bind (encodeBody_within (row (by decide)) (row (by decide)) hout) fun _ =>
      padToByte_within hout) hb hs h
  | decode =>
    have hin := row (e := .inExhausted) (es := raisesOf .decode) (by decide)
    have hout := row (e := .outFull) (es := raisesOf .decode) (by decide)
    exact Run.Within.errorAmong (.bind (deserializeBody_within hin (row (by decide)) (row (by decide)) (row (by decide))
      trivial) fun _ => .bind (getlenBody_within hin) fun _ =>
      .bind (decodeBody_within (row (by decide)) hin hout trivial trivial) fun _ => padToByte_within hout) hb hs h

/-! ### The checks that come first -/

theorem requireTree_invalid {s : State} (h : s.treeState = .invalid) (op : Word) :
    requireTree op s = .error (.raise .noTree op) s := by
  simp [requireTree, require_apply, h]

theorem requireTree_ok {s : State} (h : s.treeState ≠ .invalid) (op : Word) : requireTree op s = .ok () s := by
  simp [requireTree, require_apply, h]

theorem requireCodes_invalid {s : State} (h : s.codesValid = false) (op : Word) :
    requireCodes op s = .error (.raise .noCodes op) s := by
  simp [requireCodes, require_apply, h]

/-- A command whose first check fails leaves its fault record and completes (spec R213, R220). -/
theorem runCommand_bind_raise {m : Run Unit} {f : Unit → Run Unit} {s : State} {e : Err} {info : Word}
    (h : m s = .error (.raise e info) s) : runCommand (m >>= f) s = .next (s.recordFault e info).complete :=
  runCommand_raise (Run.bind_error h)

/-- Settles O25: the check for a tree is the first of each command, and ENCODE's check for codes comes right after it. -/
theorem missingTreeOrCodes : Obligations.MissingTreeOrCodes := by
  refine ⟨fun s h p hp => ?_, fun s h => runCommand_bind_raise (requireCodes_invalid h 0x30), fun s ht hc => ?_⟩
  · simp only [List.mem_cons, List.not_mem_nil, or_false] at hp
    rcases hp with rfl | rfl | rfl | rfl
    · exact runCommand_bind_raise (requireTree_invalid h 0x11)
    · exact runCommand_bind_raise (requireTree_invalid h 0x20)
    · exact runCommand_bind_raise (requireTree_invalid h 0x31)
    · exact runCommand_bind_raise (requireTree_invalid h 0x40)
  · refine runCommand_raise (m := encodeFileBody) (t := s) (e := .noCodes) (info := 0x40) ?_
    rw [encodeFileBody, Run.bind_ok (requireTree_ok ht 0x40), Run.bind_error (requireCodes_invalid hc 0x40)]

end Sys2Proof.Machine
end

section
/-! PROOFS. Progress: from a state that meets the invariant no command stops the machine, so each completes in the core's
step (spec R221, R250, R251, R258). -/

namespace Sys2Proof.Machine

variable {α β : Type}

/-! ### Bodies that do not stop -/

/-- Run on `s`, the body does not stop the machine: it ends, or raises an error. -/
def Run.Goes (m : Run α) (s : State) : Prop := ∀ f t, m s ≠ .error (.stop f) t

/-- An abort by an error. -/
def Abort.isRaise (e : Abort) : Prop := ∀ f, e ≠ .stop f

theorem Abort.isRaise_raise (e : Err) (info : Word) : (Abort.raise e info).isRaise := nofun

section Goes

variable {m : Run α} {s : State}

theorem Run.Goes.of_ok {t : State} {a : α} (h : m s = .ok a t) : Run.Goes m s := fun _ _ hf => by cases h.symm.trans hf

theorem Run.Goes.of_raise {t : State} {e : Err} {info : Word} (h : m s = .error (.raise e info) t) : Run.Goes m s :=
  fun _ _ hf => by cases h.symm.trans hf

/-- A body that runs as another one does. -/
theorem Run.Goes.congr {m' : Run α} {t : State} (h : m s = m' t) (hm : Run.Goes m' t) : Run.Goes m s :=
  fun f u hu => hm f u (h.symm.trans hu)

theorem Run.Goes.bind {f : α → Run β} (hm : Run.Goes m s) (hf : ∀ a t, m s = .ok a t → Run.Goes (f a) t) :
    Run.Goes (m >>= f) s := by
  intro g u hu
  cases h : m s with
  | ok a t => exact hf a t h g u ((Run.bind_ok h).symm.trans hu)
  | error e t =>
    cases (Run.bind_error h).symm.trans hu
    exact hm g _ h

/-- A body that aborts by errors only does not stop. -/
theorem Run.Sat.goes {I : State → Prop} {P : State → State → Prop} (hm : Run.Sat I P Abort.isRaise m) (hs : I s) :
    Run.Goes m s := fun f t h => ((hm s hs).2 _ t h).2.2 f rfl

/-- A property that the streams do not touch holds all through a body that uses them only, which aborts by errors only if
it does not stop from the states with the property. -/
theorem Run.Streams.sat {I : State → Prop} (hm : Run.Streams m) (hI : ∀ s t, I s → s.Streamed t → I t)
    (hgo : ∀ s, I s → Run.Goes m s) : Run.Sat I State.Streamed Abort.isRaise m := by
  refine fun s hs => ⟨fun a t h => ?_, fun e t h => ?_⟩
  · have ht := ((hm s trivial).1 a t h).2
    exact ⟨hI s t hs ht, ht⟩
  · have ht := ((hm s trivial).2 e t h).2.1
    exact ⟨hI s t hs ht, ht, fun f he => hgo s hs f t (he ▸ h)⟩

/-- A command whose body does not stop completes. -/
theorem Run.Goes.next {m : Run Unit} (hm : Run.Goes m s) : ∃ t, runCommand m s = .next t := by
  cases h : m s with
  | ok a t => exact ⟨_, runCommand_ok h⟩
  | error e t =>
    cases e with
    | raise e info => exact ⟨_, runCommand_raise h⟩
    | stop f => exact absurd h (hm f t)

end Goes

theorem require_goes (c : State → Bool) (e : Err) (info : Word) (s : State) : Run.Goes (require c e info) s := by
  cases h : c s with
  | false => exact .of_raise (t := s) (by rw [require_apply, h]; rfl)
  | true => exact .of_ok (t := s) (a := ()) (by rw [require_apply, h]; rfl)

/-- A body after a passed check runs from the state the check found. -/
theorem Run.Goes.afterRequire {c : State → Bool} {e : Err} {info : Word} {f : Unit → Run α} {s : State}
    (hf : c s = true → Run.Goes (f ()) s) : Run.Goes (require c e info >>= f) s := by
  refine (require_goes c e info s).bind fun _ t ht => ?_
  rw [require_apply] at ht
  split at ht
  · rename_i hc
    cases ht
    exact hf hc
  · cases ht

/-! ### The streams keep the tree -/

theorem Run.Streams.streamed {m : Run α} (hm : Run.Streams m) {s t : State} {a : α} (h : m s = .ok a t) : s.Streamed t :=
  ((hm s trivial).1 a t h).2

theorem State.Streamed.inputInBuffer {s t : State} (h : s.Streamed t) (hs : s.inputInBuffer) : t.inputInBuffer := by
  obtain ⟨bits, p, d, rfl, -⟩ := h
  simpa [State.atInput, State.inputInBuffer] using hs

theorem State.Streamed.tree? {s t : State} (h : s.Streamed t) : t.tree? = s.tree? := by
  obtain ⟨bits, p, d, rfl, -⟩ := h
  simp [State.atInput, State.tree?]

theorem State.Grown.inputInBuffer {s t : State} {new : List Node} (h : s.Grown new t) (hs : s.inputInBuffer) :
    t.inputInBuffer := by
  obtain ⟨p, d, rfl⟩ := h
  exact hs

theorem State.LenRead.inputInBuffer {s t : State} (h : s.LenRead t) (hs : s.inputInBuffer) : t.inputInBuffer := by
  obtain ⟨v, p, d, rfl⟩ := h
  exact hs

theorem State.LenRead.hasForm {s t : State} (h : s.LenRead t) (hs : s.HasForm) : t.HasForm := by
  obtain ⟨v, p, d, rfl⟩ := h
  exact hs

/-! ### SERIALIZE -/

theorem writeItem_goes (item : List Bool) (s : State) : Run.Goes (writeItem item) s := by
  by_cases h : s.obitpos.toNat + item.length ≤ 8 * s.obufBytes
  · exact .of_ok (writeItem_ok h)
  · exact .of_raise (writeItem_full (Nat.not_le.1 h))

theorem writeItems_goes (items : List (List Bool)) (s : State) : Run.Goes (writeItems items) s := by
  induction items generalizing s with
  | nil => exact .of_ok rfl
  | cons item items ih => exact (writeItem_goes item s).bind fun _ t _ => ih t

/-- With a tree or the EMPTY tree, SERIALIZE makes a list of writes (spec R161, R162). -/
theorem serializeBody_goes {s : State} (hs : s.HasForm) : Run.Goes serializeBody s := by
  obtain ⟨items, hitems⟩ : ∃ items, serializeBody s = writeItems items s := by
    simp only [serializeBody, Run.view_bind]
    rcases hs with hs | ⟨hs, tr, ht⟩
    · rw [if_pos hs, writeLeaf_eq_writeItems]
      exact ⟨_, rfl⟩
    · rw [if_neg hs.ne_empty]
      exact ⟨tr.items, writeNode_eq_writeItems ht⟩
  intro f t h
  exact writeItems_goes items s f t (hitems.symm.trans h)

/-! ### DECSYMS -/

/-- `ReadBit` consumes one of the bits left, or there is none (spec R75, R76). -/
theorem readBit_bitsLeft {s : State} (hb : s.inputInBuffer) :
    readBit s = .error (.raise .inExhausted s.ibitpos) s ∨
      ∃ b t, readBit s = .ok b t ∧ s.Grown [] t ∧ t.bitsLeft + 1 = s.bitsLeft := by
  have hlen := hb.1
  have hmax : s.ibufBytes ≤ 2 ^ 28 := hb.2
  by_cases hend : 8 * s.inLen.toNat < s.ibitpos.toNat + 1
  · exact .inl (readBit_end s hend)
  · have hgrown : ∀ d, s.Grown [] { s.consume 1 with draws := d } := fun d =>
      ⟨(s.consume 1).ibitpos, d, by simp [State.consume]⟩
    have hleft : ∀ d, State.bitsLeft { s.consume 1 with draws := d } + 1 = s.bitsLeft := fun d => by
      simp only [State.bitsLeft, State.consume, BitVec.toNat_ofNat]
      omega
    rcases readBit_cases s with ⟨b, h⟩ | ⟨b, h⟩ | h | ⟨-, hpast, -⟩
    · exact .inr ⟨b, _, h, hgrown s.draws, hleft s.draws⟩
    · exact .inr ⟨b, _, h, hgrown _, hleft _⟩
    · exact .inl h
    · omega

/-- What follows a bit has one bit less to read. -/
theorem readBit_bind_goes {k : Bool → Run α} {s : State} (hb : s.inputInBuffer)
    (hk : ∀ b t, s.Grown [] t → t.bitsLeft + 1 = s.bitsLeft → Run.Goes (k b) t) : Run.Goes (readBit >>= k) s := by
  rcases readBit_bitsLeft hb with hend | ⟨b, t, hread, hgrown, hleft⟩
  · exact .of_raise (Run.bind_error hend)
  · exact .congr (Run.bind_ok hread) (hk b t hgrown hleft)

theorem walk_leaf (f : Nat) {i : NodeIdx} {s : State} {n : Node} (hn : s.arena[i.toNat]? = some n) (hl : n.leaf = true) :
    walk f i s = .ok n.sym s := by
  cases f <;> rw [walk, Run.bind_ok (loadNode_ok i s n hn), if_pos hl] <;> rfl

theorem walk_zero_inner {i : NodeIdx} {s : State} {n : Node} (hn : s.arena[i.toNat]? = some n) (hl : n.leaf = false) :
    walk 0 i s = (readBit >>= fun _ => halt .endlessTraversal) s := by
  rw [walk, Run.bind_ok (loadNode_ok i s n hn), if_neg (by simp [hl])]

theorem walk_succ_inner (f : Nat) {i : NodeIdx} {s : State} {n : Node} (hn : s.arena[i.toNat]? = some n)
    (hl : n.leaf = false) : walk (f + 1) i s = (readBit >>= fun b => walk f (if b then n.right else n.left)) s := by
  rw [walk, Run.bind_ok (loadNode_ok i s n hn), if_neg (by simp [hl])]

/-- The walk over a tree reaches a leaf or the end of the input: each turn goes down one node and consumes one of the bits
left (spec R195, R196). -/
theorem walk_goes {f g : Nat} {i : NodeIdx} {tr : CodeTree} {s : State} (hb : s.inputInBuffer)
    (ht : treeAt s.arena g i = some tr) (hf : s.bitsLeft ≤ f) : Run.Goes (walk f i) s := by
  induction tr generalizing f g i s with
  | leaf x =>
    obtain ⟨g', n, -, hn, ⟨hleaf, -⟩ | ⟨-, l, r, -, -, hnode⟩⟩ := treeAt_cases ht
    · exact .of_ok (walk_leaf f hn hleaf)
    · cases hnode
  | node l r hl hr =>
    obtain ⟨g', n, -, hn, ⟨-, hleaf⟩ | ⟨hinner, l, r, htl, htr, hnode⟩⟩ := treeAt_cases ht
    · cases hleaf
    cases hnode
    cases f with
    | zero => exact .congr (walk_zero_inner hn hinner) (readBit_bind_goes hb fun b t _ hleft => by omega)
    | succ f =>
      refine .congr (walk_succ_inner f hn hinner) (readBit_bind_goes hb fun b t hgrown hleft => ?_)
      have harena : t.arena = s.arena := by simpa using hgrown.arena
      have hbt := hgrown.inputInBuffer hb
      cases b with
      | false => exact hl hbt (harena ▸ htl) (by omega)
      | true => exact hr hbt (harena ▸ htr) (by omega)

theorem walk_streams (f : Nat) (i : NodeIdx) : Run.Streams (walk f i) :=
  Run.Sat.walk State.streamed_refl State.Streamed.trans readBit_streams trivial trivial f i

theorem writeWord8_goes {s : State} (hb : s.inputInBuffer) (v : Byte) : Run.Goes (writeWord8 v) s :=
  (writeWord8_within (Abort.isRaise_raise _) v).goes hb

/-- The states that symbols can be decoded from: the input lies in its buffer, and ROOT names a tree. -/
def State.Decodable (s : State) : Prop := s.inputInBuffer ∧ ∃ tr, s.tree? = some tr

theorem State.Decodable.streamed {s t : State} (hs : s.Decodable) (h : s.Streamed t) : t.Decodable :=
  ⟨h.inputInBuffer hs.1, by rw [h.tree?]; exact hs.2⟩

theorem decodeSymbol_goes {s : State} (hs : s.Decodable) : Run.Goes decodeSymbol s := by
  obtain ⟨hb, tr, ht⟩ := hs
  have hwalk : Run.Goes (walk s.bitsLeft s.root) s := walk_goes hb ht le_rfl
  refine .congr (Run.view_bind _ _ s) (.congr (Run.view_bind _ _ s) (hwalk.bind fun x t hx => ?_))
  exact writeWord8_goes (((walk_streams _ _).streamed hx).inputInBuffer hb) x

/-- With the EMPTY tree the length decides, and with a tree one symbol after another is decoded (spec R195, R198). -/
theorem decodeBody_goes {s : State} (hb : s.inputInBuffer) (hs : s.HasForm) : Run.Goes decodeBody s := by
  refine .congr (Run.view_bind _ _ s) (.congr (Run.view_bind _ _ s) ?_)
  rcases hs with hs | ⟨hs, ht⟩
  · rw [if_pos hs]
    split
    · exact .of_ok rfl
    · exact .of_raise rfl
  · rw [if_neg hs.ne_empty]
    have hsymbol := decodeSymbol_streams.sat (fun _ _ => State.Decodable.streamed) fun _ => decodeSymbol_goes
    exact (Run.Sat.repeatRun State.streamed_refl State.Streamed.trans hsymbol _).goes ⟨hb, ht⟩

/-! ### DESERIALIZE -/

theorem readBit_goes {s : State} (hb : s.inputInBuffer) : Run.Goes readBit s :=
  (readBit_within (Abort.isRaise_raise _)).goes hb

theorem alloc_goes (n : Node) (s : State) : Run.Goes (alloc n) s := by
  by_cases h : s.arena.length = Config.maxNodes
  · exact .of_raise (alloc_full n s h)
  · exact .of_ok (alloc_ok n s h)

theorem readLeaf_goes (seen : List Byte) {s : State} (hb : s.inputInBuffer) : Run.Goes (readLeaf seen) s := by
  refine ((readWord8_within (Abort.isRaise_raise _)).goes hb).bind fun x t _ => ?_
  split
  · exact .of_raise rfl
  · exact (alloc_goes _ t).bind fun i u _ => .of_ok rfl

/-- An internal node does not stop where its subtrees do not, which find an entry more in the arena. -/
theorem readPair_goes {node : List Byte → Run (NodeIdx × List Byte)} (hn : ReadsTrees node) (seen : List Byte) {s : State}
    (hb : s.inputInBuffer) (ha : s.arena.length ≤ Config.maxNodes)
    (hgo : ∀ seen u, State.inputInBuffer u → s.arena.length + 1 ≤ u.arena.length → u.arena.length ≤ Config.maxNodes →
      Run.Goes (node seen) u) : Run.Goes (readPair node seen) s := by
  refine (alloc_goes _ s).bind fun i t ht => ?_
  obtain ⟨hgt, hroom, -⟩ := (alloc_ends _ s ha).1 i t ht
  have hbt := hgt.inputInBuffer hb
  have hlt : t.arena.length = s.arena.length + 1 := by simp [hgt.arena]
  refine (hgo seen t hbt (by omega) (by omega)).bind fun l u hu => ?_
  obtain ⟨tl, hgu, hmax, -⟩ := (hn seen t (by omega)).1 l u hu
  have hlu : u.arena.length = t.arena.length + tl.size := by simp [hgu.arena]
  exact (hgo l.2 u (hgu.inputInBuffer hbt) (by omega) hmax).bind fun q v _ => .of_ok rfl

/-- `ReadNode` raises TREE_TOO_BIG before its turns are used up: each level allocates an entry before it goes down
(spec R34, R164). -/
theorem readNode_goes (f : Nat) (seen : List Byte) {s : State} (hb : s.inputInBuffer)
    (ha : s.arena.length ≤ Config.maxNodes) (hf : Config.maxNodes < f + s.arena.length) :
    Run.Goes (readNode f seen) s := by
  induction f generalizing seen s with
  | zero => omega
  | succ f ih =>
    rw [readNode_succ]
    refine (readBit_goes hb).bind fun b t ht => ?_
    have hgrown : s.Grown [] t := ((readBit_readsInput s trivial).1 b t ht).2
    have hbt := hgrown.inputInBuffer hb
    have harena : t.arena = s.arena := by simpa using hgrown.arena
    split
    · exact readLeaf_goes seen hbt
    · exact readPair_goes (readNode_readsTrees f) seen hbt (harena ▸ ha) fun seen' u hbu hgt hlu =>
        ih seen' hbu hlu (by rw [harena] at hgt; omega)

theorem deserializeBody_goes {s : State} (hb : s.inputInBuffer) : Run.Goes deserializeBody s := by
  have hread : Run.Goes readBit s.dropTree := readBit_goes hb
  refine .congr (deserializeBody_eq s) (hread.bind fun b t ht => ?_)
  have hgrown : s.dropTree.Grown [] t := ((readBit_readsInput _ trivial).1 b t ht).2
  have hbt : t.inputInBuffer := hgrown.inputInBuffer hb
  have harena : t.arena = [] := hgrown.arena
  split
  · exact (readMarker_within (Abort.isRaise_raise _) (Abort.isRaise_raise _)).goes hbt
  · rw [readTree_eq]
    have hpair : Run.Goes (readPair (readNode Config.maxNodes) []) t :=
      readPair_goes (readNode_readsTrees _) [] hbt (by simp [harena]) fun seen u hbu hgt hlu =>
        readNode_goes _ seen hbu hlu (by omega)
    exact hpair.bind fun p u _ => .of_ok rfl

/-! ### The commands -/

theorem putlenBody_goes {s : State} (hb : s.inputInBuffer) : Run.Goes putlenBody s :=
  (putlenBody_within (Abort.isRaise_raise _)).goes hb

theorem getlenBody_goes {s : State} (hb : s.inputInBuffer) : Run.Goes getlenBody s :=
  (getlenBody_within (Abort.isRaise_raise _)).goes hb

theorem encodeBody_goes {s : State} (hb : s.inputInBuffer) : Run.Goes encodeBody s :=
  (encodeBody_within (Abort.isRaise_raise _) (Abort.isRaise_raise _) (Abort.isRaise_raise _)).goes hb

theorem padToByte_goes {s : State} (hb : s.inputInBuffer) : Run.Goes padToByte s :=
  (padToByte_within (Abort.isRaise_raise _)).goes hb

theorem gencodesBody_goes {s : State} (h : s.Inv) : Run.Goes gencodesBody s := by
  by_cases hs : s.treeState = .invalid
  · exact .of_raise (gencodesBody_invalid hs)
  · rcases h.hasForm hs with hempty | ⟨htree, tr, ht⟩
    · exact .of_ok (gencodesBody_empty hempty)
    · exact .of_ok (gencodesBody_tree htree ht)

/-- ENCODE finds the tree it was checked for, and its other parts use the streams only (spec R184). -/
theorem encodeFileBody_goes {s : State} (h : s.Inv) : Run.Goes encodeFileBody s := by
  have hb := h.inputInBuffer
  refine .afterRequire fun hs => .afterRequire fun _ => ?_
  refine (serializeBody_goes (h.hasForm (of_decide_eq_true hs))).bind fun _ t ht => ?_
  have hbt := (serializeBody_streams.streamed ht).inputInBuffer hb
  refine (putlenBody_goes hbt).bind fun _ u hu => ?_
  have hbu := (putlenBody_streams.streamed hu).inputInBuffer hbt
  refine (encodeBody_goes hbu).bind fun _ v hv => ?_
  exact padToByte_goes ((encodeBody_streams.streamed hv).inputInBuffer hbu)

/-- DECODE walks the tree that it has loaded itself, which meets the invariant (spec R164, R197). -/
theorem decodeFileBody_goes {s : State} (h : s.Inv) : Run.Goes decodeFileBody s := by
  refine (deserializeBody_goes h.inputInBuffer).bind fun _ t ht => ?_
  have hinv : t.BodyInv := ((deserializeBody_keeps s h.bodyInv).1 _ _ ht).1
  have hform : t.complete.HasForm := hinv.complete.hasForm ((deserializeBody_treeState s).1 () t ht)
  have hbt : t.inputInBuffer := hinv.complete.inputInBuffer
  refine (getlenBody_goes hbt).bind fun _ u hu => ?_
  have hread : t.LenRead u := (getlenBody_ends t).1 _ _ hu
  have hbu := hread.inputInBuffer hbt
  exact (decodeBody_goes hbu (hread.hasForm hform)).bind fun _ v hv =>
    padToByte_goes ((decodeBody_streams.streamed hv).inputInBuffer hbu)

/-- From a state that meets the invariant every command gives a next state (spec R220, R221). -/
theorem State.Inv.exec_next {s : State} (h : s.Inv) (i : Instr) : ∃ t, Machine.exec i s = .next t := by
  have hb := h.inputInBuffer
  cases i with
  | nop => exact ⟨_, exec_nop s⟩
  | clear => exact ⟨_, exec_clear s⟩
  | rstio => exact ⟨_, exec_rstio s⟩
  | build =>
    rcases exec_build_cases s with hexec | hexec | ⟨arena, root, hexec⟩
    · exact ⟨_, hexec⟩
    · exact ⟨_, hexec⟩
    · exact ⟨_, hexec⟩
  | gencodes => exact (gencodesBody_goes h).next
  | serialize =>
    exact Run.Goes.next (m := requireTree 0x20 >>= fun _ => serializeBody) (.afterRequire fun hs =>
      serializeBody_goes (h.hasForm (of_decide_eq_true hs)))
  | deserialize => exact (deserializeBody_goes hb).next
  | putlen => exact (putlenBody_goes hb).next
  | getlen => exact (getlenBody_goes hb).next
  | encsyms =>
    exact Run.Goes.next (m := requireCodes 0x30 >>= fun _ => encodeBody) (.afterRequire fun _ => encodeBody_goes hb)
  | decsyms =>
    exact Run.Goes.next (m := requireTree 0x31 >>= fun _ => decodeBody) (.afterRequire fun hs =>
      decodeBody_goes hb (h.hasForm (of_decide_eq_true hs)))
  | flush => exact (padToByte_goes hb).next
  | encode => exact (encodeFileBody_goes h).next
  | decode => exact (decodeFileBody_goes h).next

/-! ### Completion -/

/-- From `s` to `t` the command in PEND completed (spec R221, R250): LASTOP still names it. -/
def State.Completed (s t : State) : Prop := t.busy = false ∧ t.done = true ∧ t.lastOp = s.lastOp

/-- A command that gives a next state has completed: this much the frame of every command says (spec R221). -/
theorem exec_completed {i : Instr} {s t : State} (hs : s.SizesInv) (h : exec i s = .next t) : s.Completed t := by
  cases i with
  | nop =>
    cases (exec_nop s).symm.trans h
    exact ⟨rfl, rfl, rfl⟩
  | clear =>
    cases (exec_clear s).symm.trans h
    exact ⟨rfl, rfl, rfl⟩
  | rstio =>
    cases (exec_rstio s).symm.trans h
    exact ⟨rfl, rfl, rfl⟩
  | build =>
    rw [treeCommandsFrame.1 s t h]
    exact ⟨rfl, rfl, rfl⟩
  | gencodes =>
    rw [treeCommandsFrame.2 s t h]
    exact ⟨rfl, rfl, rfl⟩
  | deserialize =>
    rw [inputCommandsFrame.1 s t h]
    exact ⟨rfl, rfl, rfl⟩
  | getlen =>
    rw [inputCommandsFrame.2 s t h]
    exact ⟨rfl, rfl, rfl⟩
  | serialize | putlen | flush =>
    rw [(outputCommandsFrame _ (by decide) s t hs h).1]
    exact ⟨rfl, rfl, rfl⟩
  | encsyms | decsyms | encode =>
    rw [(streamCommandsFrame.1 _ (by decide) s t hs h).1]
    exact ⟨rfl, rfl, rfl⟩
  | decode =>
    rw [(streamCommandsFrame.2 s t hs h).1]
    exact ⟨rfl, rfl, rfl⟩

/-- The word in PEND completes in the core's step, whether it is a command or not (spec R133, R221, R250). -/
theorem State.Inv.coreStep_pending {s : State} (h : s.Inv) {w : Word} (hw : s.pend = some w) :
    ∃ t, Machine.coreStep s = .next t ∧ s.Completed t := by
  cases hd : decodeWord w with
  | ok i =>
    obtain ⟨t, ht⟩ := h.exec_next i
    exact ⟨t, (coreStep_command s w i hw hd).trans ht, exec_completed h.sizes ht⟩
  | error r => exact ⟨_, (coreStep_illegal s w r hw hd).trans (execIllegal_eq w s), rfl, rfl, rfl⟩

/-- With PEND empty the core waits, else the word completes (spec R250, R251). -/
theorem State.Inv.coreStep_next {s : State} (h : s.Inv) : ∃ t, Machine.coreStep s = .next t := by
  cases hp : s.pend with
  | none => exact ⟨s, coreStep_empty s hp⟩
  | some w =>
    obtain ⟨t, ht, -⟩ := h.coreStep_pending hp
    exact ⟨t, ht⟩

theorem State.Inv.runEvent_next {s : State} (h : s.Inv) (e : Event) : ∃ t, Machine.runEvent e s = .next t := by
  cases e with
  | read off size => exact ⟨_, rfl⟩
  | write off size v => exact ⟨_, rfl⟩
  | reset => exact ⟨_, rfl⟩
  | core => exact h.coreStep_next

theorem State.Inv.step_next {s : State} (h : s.Inv) : ∃ t, step s = .next t := by
  cases ha : s.agenda with
  | nil => exact (step_idle s ha).symm ▸ h.coreStep_next
  | cons e rest =>
    have hrest : State.Inv { s with agenda := rest } := { h with }
    exact (step_event s e rest ha).symm ▸ hrest.runEvent_next e

/-- Settles O60: no body stops from a state that meets the invariant, since the tree it walks is a tree and the input lies in
its buffer, and every way a body ends completes the command. -/
theorem everyCommandCompletes : Obligations.EveryCommandCompletes := by
  refine ⟨fun s h => h.step_next, fun s w h hnext hw => ?_⟩
  have hpop : s.popEvent.Inv := { h with }
  obtain ⟨t, ht, hdone⟩ := hpop.coreStep_pending hw
  exact ⟨t, (step_of_coreNext hnext).trans ht, hdone⟩

end Sys2Proof.Machine
end

section
/-! PROOFS. The command port and the interrupt output (spec R225, R230, R252). -/

namespace Sys2Proof.Machine

/-! ### The command port -/

/-- A write to CMD reaches the command port, busy or not (spec R87, R225). -/
theorem State.hostWrite_cmd (s : State) (w : Word) : s.hostWrite 0x000 .word w = s.issue w :=
  s.hostWrite_unguarded (r := .cmd) w rfl rfl rfl

theorem acceptedInError_iff (w : Word) : acceptedInError w = true ↔ w = 0x00000000 ∨ w = 0x00000001 := by
  simp [acceptedInError]

/-- In the error state a word other than NOP and CLEAR is refused (spec R225). -/
theorem State.issue_rejected {s : State} {w : Word} (hb : s.busy = false) (he : s.err = true)
    (hw : acceptedInError w = false) : s.issue w = { s with cmdRej := true } := by
  simp [State.issue, hb, he, hw]

/-- Without an error, or where it is NOP or CLEAR, a word is accepted (spec R225). -/
theorem State.issue_accepted {s : State} {w : Word} (hb : s.busy = false) (h : s.err = false ∨ acceptedInError w = true) :
    s.issue w = s.accept w := by
  rcases h with h | h <;> simp [State.issue, hb, h]

/-- Settles O9: the three branches of `State.issue`. -/
theorem commandPort : Obligations.CommandPort := by
  refine ⟨fun s w hb => ⟨fun he h0 h1 => ?_, fun h => ?_⟩, fun s w hb => ?_⟩
  · have hw : acceptedInError w = false := Bool.eq_false_iff.2 fun h => ((acceptedInError_iff w).1 h).elim h0 h1
    exact (s.hostWrite_cmd w).trans (State.issue_rejected hb he hw)
  · have haccept := (s.hostWrite_cmd w).trans (State.issue_accepted hb (h.imp_right (acceptedInError_iff w).2))
    exact ⟨haccept, by rw [haccept]; rfl⟩
  · exact (s.hostWrite_cmd w).trans (State.issue_busy w hb)

/-! ### The interrupt output -/

theorem State.irq_iff (s : State) :
    s.irq = true ↔ (s.done = true ∧ s.doneIe = true) ∨ (s.err = true ∧ s.errIe = true) := by
  simp [State.irq]

/-- IRQ_EN holds DONE_IE in bit 0 and ERR_IE in bit 1 (spec R40). -/
theorem State.irqEnWord_eq (s : State) : s.irqEnWord = BitVec.ofNat 32 (s.doneIe.toNat + 2 * s.errIe.toNat) := by
  unfold State.irqEnWord
  cases s.doneIe <;> cases s.errIe <;> rfl

/-- Settles O18: the output is the disjunction of R230, and a reset and CLEAR leave what `State.resetEvent` and
`State.clearDatapath` say. -/
theorem interruptOutput : Obligations.InterruptOutput := by
  refine ⟨State.irq_iff, fun s => rfl, fun s => ?_, fun s t h => ?_⟩
  · rw [s.hostRead_exact (r := .irqEn) rfl rfl rfl]
    exact s.irqEnWord_eq
  · cases (exec_clear s).symm.trans h
    exact ⟨rfl, rfl⟩

end Sys2Proof.Machine
end

section
/-! PROOFS. The event that is next, and what a reset leaves (spec R92, R240, R241, R249 to R251). -/

namespace Sys2Proof.Machine

/-! ### The next event -/

/-- The event at the head of the agenda runs in the state that it has left (spec R249). -/
theorem step_eq_runEvent_popEvent {s : State} {e : Event} {rest : List Event} (h : s.agenda = e :: rest) :
    step s = runEvent e s.popEvent := by
  rw [step_event s e rest h, State.popEvent, h, List.tail_cons]

/-- Settles O4: the core takes its turn and finds the word, which popping its event has left in PEND. -/
theorem stepRunsDecodedCommand : Obligations.StepRunsDecodedCommand := by
  intro s w i hnext hpend hw
  calc step s = coreStep s.popEvent := step_of_coreNext hnext
    _ = exec i s.popEvent := coreStep_command s.popEvent w i hpend hw

/-- Settles O6: the core's turn with PEND empty is a wait, and every other event at the head of the agenda is the one run. -/
theorem eventsTakeEffect : Obligations.EventsTakeEffect := by
  refine ⟨fun s hnext hpend => ?_, fun s off size rest h => ?_, fun s off size v rest h => ?_, fun s rest h => ?_⟩
  · exact (step_of_coreNext hnext).trans (coreStep_empty s.popEvent hpend)
  · exact step_eq_runEvent_popEvent h
  · exact step_eq_runEvent_popEvent h
  · exact step_eq_runEvent_popEvent h

/-! ### OBUF after a reset -/

/-- A reset while the core waits leaves OBUF as it is (spec R240). -/
theorem State.obufAfterReset_idle {s : State} (hb : s.busy = false) : s.obufAfterReset = s.obuf := by
  simp [State.obufAfterReset, hb]

/-- A reset during a command takes the bytes from the output cursor on (spec R241). -/
theorem State.obufAfterReset_busy {s : State} (hb : s.busy = true) :
    s.obufAfterReset = memDropFrom s.obuf (s.obitpos.toNat / 8) := by
  simp [State.obufAfterReset, hb]

/-- Settles O8: all but OBUF is as `State.resetEvent` sets it, and OBUF is kept, or cut at the output cursor while BUSY. -/
theorem resetEventResult : Obligations.ResetEventResult := by
  refine fun s => ⟨rfl, State.obufAfterReset_idle, fun hb a => ?_⟩
  calc memLookup s.resetEvent.obuf a = memLookup (memDropFrom s.obuf (s.obitpos.toNat / 8)) a :=
        congrArg (memLookup · a) (State.obufAfterReset_busy hb)
    _ = if a < s.obitpos.toNat / 8 then memLookup s.obuf a else none := memLookup_memDropFrom s.obuf _ a

end Sys2Proof.Machine
end
